-- ==== Sys2Proof/Word.lean ====
section
/-!
DEFINITION. The word types of the block: registers and addresses are 32 bits wide (parameter `XLEN`,
spec/00_scope.md R6), memory is bytes (spec/20_memory.md R60), the CRC and the running sum are 16 bits
wide (spec/10_state.md R29, R30).
-/

namespace Sys2Proof

/-- A register, a command word or a byte address: `XLEN` = 32 bits (R6). -/
abbrev Word := BitVec 32

/-- One byte of `MEM` (R60). -/
abbrev Byte := BitVec 8

/-- A 16-bit quantity: `CRC`, `SUM` and the 16-bit header fields. -/
abbrev Half := BitVec 16

end Sys2Proof
end

