-- ==== Sys2Proof/Config.lean ====
section
/-!
DEFINITION. What one implementation of the block fixes (spec/00_scope.md R6) and the free values of
the model. The four OPEN parameters are plain data, gathered in `Params`; the machine's state carries
one value of it, so that a claim over every state is a claim over every legal choice. A free value is
an `opaque` constant: nothing can be proved of it.
-/

namespace Sys2Proof

/-- The bit reader's variant, register `BR_MODE` (spec/10_state.md R28): 0 is MSB-first, 1 is LSB-first. -/
inductive BitOrder where
  | msbFirst
  | lsbFirst
deriving DecidableEq, Repr

namespace Config

/-- Parameter `BR_LSB_ASSEMBLY` (R6; spec/40_bit_reader.md R114): how LSB-first mode assembles a value. -/
inductive LsbAssembly where
  | lsbToLsb
  | shiftLeft
deriving DecidableEq, Repr

/-- Parameter `TRK_PAYLOAD_OFF` (R6; spec/43_dms_track.md R167): 22 or 20. -/
inductive TrackLayout where
  | payloadAt22
  | payloadAt20
deriving DecidableEq, Repr

/-- Parameter `LZH_L3_FIXED` (R6; spec/44_lzh_entry.md R197): 31 or 32. -/
inductive Level3Layout where
  | fixed31
  | fixed32
deriving DecidableEq, Repr

/-- The open parameters of R6. `memLast` is the highest byte address, so that
`MEM_BYTES = memLast + 1` lies in 1 .. 2^32 for every value of the field. -/
structure Params where
  memLast      : Word
  lsbAssembly  : LsbAssembly
  trackLayout  : TrackLayout
  level3Layout : Level3Layout
deriving DecidableEq, Repr

/-- `MEM_BYTES` (R6, R60). -/
def Params.memBytes (p : Params) : Nat := p.memLast.toNat + 1

/-- `TRK_PAYLOAD_OFF` in bytes (R6). -/
def Params.payloadOff (p : Params) : Nat :=
  match p.trackLayout with
  | .payloadAt22 => 22
  | .payloadAt20 => 20

/-- `LZH_L3_FIXED` in bytes (R6). -/
def Params.l3Fixed (p : Params) : Nat :=
  match p.level3Layout with
  | .fixed31 => 31
  | .fixed32 => 32

/-- The parameters of the block that `State.reset` describes: the spec's defaults, and the largest
memory, for which the spec has no default. DESIGN CHOICE (log entry 1). -/
def defaults : Params :=
  { memLast := 0xFFFFFFFF#32, lsbAssembly := .lsbToLsb, trackLayout := .payloadAt22, level3Layout := .fixed31 }

/-- `BR_NMAX` (R6): the largest bit count of one read. -/
def brNMax : Nat := 32

/-- `BR_LEN_MAX` (R6): the largest buffer the bit reader binds. -/
def brLenMax : Nat := 0x1FFFFFFF

/-- `CRC_POLY` (R6, R130). -/
def crcPoly : Half := 0xA001#16

/-- `CRC_INIT` (R6, R130; spec/90_conflicts.md C1). -/
def crcInit : Half := 0x0000#16

/-- `RLE_ESC` (R6, R100). -/
def rleEsc : Byte := 0x90#8

/-- `RLE_LONG` (R6, R100). -/
def rleLong : Byte := 0xFF#8

/-- `DMS_FILE_HDR` (R6, R101). -/
def dmsFileHdr : Nat := 56

/-- `DMS_MIN_LEN` (R6). -/
def dmsMinLen : Nat := 56

/-- `LZH_LEVEL_OFF` (R6, R191). -/
def lzhLevelOff : Nat := 20

/-- `LZH_PACKED_OFF` (R6, R191). -/
def lzhPackedOff : Nat := 7

/-- `LZH_L2_FIXED` (R6, R195). -/
def lzhL2Fixed : Nat := 26

/-- FREE VALUE: the byte that `MEM` holds at an address which nothing has written. The spec has the
model take "the whole of `MEM` as an arbitrary value at reset" (spec/70_reset_and_hazards.md R261).
Log entry 2. -/
opaque resetByte : Nat → Byte

/-- FREE VALUE: the byte an address of the destination window holds after `RLE.EXPAND` or
`DMS.UNPACK` has raised a fault that leaves the window unspecified (spec/20_memory.md R73). Its
arguments are the running number of that event and the address. Log entry 3. -/
opaque windowByte : Nat → Nat → Byte

end Config

end Sys2Proof
end

