-- ==== Sys2Proof/Stream.lean ====
section
/-!
DEFINITION. The tokens of the RLE data stream (spec/30_encoding.md R100), as the decompressor of
spec/42_rle.md R152 sees them.
-/

namespace Sys2Proof

/-- One RLE token (R100): its bytes in stream order are `b`; `0x90 0x00`; `0x90 c v`; `0x90 0xFF v hi lo`. -/
inductive RleToken where
  | lit (b : Byte)
  | esc90
  | run8 (c v : Byte)
  | run16 (v hi lo : Byte)
deriving DecidableEq, Repr

end Sys2Proof
end

