-- ==== Sys2Proof/Syntax.lean ====
section
/-!
DEFINITION. The instructions: one constructor per row of spec/opcode_table.json, the eighteen commands
of spec/30_encoding.md R84 and the four RLE tokens of R100.
-/

namespace Sys2Proof

/-- A command (R84) or a token of the RLE stream (R100). Immediates are kept as the encoding has them;
which values are legal is `Instr.wf` (R83, R100). -/
inductive Instr where
  | brBind (order : BitOrder)
  | brRdu (n : Byte)
  | brRds (n : Byte)
  | crcInit
  | crcUpd
  | crcRun
  | sumInit
  | sumUpd
  | sumRun
  | sum32Chk
  | rleExpand
  | dmsOpen
  | dmsTrack
  | dmsUnpack (verify : Bool)
  | lzhParse
  | lzhExt
  | lzhCrc
  | errClr
  | rleLit (b : Byte)
  | rleEsc90
  | rleRun8 (c v : Byte)
  | rleRun16 (v hi lo : Byte)
deriving DecidableEq, Repr

end Sys2Proof
end

