-- ==== Sys2Proof/WellFormed.lean ====
section
/-!
DEFINITION. Which instructions are well formed: the legal immediates of spec/30_encoding.md R83 and
the selecting bytes of R100.
-/

namespace Sys2Proof

/-- The fields of a token are those that R100's "Selected by" column admits. -/
def RleToken.wf : RleToken → Bool
  | .lit b => b != Config.rleEsc
  | .esc90 => true
  | .run8 c _ => c != 0#8 && c != Config.rleLong
  | .run16 _ _ _ => true

/-- The instruction has an encoding: `n` of a bit read is at most `BR_NMAX` (R83), and a token's bytes
select that token (R100). -/
def Instr.wf : Instr → Bool
  | .brBind _ => true
  | .brRdu n => n.toNat ≤ Config.brNMax
  | .brRds n => n.toNat ≤ Config.brNMax
  | .crcInit => true
  | .crcUpd => true
  | .crcRun => true
  | .sumInit => true
  | .sumUpd => true
  | .sumRun => true
  | .sum32Chk => true
  | .rleExpand => true
  | .dmsOpen => true
  | .dmsTrack => true
  | .dmsUnpack _ => true
  | .lzhParse => true
  | .lzhExt => true
  | .lzhCrc => true
  | .errClr => true
  | .rleLit b => (RleToken.lit b).wf
  | .rleEsc90 => RleToken.esc90.wf
  | .rleRun8 c v => (RleToken.run8 c v).wf
  | .rleRun16 v hi lo => (RleToken.run16 v hi lo).wf

end Sys2Proof
end

