-- ==== Sys2Proof/Decode.lean ====
section
/-!
DEFINITION. Decoding and encoding. Command words follow spec/30_encoding.md R80 to R87, RLE tokens
R100. Both decoders are total and reject by name. The encoder is written from the same tables.
-/

namespace Sys2Proof

/-- Why bits are not an instruction. -/
inductive DecodeError where
  /-- bits 31:16 of a command word are not all 0 (R85). -/
  | upperBitsNotZero
  /-- the opcode is not one of the eighteen (R84, R85). -/
  | unknownOpcode
  /-- an immediate outside its legal values, or a non-zero immediate field of an N-format command (R83, R85). -/
  | illegalImmediate
  /-- a token cut short by the end of its bytes (R100, R152). -/
  | tokenCutShort
  /-- bytes left over after one token, where exactly one was asked for. -/
  | bytesLeftOver
deriving DecidableEq, Repr

/-- What an instruction is written as: a command word (R80) or the bytes of a token in stream order (R100). -/
inductive CodeUnit where
  | command (w : Word)
  | token (bytes : List Byte)
deriving DecidableEq, Repr

/-- Bits 7:0 (R81, R82). -/
def opcodeField (w : Word) : Byte := w.extractLsb' 0 8

/-- Bits 15:8 (R82). -/
def immField (w : Word) : Byte := w.extractLsb' 8 8

/-- Bits 31:16, which must be 0 (R81, R82). -/
def zeroField (w : Word) : Half := w.extractLsb' 16 16

/-- An N-format command: the immediate field must be 0 (R81, R85). -/
def formatN (imm : Byte) (i : Instr) : Except DecodeError Instr :=
  if imm = 0#8 then .ok i else .error .illegalImmediate

/-- An I-format command whose immediate is at most `max` (R82, R83). -/
def formatI (imm : Byte) (max : Nat) (i : Instr) : Except DecodeError Instr :=
  if imm.toNat ≤ max then .ok i else .error .illegalImmediate

/-- The decode procedure of R87, total on all 2^32 words. -/
def decodeWord (w : Word) : Except DecodeError Instr :=
  if zeroField w ≠ 0#16 then .error .upperBitsNotZero
  else
    let imm := immField w
    match (opcodeField w).toNat with
    | 0x10 => formatI imm 1 (.brBind (if imm = 0#8 then .msbFirst else .lsbFirst))
    | 0x11 => formatI imm Config.brNMax (.brRdu imm)
    | 0x12 => formatI imm Config.brNMax (.brRds imm)
    | 0x20 => formatN imm .crcInit
    | 0x21 => formatN imm .crcUpd
    | 0x22 => formatN imm .crcRun
    | 0x30 => formatN imm .sumInit
    | 0x31 => formatN imm .sumUpd
    | 0x32 => formatN imm .sumRun
    | 0x33 => formatN imm .sum32Chk
    | 0x40 => formatN imm .rleExpand
    | 0x50 => formatN imm .dmsOpen
    | 0x51 => formatN imm .dmsTrack
    | 0x52 => formatI imm 1 (.dmsUnpack (imm != 0#8))
    | 0x60 => formatN imm .lzhParse
    | 0x61 => formatN imm .lzhExt
    | 0x62 => formatN imm .lzhCrc
    | 0x70 => formatN imm .errClr
    | _ => .error .unknownOpcode

/-- The next token of an RLE stream and the bytes after it (R100): its length is decided by its first
two bytes, and a token cut short by the end of the input is malformed. -/
def decodeToken : List Byte → Except DecodeError (RleToken × List Byte)
  | [] => .error .tokenCutShort
  | b :: r =>
    if b ≠ Config.rleEsc then .ok (.lit b, r)
    else
      match r with
      | [] => .error .tokenCutShort
      | c :: r =>
        if c = 0#8 then .ok (.esc90, r)
        else
          match r with
          | [] => .error .tokenCutShort
          | v :: r =>
            if c = Config.rleLong then
              match r with
              | hi :: lo :: r => .ok (.run16 v hi lo, r)
              | _ => .error .tokenCutShort
            else .ok (.run8 c v, r)

/-- The instruction a token is. -/
def RleToken.toInstr : RleToken → Instr
  | .lit b => .rleLit b
  | .esc90 => .rleEsc90
  | .run8 c v => .rleRun8 c v
  | .run16 v hi lo => .rleRun16 v hi lo

/-- The bytes of a token, in stream order (R100). -/
def RleToken.bytes : RleToken → List Byte
  | .lit b => [b]
  | .esc90 => [Config.rleEsc, 0#8]
  | .run8 c v => [Config.rleEsc, c, v]
  | .run16 v hi lo => [Config.rleEsc, Config.rleLong, v, hi, lo]

/-- Decoding of one unit: a command word, or the bytes of exactly one token. -/
def decode : CodeUnit → Except DecodeError Instr
  | .command w => decodeWord w
  | .token bytes =>
    match decodeToken bytes with
    | .error e => .error e
    | .ok (t, []) => .ok t.toInstr
    | .ok (_, _ :: _) => .error .bytesLeftOver

/-- The word of a command with opcode `op` and immediate `imm` (R81, R82): bits 31:16 are 0. -/
def commandBits (op imm : Byte) : Word := 0#16 ++ imm ++ op

/-- The encoder, from the opcode map R84, the immediates R83 and the token table R100. -/
def encode : Instr → CodeUnit
  | .brBind .msbFirst => .command (commandBits 0x10#8 0#8)
  | .brBind .lsbFirst => .command (commandBits 0x10#8 1#8)
  | .brRdu n => .command (commandBits 0x11#8 n)
  | .brRds n => .command (commandBits 0x12#8 n)
  | .crcInit => .command (commandBits 0x20#8 0#8)
  | .crcUpd => .command (commandBits 0x21#8 0#8)
  | .crcRun => .command (commandBits 0x22#8 0#8)
  | .sumInit => .command (commandBits 0x30#8 0#8)
  | .sumUpd => .command (commandBits 0x31#8 0#8)
  | .sumRun => .command (commandBits 0x32#8 0#8)
  | .sum32Chk => .command (commandBits 0x33#8 0#8)
  | .rleExpand => .command (commandBits 0x40#8 0#8)
  | .dmsOpen => .command (commandBits 0x50#8 0#8)
  | .dmsTrack => .command (commandBits 0x51#8 0#8)
  | .dmsUnpack false => .command (commandBits 0x52#8 0#8)
  | .dmsUnpack true => .command (commandBits 0x52#8 1#8)
  | .lzhParse => .command (commandBits 0x60#8 0#8)
  | .lzhExt => .command (commandBits 0x61#8 0#8)
  | .lzhCrc => .command (commandBits 0x62#8 0#8)
  | .errClr => .command (commandBits 0x70#8 0#8)
  | .rleLit b => .token (RleToken.lit b).bytes
  | .rleEsc90 => .token RleToken.esc90.bytes
  | .rleRun8 c v => .token (RleToken.run8 c v).bytes
  | .rleRun16 v hi lo => .token (RleToken.run16 v hi lo).bytes

/-- The word that `ERR_CMD` records when `i` faults (spec/60_exceptions.md R240): its own word, and for
a token the word of the `RLE.EXPAND` whose stream it stands in (log entry 5). -/
def faultWord (i : Instr) : Word :=
  match encode i with
  | .command w => w
  | .token _ => commandBits 0x40#8 0#8

/-- The first `nbits / 8` bytes of a token numbered as spec/opcode_table.json numbers it: the table's
rows of tokens have their FIRST byte leftmost, in the highest bits (log entry 6). -/
def tableBytes : Nat → Nat → List Byte
  | 0, _ => []
  | n + 1, w => BitVec.ofNat 8 (w >>> (8 * n)) :: tableBytes n w

/-- A token's bytes from its table number, followed by zero bytes up to the longest token (5 bytes). -/
def tableTokenBytes (nbits w : Nat) : List Byte :=
  (tableBytes (nbits / 8) w ++ List.replicate 5 0#8).take 5

/-- The one token that the table's bits hold, and nothing after it. -/
def tableToken (nbits w : Nat) : Option RleToken :=
  match decodeToken (tableTokenBytes nbits w) with
  | .ok (t, _) => some t
  | .error _ => none

/-- The instruction that this decoder reads from a row of spec/opcode_table.json: rows of 32 bits are
command words (R80), all others are RLE tokens (R100). -/
def decodeTableWord (nbits w : Nat) : Option Instr :=
  if nbits = 32 then
    match decodeWord (BitVec.ofNat 32 w) with
    | .ok i => some i
    | .error _ => none
  else (tableToken nbits w).map RleToken.toInstr

end Sys2Proof
end

