-- ==== Sys2Proof/Machine/State.lean ====
section
/-!
DEFINITION. The state of the machine: the seven items of spec/10_state.md R20, plain data, and beside
them what the model itself needs (the parameters, the token-by-token expansion, the host's script and
the values it has read, the counter of free values). The causes a command can raise, the actions of
the host, and the state after reset (R37).
-/

namespace Sys2Proof.Machine

/-- `MEM` (spec/20_memory.md R60): the bytes written so far, by address, in one canonical form
(`Memory.wf`). An address that is not listed has not been written and reads as `Config.resetByte`
(log entry 2). -/
abbrev Memory := List Host.Cell

/-- The canonical form: addresses strictly rising, so that equal memories are equal lists. -/
abbrev Memory.wf (m : Memory) : Prop := m.Pairwise (fun c d => c.1 < d.1)

/-- The operand and result registers `x[0]` to `x[7]` under their aliases (R21). -/
structure Regs where
  src  : Word
  slen : Word
  dst  : Word
  dlen : Word
  aux  : Word
  res0 : Word
  res1 : Word
  res2 : Word
deriving DecidableEq, Repr

/-- The fault latch `ERR`, `ERR_CMD`, `ERR_GOT`, `ERR_EXP` (R27). -/
structure FaultLatch where
  code : BitVec 4
  cmd  : Word
  got  : Word
  exp  : Word
deriving DecidableEq, Repr

/-- `BR_BASE`, `BR_LEN`, `BR_POS`, `BR_MODE` (R28). -/
structure BitReader where
  base : Word
  len  : BitVec 29
  pos  : Word
  mode : BitOrder
deriving DecidableEq, Repr

/-- The latched track record `TRK_*` (R31). -/
structure Track where
  valid : Bool
  num   : Word
  pklen : Half
  ulenA : Half
  ulenB : Half
  flags : Byte
  mode  : Byte
  usum  : Half
  dcrc  : Half
  hcrc  : Half
  pay   : Word
  next  : Word
deriving DecidableEq, Repr

/-- The latched archive entry `LZH_*` (R32). `last` is `LZH_END`. -/
structure Entry where
  valid    : Bool
  level    : BitVec 2
  hdrlen   : Word
  packed   : Word
  pay      : Word
  last     : Word
  ucrc     : Half
  hcrc     : Half
  flags    : BitVec 3
  nameOff  : Word
  nameLen  : Word
  dirOff   : Word
  dirLen   : Word
  extCnt   : Word
  extBytes : Word
  ext0     : Word
  fwd0     : Word
deriving DecidableEq, Repr

/-- The variables of `RleExpand` (spec/42_rle.md R152) between two tokens: the input not yet decoded
and the output so far. The model's own state, for running an expansion token by token (log entry 5);
no command leaves one behind (R150). -/
structure RleRun where
  input : List Byte
  out   : List Byte
deriving DecidableEq, Repr

/-- What the host does in one step (spec/45_control.md R221 to R223; spec/20_memory.md R72;
spec/70_reset_and_hazards.md R260). -/
inductive HostAction where
  /-- `RegRead(num)`, R221. -/
  | regRead (num : BitVec 6)
  /-- `RegWrite(num, v)`, R222; with `num` = 8 it issues the command word `v`, R223. -/
  | regWrite (num : BitVec 6) (v : Word)
  /-- the host reads one byte of `MEM`, R72. -/
  | memRead (addr : Word)
  /-- the host writes one byte of `MEM`, R72. -/
  | memWrite (addr : Word) (b : Byte)
  /-- the reset event, R260. -/
  | reset
deriving DecidableEq, Repr

/-- What the host got back from a read. -/
inductive Reply where
  | reg (v : Word)
  | byte (b : Byte)
deriving DecidableEq, Repr

/-- The six fault causes of the block (spec/60_exceptions.md R230, R231), with the two values an
IntegrityError records (R27). -/
inductive Cause where
  | structural
  | integrity (got exp : Word)
  | unsupported
  | illegal
  | operand
  | overrun
deriving DecidableEq, Repr

/-- The state: the parameters (R6), items 1 to 7 of R20, and the model's own fields `rle`, `script`,
`replies` (newest first) and `freeCount`. -/
structure State where
  cfg       : Config.Params
  x         : Regs
  err       : FaultLatch
  br        : BitReader
  crc       : Half
  sum       : Half
  trk       : Track
  lzh       : Entry
  mem       : Memory
  rle       : Option RleRun
  script    : List HostAction
  replies   : List Reply
  freeCount : Nat
deriving DecidableEq, Repr

/-- Why the machine stops. None of the block's own faults is here: those are latched and the machine
goes on (spec/60_exceptions.md R240). -/
inductive Fault where
  /-- An access to a byte address that the memory does not have (R60). Raised by a host access to
  `MEM` at or above `MEM_BYTES`, and by a bit read or a running expansion in a state whose bound buffer
  or destination window does not lie in memory, which no run reaches. Safe: the spec gives no outcome. -/
  | noSuchAddress (addr : Nat)
deriving DecidableEq, Repr

/-- Why an instruction has no meaning. -/
inductive Refusal where
  /-- An instruction whose arm of `exec` has no meaning yet. No arm answers it. Safe: the run ends. -/
  | notModelled (mnemonic : String)
deriving DecidableEq, Repr

/-- `x[0]` to `x[7]` after reset (R37). -/
def Regs.zero : Regs :=
  { src := 0#32, slen := 0#32, dst := 0#32, dlen := 0#32, aux := 0#32, res0 := 0#32, res1 := 0#32, res2 := 0#32 }

/-- The latch with no fault in it: after reset (R37) and after `ERR.CLR` (R220). -/
def FaultLatch.clear : FaultLatch := { code := 0#4, cmd := 0#32, got := 0#32, exp := 0#32 }

/-- An empty buffer bound in MSB-first mode at bit 0 (R37). -/
def BitReader.unbound : BitReader := { base := 0#32, len := 0#29, pos := 0#32, mode := .msbFirst }

/-- `TRK_*` after reset (R37). -/
def Track.zero : Track :=
  { valid := false, num := 0#32, pklen := 0#16, ulenA := 0#16, ulenB := 0#16, flags := 0#8, mode := 0#8,
    usum := 0#16, dcrc := 0#16, hcrc := 0#16, pay := 0#32, next := 0#32 }

/-- `LZH_*` after reset (R37). -/
def Entry.zero : Entry :=
  { valid := false, level := 0#2, hdrlen := 0#32, packed := 0#32, pay := 0#32, last := 0#32, ucrc := 0#16,
    hcrc := 0#16, flags := 0#3, nameOff := 0#32, nameLen := 0#32, dirOff := 0#32, dirLen := 0#32,
    extCnt := 0#32, extBytes := 0#32, ext0 := 0#32, fwd0 := 0#32 }

/-- The machine right after power-on reset (R37, spec/70_reset_and_hazards.md R260, R261): every
register 0, no byte of memory written, and no host action waiting. -/
def State.reset : State :=
  { cfg := Config.defaults, x := Regs.zero, err := FaultLatch.clear, br := BitReader.unbound, crc := 0#16,
    sum := 0#16, trk := Track.zero, lzh := Entry.zero, mem := [], rle := none, script := [], replies := [],
    freeCount := 0 }

end Sys2Proof.Machine
end

