-- ==== Sys2Proof/Machine/Ops.lean ====
section
/-!
DEFINITION. The named operations over memory and registers, and the entry into a fault
(spec/60_exceptions.md R240) with the return from it (R243) beside it.
-/

namespace Sys2Proof.Machine

/-- What a step of this machine answers. -/
abbrev Answer := Host.Outcome State Fault Refusal

/-! ### Memory (spec/20_memory.md R60, R66) -/

/-- The byte last written at `a`, if any was. -/
def Memory.lookup : Memory → Nat → Option Byte
  | [], _ => none
  | (k, b) :: m, a => if a = k then some b else Memory.lookup m a

/-- `MEM[a]`: the byte last written there, else the free value of an unwritten byte (log entry 2). -/
def Memory.read (m : Memory) (a : Nat) : Byte := (Memory.lookup m a).getD (Config.resetByte a)

/-- `MEM[a] <- b`, keeping the canonical form. -/
def Memory.write : Memory → Nat → Byte → Memory
  | [], a, b => [(a, b)]
  | (k, c) :: m, a, b =>
    if a < k then (a, b) :: (k, c) :: m
    else if a = k then (a, b) :: m
    else (k, c) :: Memory.write m a b

/-- `MemWrite(a, n, bs)` (spec/00_scope.md R9): the bytes `bs` at `a`, `a + 1`, ... in ascending order. -/
def Memory.writeList : Memory → Nat → List Byte → Memory
  | m, _, [] => m
  | m, a, b :: bs => Memory.writeList (Memory.write m a b) (a + 1) bs

/-- The `n` bytes from `a` on become unspecified: free values of event number `k` (R73, log entry 3). -/
def Memory.forget (m : Memory) (a n k : Nat) : Memory :=
  Memory.writeList m a ((List.range n).map (fun j => Config.windowByte k (a + j)))

/-! ### Register groups -/

def State.setX (s : State) (v : Regs) : State := { s with x := v }
def State.setErr (s : State) (v : FaultLatch) : State := { s with err := v }
def State.setBr (s : State) (v : BitReader) : State := { s with br := v }
def State.setCrc (s : State) (v : Half) : State := { s with crc := v }
def State.setSum (s : State) (v : Half) : State := { s with sum := v }
def State.setTrk (s : State) (v : Track) : State := { s with trk := v }
def State.setLzh (s : State) (v : Entry) : State := { s with lzh := v }
def State.setMem (s : State) (v : Memory) : State := { s with mem := v }
def State.setRle (s : State) (v : Option RleRun) : State := { s with rle := v }
def State.setScript (s : State) (v : List HostAction) : State := { s with script := v }
def State.pushReply (s : State) (v : Reply) : State := { s with replies := v :: s.replies }

/-- `x[5] <- v` (R21). -/
def State.setRes0 (s : State) (v : Word) : State := s.setX { s.x with res0 := v }

/-- `x[5] <- a; x[6] <- b` (R21). -/
def State.setRes01 (s : State) (a b : Word) : State := s.setX { s.x with res0 := a, res1 := b }

/-- `x[5] <- a; x[6] <- b; x[7] <- c` (R21). -/
def State.setRes012 (s : State) (a b c : Word) : State := s.setX { s.x with res0 := a, res1 := b, res2 := c }

/-! ### Faults (spec/60_exceptions.md) -/

/-- The value latched in `ERR[3:0]` (R231). -/
def Cause.code : Cause → BitVec 4
  | .structural => 1#4
  | .integrity _ _ => 2#4
  | .unsupported => 3#4
  | .illegal => 4#4
  | .operand => 5#4
  | .overrun => 6#4

/-- The value latched in `ERR_GOT` (R231, R240): 0 when the cause gives none. -/
def Cause.got : Cause → Word
  | .integrity g _ => g
  | .structural | .unsupported | .illegal | .operand | .overrun => 0#32

/-- The value latched in `ERR_EXP` (R231, R240): 0 when the cause gives none. -/
def Cause.exp : Cause → Word
  | .integrity _ e => e
  | .structural | .unsupported | .illegal | .operand | .overrun => 0#32

/-- The latch after the fault entry of R240. -/
def Cause.latch (c : Cause) (cmd : Word) : FaultLatch :=
  { code := c.code, cmd := cmd, got := c.got, exp := c.exp }

/-- FAULT ENTRY (R240): the four latch registers are written and nothing else. The block raises it and
goes on; it has no handler, no saved program counter and no mode (R240). -/
def raise (s : State) (cmd : Word) (c : Cause) : Answer := .next (s.setErr (c.latch cmd))

/-- The causes after which the destination window of `RLE.EXPAND` or `DMS.UNPACK` is unspecified (R73). -/
def Cause.spoilsWindow : Cause → Bool
  | .structural => true
  | .integrity _ _ => true
  | .unsupported => true
  | .illegal => false
  | .operand => false
  | .overrun => false

/-- Every byte of the destination window becomes a fresh free value (R73, log entry 3). -/
def State.forgetWindow (s : State) : State :=
  { s with mem := Memory.forget s.mem s.x.dst.toNat s.x.dlen.toNat s.freeCount, freeCount := s.freeCount + 1 }

/-- Fault entry of a command that writes the destination window (R73, R240). -/
def raiseInWindow (s : State) (cmd : Word) (c : Cause) : Answer :=
  if c.spoilsWindow then raise s.forgetWindow cmd c else raise s cmd c

/-- RETURN from a fault (R243, spec/45_control.md R220): the four latch registers are cleared and
nothing is restored. -/
def clearFault (s : State) : State := s.setErr FaultLatch.clear

/-- The block is halted (R242). -/
abbrev State.halted (s : State) : Prop := s.err.code ≠ 0#4

/-- The reset event (spec/70_reset_and_hazards.md R260, R261): every register takes its reset value,
`MEM` keeps what it holds; the parameters, the host's own lists and the free-value counter are no
registers. -/
def State.blockReset (s : State) : State :=
  { State.reset with cfg := s.cfg, mem := s.mem, script := s.script, replies := s.replies, freeCount := s.freeCount }

end Sys2Proof.Machine
end

