-- ==== Sys2Proof/Machine/Operands.lean ====
section
/-!
DEFINITION. The three addressing forms (spec/20_memory.md R75), the window checks (R62, R63), the byte
assembly of spec/00_scope.md R10 and the bit of spec/40_bit_reader.md R112.
-/

namespace Sys2Proof.Machine

/-- The source window lies in memory (R62); the sum is exact. -/
abbrev State.srcInMem (s : State) : Prop := s.x.src.toNat + s.x.slen.toNat ≤ s.cfg.memBytes

/-- The destination window lies in memory (R62); the sum is exact. -/
abbrev State.dstInMem (s : State) : Prop := s.x.dst.toNat + s.x.dlen.toNat ≤ s.cfg.memBytes

/-- The two windows share an address (R63). -/
abbrev State.windowsOverlap (s : State) : Prop :=
  s.x.slen ≠ 0#32 ∧ s.x.dlen ≠ 0#32 ∧
    s.x.src.toNat < s.x.dst.toNat + s.x.dlen.toNat ∧ s.x.dst.toNat < s.x.src.toNat + s.x.slen.toNat

/-- `B[o] = MEM[x[0] + o]` (spec/00_scope.md R11). -/
def State.srcByte (s : State) (o : Nat) : Byte := s.mem.read (s.x.src.toNat + o)

/-- The `n` bytes of the source buffer from offset `o` on, in ascending order. -/
def State.srcBytes (s : State) (o n : Nat) : List Byte := (List.range n).map (fun j => s.srcByte (o + j))

/-- The whole source window (R11). -/
def State.window (s : State) : List Byte := s.srcBytes 0 s.x.slen.toNat

/-! ### Byte assembly (R10). `B` is a buffer by offset; the results are exact. -/

def le16 (B : Nat → Byte) (o : Nat) : Nat := (B o).toNat + 2 ^ 8 * (B (o + 1)).toNat

def le32 (B : Nat → Byte) (o : Nat) : Nat :=
  (B o).toNat + 2 ^ 8 * (B (o + 1)).toNat + 2 ^ 16 * (B (o + 2)).toNat + 2 ^ 24 * (B (o + 3)).toNat

def be16 (B : Nat → Byte) (o : Nat) : Nat := 2 ^ 8 * (B o).toNat + (B (o + 1)).toNat

def be32 (B : Nat → Byte) (o : Nat) : Nat :=
  2 ^ 24 * (B o).toNat + 2 ^ 16 * (B (o + 1)).toNat + 2 ^ 8 * (B (o + 2)).toNat + (B (o + 3)).toNat

/-- A forward-length field of `W` bytes at `o`, little-endian (R64, spec/30_encoding.md R104). -/
def leField (B : Nat → Byte) (W o : Nat) : Nat := if W = 2 then le16 B o else le32 B o

/-- `sext_16` to 32 bits (spec/00_scope.md R8). -/
def sext16 (v : Half) : Word := v.signExtend 32

/-! ### Bits of the bound buffer -/

/-- `Bit(p)` (spec/40_bit_reader.md R112). -/
def State.brBit (s : State) (p : Nat) : Bool :=
  let byte := s.mem.read (s.br.base.toNat + p / 8)
  match s.br.mode with
  | .msbFirst => byte.getLsbD (7 - p % 8)
  | .lsbFirst => byte.getLsbD (p % 8)

/-- The `n` bits from `BR_POS` on, in the order they are taken (R114). -/
def State.brBits (s : State) (n : Nat) : List Bool :=
  (List.range n).map (fun i => s.brBit (s.br.pos.toNat + i))

/-- A read of `n` bits stays inside the bound buffer (R113). -/
abbrev State.brFits (s : State) (n : Nat) : Prop := s.br.pos.toNat + n ≤ 8 * s.br.len.toNat

/-- The address of the last byte that a read of `n` ≥ 1 bits touches (R75). -/
def State.brLastAddr (s : State) (n : Nat) : Nat := s.br.base.toNat + (s.br.pos.toNat + n - 1) / 8

end Sys2Proof.Machine
end

