-- ==== Sys2Proof/Machine/Flags.lean ====
section
/-!
DEFINITION. The one-bit status values. The block has no condition codes (spec/10_state.md R25); these
are the presence bits of `LZH_FLAGS` (R32) and the one-bit registers as a 32-bit word.
-/

namespace Sys2Proof.Machine

/-- A one-bit value as a register word: 0 or 1 (R23). -/
def boolWord (b : Bool) : Word := if b then 1#32 else 0#32

/-- `BR_MODE` as a register word (R28): 0 is MSB-first, 1 is LSB-first. -/
def modeWord : BitOrder → Word
  | .msbFirst => 0#32
  | .lsbFirst => 1#32

/-- `LZH_FLAGS` (R32; spec/44_lzh_entry.md R204): bit 2 directory, bit 1 filename, bit 0 header CRC. -/
def lzhFlags (dirPresent namePresent hcrcPresent : Bool) : BitVec 3 :=
  BitVec.ofBool dirPresent ++ BitVec.ofBool namePresent ++ BitVec.ofBool hcrcPresent

end Sys2Proof.Machine
end

