-- ==== Sys2Proof/Machine/BitReaderUnit.lean ====
section
/-!
DEFINITION. The bit-stream reader (spec/40_bit_reader.md): `BR.BIND`, `BR.RDU`, `BR.RDS`.
-/

namespace Sys2Proof.Machine

/-- Assembly with the first bit taken as the most significant: `v = 2*v + b` (R114). -/
def shiftIn (bits : List Bool) : Nat := bits.foldl (fun v b => 2 * v + b.toNat) 0

/-- Assembly with the first bit taken as the least significant: the sum of `b_i * 2^i` (R114). -/
def weighBits : List Bool → Nat
  | [] => 0
  | b :: bits => b.toNat + 2 * weighBits bits

/-- The three arms of `ReadUnsigned` (R114). -/
def assemble (order : BitOrder) (asm : Config.LsbAssembly) (bits : List Bool) : Nat :=
  match order with
  | .msbFirst => shiftIn bits
  | .lsbFirst =>
    match asm with
    | .lsbToLsb => weighBits bits
    | .shiftLeft => shiftIn bits

/-- `ReadUnsigned(n)` (R114). -/
def State.readUnsigned (s : State) (n : Nat) : Nat := assemble s.br.mode s.cfg.lsbAssembly (s.brBits n)

/-- `s mod 2^32`, where `s` is `u - 2^n` if bit `n - 1` of `u` is set and `u` otherwise (R116). -/
def signedWord (n u : Nat) : Word :=
  if 1 ≤ n ∧ u.testBit (n - 1) then BitVec.ofInt 32 ((u : Int) - 2 ^ n) else BitVec.ofNat 32 u

/-- What `BR.RDU` and `BR.RDS` share (R113, R115, R116): the check of the whole read, the advance of
`BR_POS`, and the result in `RES0`. An `n` above 32 is no command (R85). A state whose bound buffer
leaves memory, which no run reaches (R118), has no byte to read. -/
def brRead (cmd : Word) (n : Nat) (value : Nat → Word) (s : State) : Answer :=
  if Config.brNMax < n then raise s cmd .illegal
  else if ¬ s.brFits n then raise s cmd .overrun
  else if n ≠ 0 ∧ s.cfg.memBytes ≤ s.brLastAddr n then .fault (.noSuchAddress (s.brLastAddr n))
  else .next ((s.setBr { s.br with pos := BitVec.ofNat 32 (s.br.pos.toNat + n) }).setRes0 (value (s.readUnsigned n)))

/-- `BR.BIND` (R111). -/
def execBrBind (order : BitOrder) (s : State) : Answer :=
  if ¬ s.srcInMem then raise s (faultWord (.brBind order)) .operand
  else if Config.brLenMax < s.x.slen.toNat then raise s (faultWord (.brBind order)) .operand
  else .next (s.setBr { base := s.x.src, len := s.x.slen.setWidth 29, pos := 0#32, mode := order })

/-- `BR.RDU` (R115): the unsigned value, zero-extended. -/
def execBrRdu (n : Byte) (s : State) : Answer :=
  brRead (faultWord (.brRdu n)) n.toNat (fun u => BitVec.ofNat 32 u) s

/-- `BR.RDS` (R116): the signed value, as a 32-bit pattern. -/
def execBrRds (n : Byte) (s : State) : Answer :=
  brRead (faultWord (.brRds n)) n.toNat (fun u => signedWord n.toNat u) s

end Sys2Proof.Machine
end

