-- ==== Sys2Proof/Machine/Checksum.lean ====
section
/-!
DEFINITION. The CRC-16/ANSI generator and the additive checksum unit (spec/41_crc_checksum.md):
`CRC.INIT`, `CRC.UPD`, `CRC.RUN`, `SUM.INIT`, `SUM.UPD`, `SUM.RUN`, `SUM32.CHK`.
-/

namespace Sys2Proof.Machine

/-- One pass of the loop of `CrcByte` (R131). -/
def crcShift (c : Half) : Half := if c.getLsbD 0 then (c >>> 1) ^^^ Config.crcPoly else c >>> 1

/-- `CrcByte(c, b)` (R131): the byte enters the low 8 bits, then eight passes. -/
def crcByte (c : Half) (b : Byte) : Half :=
  crcShift (crcShift (crcShift (crcShift (crcShift (crcShift (crcShift (crcShift (c ^^^ b.setWidth 16))))))))

/-- `Crc16(bytes, c0)` (R132). -/
def crc16 (bytes : List Byte) (c0 : Half) : Half := bytes.foldl crcByte c0

/-- `Sum16(bytes, s0)` (R136): overflow past 16 bits is discarded. -/
def sum16 (bytes : List Byte) (s0 : Half) : Half := bytes.foldl (fun s b => s + b.setWidth 16) s0

/-- The sum of the first `k` big-endian words of `W`, less the one at offset `q`, modulo 2^32 (R140). -/
def sumWords (W : Nat → Byte) (q : Nat) : Nat → Word
  | 0 => 0#32
  | k + 1 => if 4 * k = q then sumWords W q k else sumWords W q k + BitVec.ofNat 32 (be32 W (4 * k))

/-- `Sum32Neg(W, q)` over a block of `len` bytes (R140): the negation of 0 is 0. -/
def sum32Neg (W : Nat → Byte) (len q : Nat) : Word := - sumWords W q (len / 4)

/-- `CRC <- c; x[5] <- c` for the CRC of the source window from `c0` (R134). -/
def crcOverWindow (cmd : Word) (c0 : Half) (s : State) : Answer :=
  if ¬ s.srcInMem then raise s cmd .operand
  else .next ((s.setCrc (crc16 s.window c0)).setRes0 ((crc16 s.window c0).setWidth 32))

/-- `SUM <- v; x[5] <- v` for the sum of the source window from `s0` (R138). -/
def sumOverWindow (cmd : Word) (s0 : Half) (s : State) : Answer :=
  if ¬ s.srcInMem then raise s cmd .operand
  else .next ((s.setSum (sum16 s.window s0)).setRes0 ((sum16 s.window s0).setWidth 32))

/-- `CRC.INIT` (R133). -/
def execCrcInit (s : State) : Answer := .next (s.setCrc Config.crcInit)

/-- `CRC.UPD` (R134). -/
def execCrcUpd (s : State) : Answer := crcOverWindow (faultWord .crcUpd) s.crc s

/-- `CRC.RUN` (R135). -/
def execCrcRun (s : State) : Answer := crcOverWindow (faultWord .crcRun) Config.crcInit s

/-- `SUM.INIT` (R137). -/
def execSumInit (s : State) : Answer := .next (s.setSum 0#16)

/-- `SUM.UPD` (R138). -/
def execSumUpd (s : State) : Answer := sumOverWindow (faultWord .sumUpd) s.sum s

/-- `SUM.RUN` (R139). -/
def execSumRun (s : State) : Answer := sumOverWindow (faultWord .sumRun) 0#16 s

/-- The operands that `SUM32.CHK` accepts (R141): a positive length and an offset below it, both
multiples of 4. -/
abbrev State.sum32Operands (s : State) : Prop :=
  s.x.slen ≠ 0#32 ∧ s.x.slen.toNat % 4 = 0 ∧ s.x.aux.toNat % 4 = 0 ∧ s.x.aux.toNat < s.x.slen.toNat

/-- The checksum that `SUM32.CHK` computes (R141). -/
def State.sum32Computed (s : State) : Word := sum32Neg s.srcByte s.x.slen.toNat s.x.aux.toNat

/-- The checksum that `SUM32.CHK` finds stored (R141). -/
def State.sum32Stored (s : State) : Word := BitVec.ofNat 32 (be32 s.srcByte s.x.aux.toNat)

/-- `SUM32.CHK` (R141). -/
def execSum32Chk (s : State) : Answer :=
  if ¬ s.srcInMem then raise s (faultWord .sum32Chk) .operand
  else if ¬ s.sum32Operands then raise s (faultWord .sum32Chk) .operand
  else if s.sum32Computed ≠ s.sum32Stored then
    raise s (faultWord .sum32Chk) (.integrity s.sum32Computed s.sum32Stored)
  else .next (s.setRes01 s.sum32Computed s.sum32Stored)

end Sys2Proof.Machine
end

