-- ==== Sys2Proof/Machine/Control.lean ====
section
/-!
DEFINITION. The control command `ERR.CLR` and the register port (spec/45_control.md R220 to R222;
register map: spec/10_state.md R23).
-/

namespace Sys2Proof.Machine

/-- `ERR.CLR` (R220). -/
def execErrClr (s : State) : Answer := .next (clearFault s)

/-- `RegRead(num)` (R221): the register map of R23. `CMD` and the reserved numbers read 0 (R26, R33). -/
def regRead (s : State) (num : BitVec 6) : Word :=
  match num.toNat with
  | 0 => s.x.src
  | 1 => s.x.slen
  | 2 => s.x.dst
  | 3 => s.x.dlen
  | 4 => s.x.aux
  | 5 => s.x.res0
  | 6 => s.x.res1
  | 7 => s.x.res2
  | 8 => 0#32
  | 9 => s.err.code.setWidth 32
  | 10 => s.err.cmd
  | 11 => s.err.got
  | 12 => s.err.exp
  | 13 => s.br.base
  | 14 => s.br.len.setWidth 32
  | 15 => s.br.pos
  | 16 => modeWord s.br.mode
  | 17 => s.crc.setWidth 32
  | 18 => s.sum.setWidth 32
  | 19 => boolWord s.trk.valid
  | 20 => s.trk.num
  | 21 => s.trk.pklen.setWidth 32
  | 22 => s.trk.ulenA.setWidth 32
  | 23 => s.trk.ulenB.setWidth 32
  | 24 => s.trk.flags.setWidth 32
  | 25 => s.trk.mode.setWidth 32
  | 26 => s.trk.usum.setWidth 32
  | 27 => s.trk.dcrc.setWidth 32
  | 28 => s.trk.hcrc.setWidth 32
  | 29 => s.trk.pay
  | 30 => s.trk.next
  | 31 => boolWord s.lzh.valid
  | 32 => s.lzh.level.setWidth 32
  | 33 => s.lzh.hdrlen
  | 34 => s.lzh.packed
  | 35 => s.lzh.pay
  | 36 => s.lzh.last
  | 37 => s.lzh.ucrc.setWidth 32
  | 38 => s.lzh.hcrc.setWidth 32
  | 39 => s.lzh.flags.setWidth 32
  | 40 => s.lzh.nameOff
  | 41 => s.lzh.nameLen
  | 42 => s.lzh.dirOff
  | 43 => s.lzh.dirLen
  | 44 => s.lzh.extCnt
  | 45 => s.lzh.extBytes
  | 46 => s.lzh.ext0
  | 47 => s.lzh.fwd0
  | _ => 0#32

/-- `RegWrite(num, v)` for `num` other than 8 (R222): `CRC` and `SUM` take `v[15:0]` (R29, R30), and a
write to a read-only or reserved register is ignored (R33). -/
def regWrite (s : State) (num : BitVec 6) (v : Word) : State :=
  match num.toNat with
  | 0 => s.setX { s.x with src := v }
  | 1 => s.setX { s.x with slen := v }
  | 2 => s.setX { s.x with dst := v }
  | 3 => s.setX { s.x with dlen := v }
  | 4 => s.setX { s.x with aux := v }
  | 5 => s.setX { s.x with res0 := v }
  | 6 => s.setX { s.x with res1 := v }
  | 7 => s.setX { s.x with res2 := v }
  | 17 => s.setCrc (v.setWidth 16)
  | 18 => s.setSum (v.setWidth 16)
  | _ => s

end Sys2Proof.Machine
end

