-- ==== Sys2Proof/Machine/Rle.lean ====
section
/-!
DEFINITION. The RLE decompressor (spec/42_rle.md): the expansion as a function (R152), the meaning of
each token (R100), and `RLE.EXPAND` (R153).
-/

namespace Sys2Proof.Machine

/-- `emit(v, n)` of R152 on the output so far: `none` is the StructuralError of an output that would
pass the declared length `D`. -/
def rleEmit (D : Nat) (out : List Byte) (v : Byte) (n : Nat) : Option (List Byte) :=
  if D < out.length + n then none else some (out ++ List.replicate n v)

/-- The byte a token emits (R100). -/
def tokenValue : RleToken → Byte
  | .lit b => b
  | .esc90 => Config.rleEsc
  | .run8 _ v => v
  | .run16 v _ _ => v

/-- How many copies of it a token emits (R100); the long count is big-endian. -/
def tokenCount : RleToken → Nat
  | .lit _ => 1
  | .esc90 => 1
  | .run8 c _ => c.toNat
  | .run16 _ hi lo => 256 * hi.toNat + lo.toNat

/-- What a token appends to the output (R100). -/
def tokenOutput (t : RleToken) : List Byte := List.replicate (tokenCount t) (tokenValue t)

/-- The loop of `RleExpand` (R152), at most `fuel` tokens: `none` is its StructuralError. Each token
takes at least one byte, so the input's length is fuel enough. -/
def rleLoop (D : Nat) : Nat → List Byte → List Byte → Option (List Byte)
  | _, [], out => if out.length = D then some out else none
  | 0, _ :: _, _ => none
  | fuel + 1, b :: r, out =>
    match decodeToken (b :: r) with
    | .error _ => none
    | .ok (t, rest) =>
      match rleEmit D out (tokenValue t) (tokenCount t) with
      | none => none
      | some out' => rleLoop D fuel rest out'

/-- `RleExpand(I, D)` (R152): `none` is StructuralError. -/
def rleExpand (I : List Byte) (D : Nat) : Option (List Byte) := rleLoop D I.length I []

/-- The windows an expansion or an unpacking may use (R62, R63). -/
abbrev State.windowsOk (s : State) : Prop := s.srcInMem ∧ s.dstInMem ∧ ¬ s.windowsOverlap

/-- `RLE.EXPAND` (R153). -/
def execRleExpand (s : State) : Answer :=
  if ¬ s.windowsOk then raise s (faultWord .rleExpand) .operand
  else
    match rleExpand s.window s.x.dlen.toNat with
    | none => raiseInWindow s (faultWord .rleExpand) .structural
    | some out => .next ((s.setMem (s.mem.writeList s.x.dst.toNat out)).setRes0 s.x.dlen)

/-! ### The same expansion token by token (log entry 5) -/

/-- A StructuralError inside a running expansion: it ends the expansion by the fault entry of
`RLE.EXPAND`. A destination window outside memory, which no run reaches, has no byte to lose. -/
def rleAbort (s : State) : Answer :=
  if s.dstInMem then raiseInWindow (s.setRle none) (faultWord .rleExpand) .structural
  else .fault (.noSuchAddress (s.x.dst.toNat + s.x.dlen.toNat - 1))

/-- The expansion that a token continues: the running one, else a new one with no output yet. -/
def State.rleCurrent (s : State) : RleRun := s.rle.getD { input := [], out := [] }

/-- One pass of the loop of R152 after its token is decoded: `emit`, against the declared length `x[3]`. -/
def execToken (t : RleToken) (s : State) : Answer :=
  match rleEmit s.x.dlen.toNat s.rleCurrent.out (tokenValue t) (tokenCount t) with
  | none => rleAbort s
  | some out => .next (s.setRle (some { s.rleCurrent with out := out }))

/-- The end of `RleExpand` and of R153: the length must be the declared one, then the output is
written and `RES0` takes the number of bytes. -/
def rleFinish (r : RleRun) (s : State) : Answer :=
  if r.out.length ≠ s.x.dlen.toNat then rleAbort s
  else if ¬ s.dstInMem then .fault (.noSuchAddress (s.x.dst.toNat + s.x.dlen.toNat - 1))
  else .next (((s.setMem (s.mem.writeList s.x.dst.toNat r.out)).setRes0 s.x.dlen).setRle none)

/-- Token `b` (R100): emits the byte b. -/
def execRleLit (b : Byte) (s : State) : Answer := execToken (.lit b) s

/-- Token `0x90 0x00` (R100): emits one byte 0x90. -/
def execRleEsc90 (s : State) : Answer := execToken .esc90 s

/-- Token `0x90 c v` (R100): emits c copies of v. -/
def execRleRun8 (c v : Byte) (s : State) : Answer := execToken (.run8 c v) s

/-- Token `0x90 0xFF v hi lo` (R100): emits 256 * hi + lo copies of v. -/
def execRleRun16 (v hi lo : Byte) (s : State) : Answer := execToken (.run16 v hi lo) s

end Sys2Proof.Machine
end

