-- ==== Sys2Proof/Machine/Dms.lean ====
section
/-!
DEFINITION. The DMS track unpacker (spec/43_dms_track.md): `DMS.OPEN`, `DMS.TRACK`, `DMS.UNPACK`.
-/

namespace Sys2Proof.Machine

/-- The fields of the record at offset `o` whose payload starts at `pay` and ends before `next`
(R168). All 16-bit fields are big-endian. -/
def trackAt (B : Nat → Byte) (o pay next : Nat) : Track :=
  { valid := true
    num   := sext16 (BitVec.ofNat 16 (be16 B (o + 2)))
    pklen := BitVec.ofNat 16 (be16 B (o + 6))
    ulenA := BitVec.ofNat 16 (be16 B (o + 8))
    ulenB := BitVec.ofNat 16 (be16 B (o + 10))
    flags := B (o + 12)
    mode  := B (o + 13)
    usum  := BitVec.ofNat 16 (be16 B (o + 14))
    dcrc  := BitVec.ofNat 16 (be16 B (o + 16))
    hcrc  := BitVec.ofNat 16 (be16 B (o + 18))
    pay   := BitVec.ofNat 32 pay
    next  := BitVec.ofNat 32 next }

/-- `ParseTrack(B, o)` over a buffer of `len` bytes (R169); `off` is `TRK_PAYLOAD_OFF`. `none` is the
quiet stop: end of buffer, or first mismatch. -/
def parseTrack (B : Nat → Byte) (len off o : Nat) : Except Cause (Option Track) :=
  if len < o + 2 then .ok none
  else if B o ≠ 0x54#8 ∨ B (o + 1) ≠ 0x52#8 then .ok none
  else if len < o + off then .error .structural
  else if len < o + off + be16 B (o + 6) then .error .structural
  else .ok (some (trackAt B o (o + off) (o + off + be16 B (o + 6))))

/-- The record at `x[4]` of the source window (R170, R172). -/
def State.trackHere (s : State) : Except Cause (Option Track) :=
  parseTrack s.srcByte s.x.slen.toNat s.cfg.payloadOff s.x.aux.toNat

/-- `unpack(verify = false)` (R171): mode 0 stored, mode 1 RLE, any other mode unsupported. -/
def unpackPlain (t : Track) (payload : List Byte) : Except Cause (List Byte) :=
  if t.mode = 0#8 then .ok payload
  else if t.mode = 1#8 then
    match rleExpand payload t.ulenB.toNat with
    | none => .error .structural
    | some out => .ok out
  else .error .unsupported

/-- `Unpack(t, verify)` (R171): under verify the payload CRC first, then the unpacking, then the
additive checksum of the result (R175). -/
def unpack (t : Track) (payload : List Byte) (verify : Bool) : Except Cause (List Byte) :=
  if verify then
    if crc16 payload Config.crcInit ≠ t.dcrc then
      .error (.integrity ((crc16 payload Config.crcInit).setWidth 32) (t.dcrc.setWidth 32))
    else
      match unpackPlain t payload with
      | .error e => .error e
      | .ok out =>
        if sum16 out 0#16 ≠ t.usum then
          .error (.integrity ((sum16 out 0#16).setWidth 32) (t.usum.setWidth 32))
        else .ok out
  else unpackPlain t payload

/-- The output length if all goes well (R172). -/
def unpackLength (t : Track) : Nat :=
  if t.mode = 0#8 then t.pklen.toNat else if t.mode = 1#8 then t.ulenB.toNat else 0

/-- The payload slice of a parsed record (R171). -/
def State.payloadOf (s : State) (t : Track) : List Byte := s.srcBytes t.pay.toNat t.pklen.toNat

/-- The four bytes "DMS!" stand at the start of the source window (R101, R166). -/
abbrev State.dmsMagic (s : State) : Prop :=
  s.srcByte 0 = 0x44#8 ∧ s.srcByte 1 = 0x4D#8 ∧ s.srcByte 2 = 0x53#8 ∧ s.srcByte 3 = 0x21#8

/-- `DMS.OPEN` (R166). -/
def execDmsOpen (s : State) : Answer :=
  if ¬ s.srcInMem then raise s (faultWord .dmsOpen) .operand
  else if s.x.slen.toNat < Config.dmsMinLen then raise s (faultWord .dmsOpen) .structural
  else if ¬ s.dmsMagic then raise s (faultWord .dmsOpen) .structural
  else .next (s.setRes0 (BitVec.ofNat 32 Config.dmsFileHdr))

/-- `DMS.TRACK` (R170). -/
def execDmsTrack (s : State) : Answer :=
  if ¬ s.srcInMem then raise s (faultWord .dmsTrack) .operand
  else
    match s.trackHere with
    | .error c => raise s (faultWord .dmsTrack) c
    | .ok none => .next ((s.setTrk { s.trk with valid := false }).setRes0 0#32)
    | .ok (some t) => .next ((s.setTrk t).setRes012 1#32 t.next t.pay)

/-- `DMS.UNPACK` (R172), with the order of checks of R175. -/
def execDmsUnpack (verify : Bool) (s : State) : Answer :=
  if ¬ s.windowsOk then raise s (faultWord (.dmsUnpack verify)) .operand
  else
    match s.trackHere with
    | .error c => raiseInWindow s (faultWord (.dmsUnpack verify)) c
    | .ok none => raiseInWindow s (faultWord (.dmsUnpack verify)) .structural
    | .ok (some t) =>
      if s.x.dlen.toNat < unpackLength t then raise s (faultWord (.dmsUnpack verify)) .operand
      else
        match unpack t (s.payloadOf t) verify with
        | .error c => raiseInWindow s (faultWord (.dmsUnpack verify)) c
        | .ok out =>
          .next (((s.setMem (s.mem.writeList s.x.dst.toNat out)).setTrk t).setRes012
            (BitVec.ofNat 32 out.length) t.next t.pay)

end Sys2Proof.Machine
end

