-- ==== Sys2Proof/Machine/Lzh.lean ====
section
/-!
DEFINITION. The LZH entry pipeline (spec/44_lzh_entry.md): the entry parse at levels 0 to 3, the
extended-header chain, and `LZH.PARSE`, `LZH.EXT`, `LZH.CRC`. All offsets and lengths are exact (R196).
-/

namespace Sys2Proof.Machine

/-- What a walk of the extended-header chain returns and records (R198). -/
structure Chain where
  ext      : Nat
  cnt      : Nat
  firstOff : Nat
  firstFwd : Nat
  hcrc     : Option Nat
  name     : Option (Nat × Nat)
  dir      : Option (Nat × Nat)
deriving DecidableEq, Repr

/-- What the level-dependent part of the parse yields (R193 to R197, R203). -/
structure Header where
  hdr    : Nat
  packed : Nat
  ucrc   : Nat
  chain  : Chain
deriving DecidableEq, Repr

/-- No extended header and no name. -/
def Chain.empty : Chain :=
  { ext := 0, cnt := 0, firstOff := 0, firstFwd := 0, hcrc := none, name := none, dir := none }

/-- A length `F` is a block's: tag and forward field fit in it, and it ends inside the buffer (R198). -/
abbrev blockFits (len W p F : Nat) : Prop := 1 + W ≤ F ∧ p + F ≤ len

/-- The length of the block after the one of length `F` at `p` (R104, R198). -/
def nextForward (B : Nat → Byte) (W p F : Nat) : Nat := leField B W (p + F - W)

/-- What the block of length `F` at `p` adds to the chain (R198): the last occurrence of a tag wins. -/
def Chain.addBlock (B : Nat → Byte) (W : Nat) (names : Bool) (p F : Nat) (c : Chain) : Chain :=
  { c with
    ext  := c.ext + F
    cnt  := c.cnt + 1
    hcrc := if B p = 0#8 then some (le16 B (p + 1)) else c.hcrc
    name := if names ∧ B p = 1#8 then some (p + 1, F - 1 - W) else c.name
    dir  := if names ∧ B p = 2#8 then some (p + 1, F - 1 - W) else c.dir }

/-- The loop of `WalkExt` (R198), at most `fuel` blocks. Each block is at least 3 bytes long, so the
buffer's length is fuel enough. -/
def walkLoop (B : Nat → Byte) (len W : Nat) (names : Bool) : Nat → Nat → Nat → Chain → Except Cause Chain
  | 0, _, F, c => if F = 0 then .ok c else .error .structural
  | fuel + 1, p, F, c =>
    if F = 0 then .ok c
    else if ¬ blockFits len W p F then .error .structural
    else if B p = 0#8 ∧ F - 1 - W < 2 then .error .structural
    else walkLoop B len W names fuel (p + F) (nextForward B W p F) (c.addBlock B W names p F)

/-- `WalkExt(p, F, W, names)` (R198). -/
def walkExt (B : Nat → Byte) (len p F W : Nat) (names : Bool) : Except Cause Chain :=
  walkLoop B len W names len p F
    { Chain.empty with firstOff := if F = 0 then 0 else p, firstFwd := F }

/-- The stored packed size (R191, R199). -/
def storedSize (B : Nat → Byte) (e : Nat) : Nat := le32 B (e + Config.lzhPackedOff)

/-- `2 + header[0]`, the base header length at levels 0 and 1 (R193, R194). -/
def baseLength (B : Nat → Byte) (e : Nat) : Nat := 2 + (B e).toNat

/-- The name length byte at levels 0 and 1 (R193, R194). -/
def nameLength (B : Nat → Byte) (e : Nat) : Nat := (B (e + 21)).toNat

/-- Level 0 (R193). -/
def parseLevel0 (B : Nat → Byte) (len e : Nat) : Except Cause Header :=
  if baseLength B e < 24 then .error .structural
  else if len < e + baseLength B e then .error .structural
  else if baseLength B e < 22 + nameLength B e + 2 then .error .structural
  else .ok
    { hdr := baseLength B e
      packed := storedSize B e
      ucrc := le16 B (e + 22 + nameLength B e)
      chain := { Chain.empty with name := some (e + 22, nameLength B e) } }

/-- Level 1 (R194, R199). -/
def parseLevel1 (B : Nat → Byte) (len e : Nat) : Except Cause Header :=
  if baseLength B e < 26 then .error .structural
  else if len < e + baseLength B e then .error .structural
  else if baseLength B e < 22 + nameLength B e + 4 then .error .structural
  else
    match walkExt B len (e + baseLength B e) (le16 B (e + baseLength B e - 2)) 2 false with
    | .error c => .error c
    | .ok ch =>
      if storedSize B e < ch.ext then .error .structural
      else .ok
        { hdr := baseLength B e + ch.ext
          packed := storedSize B e - ch.ext
          ucrc := le16 B (e + 22 + nameLength B e)
          chain := { ch with name := some (e + 22, nameLength B e) } }

/-- Level 2 (R195). -/
def parseLevel2 (B : Nat → Byte) (len e : Nat) : Except Cause Header :=
  if len < e + Config.lzhL2Fixed then .error .structural
  else if le16 B e < Config.lzhL2Fixed then .error .structural
  else if len < e + le16 B e then .error .structural
  else
    match walkExt B len (e + Config.lzhL2Fixed) (le16 B (e + 24)) 2 true with
    | .error c => .error c
    | .ok ch =>
      if le16 B e < Config.lzhL2Fixed + ch.ext then .error .structural
      else .ok { hdr := le16 B e, packed := storedSize B e, ucrc := le16 B (e + 21), chain := ch }

/-- Level 3 (R197); `X` is `LZH_L3_FIXED`. -/
def parseLevel3 (B : Nat → Byte) (len X e : Nat) : Except Cause Header :=
  if len < e + X then .error .structural
  else
    match walkExt B len (e + X) (le32 B (e + X - 4)) 4 true with
    | .error c => .error c
    | .ok ch => .ok { hdr := X + ch.ext, packed := storedSize B e, ucrc := le16 B (e + 21), chain := ch }

/-- Level dispatch (R192): a level byte above 3 is StructuralError. -/
def parseHeader (B : Nat → Byte) (len X e : Nat) : Except Cause Header :=
  if len < e + Config.lzhLevelOff + 1 then .error .structural
  else
    match (B (e + Config.lzhLevelOff)).toNat with
    | 0 => parseLevel0 B len e
    | 1 => parseLevel1 B len e
    | 2 => parseLevel2 B len e
    | 3 => parseLevel3 B len X e
    | _ => .error .structural

/-- The registers that latch a parsed header (R32, R204) of the entry at `e` with level byte `level`. -/
def entryOf (e : Nat) (level : Byte) (h : Header) : Entry :=
  { valid    := true
    level    := level.setWidth 2
    hdrlen   := BitVec.ofNat 32 h.hdr
    packed   := BitVec.ofNat 32 h.packed
    pay      := BitVec.ofNat 32 (e + h.hdr)
    last     := BitVec.ofNat 32 (e + h.hdr + h.packed)
    ucrc     := BitVec.ofNat 16 h.ucrc
    hcrc     := BitVec.ofNat 16 (h.chain.hcrc.getD 0)
    flags    := lzhFlags h.chain.dir.isSome h.chain.name.isSome h.chain.hcrc.isSome
    nameOff  := BitVec.ofNat 32 (h.chain.name.getD (0, 0)).1
    nameLen  := BitVec.ofNat 32 (h.chain.name.getD (0, 0)).2
    dirOff   := BitVec.ofNat 32 (h.chain.dir.getD (0, 0)).1
    dirLen   := BitVec.ofNat 32 (h.chain.dir.getD (0, 0)).2
    extCnt   := BitVec.ofNat 32 h.chain.cnt
    extBytes := BitVec.ofNat 32 h.chain.ext
    ext0     := BitVec.ofNat 32 h.chain.firstOff
    fwd0     := BitVec.ofNat 32 h.chain.firstFwd }

/-- `ParseEntry(B, e)` (R203): the payload must end inside the buffer (R200). -/
def parseEntry (B : Nat → Byte) (len X e : Nat) : Except Cause Entry :=
  match parseHeader B len X e with
  | .error c => .error c
  | .ok h =>
    if len < e + h.hdr + h.packed then .error .structural
    else .ok (entryOf e (B (e + Config.lzhLevelOff)) h)

/-- The entry at `x[4]` of the source window (R204). -/
def State.entryHere (s : State) : Except Cause Entry :=
  parseEntry s.srcByte s.x.slen.toNat s.cfg.l3Fixed s.x.aux.toNat

/-- The forward-length width of the latched entry (R205). -/
def State.extWidth (s : State) : Nat := if s.lzh.level = 3#2 then 4 else 2

/-- Element `k` of a chain whose next block is at `p` with length `F` (R205): its tag, data offset and
data length, or StructuralError when the chain no longer walks. -/
def extElement (B : Nat → Byte) (len W : Nat) : Nat → Nat → Nat → Except Cause (Word × Word × Word)
  | k, p, F =>
    if ¬ blockFits len W p F then .error .structural
    else
      match k with
      | 0 => .ok ((B p).setWidth 32, BitVec.ofNat 32 (p + 1), BitVec.ofNat 32 (F - 1 - W))
      | k + 1 => extElement B len W k (p + F) (nextForward B W p F)

/-- The payload slice of the latched entry, as it stands in the source window now (R206, R36). -/
def State.lzhPayload (s : State) : List Byte := s.srcBytes s.lzh.pay.toNat s.lzh.packed.toNat

/-- `LZH.PARSE` (R204). -/
def execLzhParse (s : State) : Answer :=
  if ¬ s.srcInMem then raise s (faultWord .lzhParse) .operand
  else
    match s.entryHere with
    | .error c => raise s (faultWord .lzhParse) c
    | .ok r => .next ((s.setLzh r).setRes012 r.last r.pay r.packed)

/-- `LZH.EXT` (R205): an index past the chain is an explicit absent result, no fault. -/
def execLzhExt (s : State) : Answer :=
  if s.lzh.valid = false then raise s (faultWord .lzhExt) .operand
  else if ¬ s.srcInMem then raise s (faultWord .lzhExt) .operand
  else if s.lzh.extCnt.toNat ≤ s.x.aux.toNat then .next (s.setRes012 0xFFFFFFFF#32 0#32 0#32)
  else
    match extElement s.srcByte s.x.slen.toNat s.extWidth s.x.aux.toNat s.lzh.ext0.toNat s.lzh.fwd0.toNat with
    | .error c => raise s (faultWord .lzhExt) c
    | .ok (tag, off, len) => .next (s.setRes012 tag off len)

/-- `LZH.CRC` (R206). -/
def execLzhCrc (s : State) : Answer :=
  if s.lzh.valid = false then raise s (faultWord .lzhCrc) .operand
  else if ¬ s.srcInMem then raise s (faultWord .lzhCrc) .operand
  else if s.x.slen.toNat < s.lzh.pay.toNat + s.lzh.packed.toNat then raise s (faultWord .lzhCrc) .structural
  else if crc16 s.lzhPayload Config.crcInit ≠ s.lzh.ucrc then
    raise s (faultWord .lzhCrc)
      (.integrity ((crc16 s.lzhPayload Config.crcInit).setWidth 32) (s.lzh.ucrc.setWidth 32))
  else .next (s.setRes0 ((crc16 s.lzhPayload Config.crcInit).setWidth 32))

end Sys2Proof.Machine
end

