-- ==== Sys2Proof/Machine/Dispatch.lean ====
section
/-!
DEFINITION. One arm per instruction: the meaning of each command (spec/30_encoding.md R84) and of each
RLE token (R100).
-/

namespace Sys2Proof.Machine

def exec (i : Instr) (s : State) : Host.Outcome State Fault Refusal :=
  match i with
  | .brBind order => Sys2Proof.Machine.execBrBind order s
  | .brRdu n => Sys2Proof.Machine.execBrRdu n s
  | .brRds n => Sys2Proof.Machine.execBrRds n s
  | .crcInit => Sys2Proof.Machine.execCrcInit s
  | .crcUpd => Sys2Proof.Machine.execCrcUpd s
  | .crcRun => Sys2Proof.Machine.execCrcRun s
  | .sumInit => Sys2Proof.Machine.execSumInit s
  | .sumUpd => Sys2Proof.Machine.execSumUpd s
  | .sumRun => Sys2Proof.Machine.execSumRun s
  | .sum32Chk => Sys2Proof.Machine.execSum32Chk s
  | .rleExpand => Sys2Proof.Machine.execRleExpand s
  | .dmsOpen => Sys2Proof.Machine.execDmsOpen s
  | .dmsTrack => Sys2Proof.Machine.execDmsTrack s
  | .dmsUnpack verify => Sys2Proof.Machine.execDmsUnpack verify s
  | .lzhParse => Sys2Proof.Machine.execLzhParse s
  | .lzhExt => Sys2Proof.Machine.execLzhExt s
  | .lzhCrc => Sys2Proof.Machine.execLzhCrc s
  | .errClr => Sys2Proof.Machine.execErrClr s
  | .rleLit b => Sys2Proof.Machine.execRleLit b s
  | .rleEsc90 => Sys2Proof.Machine.execRleEsc90 s
  | .rleRun8 c v => Sys2Proof.Machine.execRleRun8 c v s
  | .rleRun16 v hi lo => Sys2Proof.Machine.execRleRun16 v hi lo s

end Sys2Proof.Machine
end

