-- ==== Sys2Proof/Machine/HostPort.lean ====
section
/-!
DEFINITION. What the host does to the block in one step (spec/45_control.md R221 to R223,
spec/20_memory.md R72, spec/70_reset_and_hazards.md R260), the expansion token by token (log entry 5),
and the pseudo-instructions of spec/30_encoding.md R89.
-/

namespace Sys2Proof.Machine

/-- `Issue(w)` (R223): a halted block drops every word but `ERR.CLR` (R242); an illegal word raises
IllegalCommand (R235); any other word executes by its rule. -/
def issue (w : Word) (s : State) : Answer :=
  match decodeWord w with
  | .ok i => if s.halted ∧ i ≠ .errClr then .next s else exec i s
  | .error _ => if s.halted then .next s else raise s w .illegal

/-- The number of `CMD` in the register map (R23). -/
def cmdNum : BitVec 6 := 8#6

/-- One action of the host. An access to `MEM` at an address that memory does not have stops the machine. -/
def hostAct (a : HostAction) (s : State) : Answer :=
  match a with
  | .regRead num => .next (s.pushReply (.reg (regRead s num)))
  | .regWrite num v => if num = cmdNum then issue v s else .next (regWrite s num v)
  | .memRead addr =>
    if s.cfg.memBytes ≤ addr.toNat then .fault (.noSuchAddress addr.toNat)
    else .next (s.pushReply (.byte (s.mem.read addr.toNat)))
  | .memWrite addr b =>
    if s.cfg.memBytes ≤ addr.toNat then .fault (.noSuchAddress addr.toNat)
    else .next (s.setMem (s.mem.write addr.toNat b))
  | .reset => .next s.blockReset

/-- One pass of the loop of spec/42_rle.md R152: the end of the input finishes the expansion, a token
cut short ends it in StructuralError, and a whole token is executed. -/
def rleStep (r : RleRun) (s : State) : Answer :=
  match r.input with
  | [] => rleFinish r s
  | b :: rest =>
    match decodeToken (b :: rest) with
    | .error _ => rleAbort s
    | .ok (t, after) => exec t.toInstr (s.setRle (some { r with input := after }))

/-- The host's next action, if it has one: without one the block does nothing
(spec/70_reset_and_hazards.md R262). -/
def scriptStep (s : State) : Answer :=
  match s.script with
  | [] => .next s
  | a :: rest => hostAct a (s.setScript rest)

/-! ### Pseudo-instructions (R89): fixed expansions into host actions -/

/-- `SET` of a register, and a `CMD` write of an instruction's word (spec/30_encoding.md R88). -/
def setReg (num : BitVec 6) (v : Word) : HostAction := .regWrite num v
def command (i : Instr) : HostAction := .regWrite cmdNum (faultWord i)

/-- `SET SRC, a; SET SLEN, n`. -/
def setSource (a n : Word) : List HostAction := [setReg 0#6 a, setReg 1#6 n]

/-- `crc16 a, n`. -/
def pseudoCrc16 (a n : Word) : List HostAction := setSource a n ++ [command .crcRun]

/-- `sum16 a, n`. -/
def pseudoSum16 (a n : Word) : List HostAction := setSource a n ++ [command .sumRun]

/-- `bind.m a, n` and `bind.l a, n`. -/
def pseudoBind (order : BitOrder) (a n : Word) : List HostAction := setSource a n ++ [command (.brBind order)]

/-- `rle a, n, d, m`. -/
def pseudoRle (a n d m : Word) : List HostAction :=
  setSource a n ++ [setReg 2#6 d, setReg 3#6 m, command .rleExpand]

/-- `track o`. -/
def pseudoTrack (o : Word) : List HostAction := [setReg 4#6 o, command .dmsTrack]

/-- `entry o`. -/
def pseudoEntry (o : Word) : List HostAction := [setReg 4#6 o, command .lzhParse]

end Sys2Proof.Machine
end

