-- ==== Sys2Proof/Machine/Step.lean ====
section
/-!
DEFINITION. One step of the machine: one host action (spec/10_state.md R20), or, in a state that holds
a running expansion, one token of it (log entry 5).
-/

namespace Sys2Proof.Machine

/-- One step. A step of a state that a run from reset reaches is one host action, or nothing when the
host has none waiting. -/
def step (s : State) : Host.Outcome State Fault Refusal :=
  match s.rle with
  | some r => rleStep r s
  | none => scriptStep s

/-- The state in which the instruction with the table's bits `w` is the next one to run: a command is
the host's next `CMD` write, a token is the whole input of a running expansion (log entry 7). -/
def State.withFetchWord (s : State) (nbits w : Nat) : State :=
  if nbits = 32 then
    { s with rle := none, script := .regWrite cmdNum (BitVec.ofNat 32 w) :: s.script }
  else
    match tableToken nbits w with
    | some t => { s with rle := some { input := t.bytes, out := s.rleCurrent.out } }
    | none => { s with rle := some { input := tableTokenBytes nbits w, out := s.rleCurrent.out } }

end Sys2Proof.Machine
end

