-- ==== Sys2Proof/Safety.lean ====
section
/-!
DEFINITION. What claims about the block are stated in: the invariants of a state, who may write which
register (the "Written by the block" columns of spec/10_state.md R21, R23), and the layout of an
extended-header chain as data (spec/30_encoding.md R104).
-/

namespace Sys2Proof

/-- A command word of R84, as opposed to a token of R100. -/
def Instr.isCommand : Instr → Bool
  | .rleLit _ | .rleEsc90 | .rleRun8 _ _ | .rleRun16 _ _ _ => false
  | .brBind _ | .brRdu _ | .brRds _ | .crcInit | .crcUpd | .crcRun | .sumInit | .sumUpd | .sumRun
  | .sum32Chk | .rleExpand | .dmsOpen | .dmsTrack | .dmsUnpack _ | .lzhParse | .lzhExt | .lzhCrc
  | .errClr => true

/-- `w` is the word of the N-format command `i` (R81, R84), and every other word with its opcode, which
has a bit of the upper three bytes set, is no command (R85). -/
def Instr.HasOnlyWord (i : Instr) (w : Word) : Prop :=
  encode i = .command w ∧ decodeWord w = .ok i ∧
    ∀ v : Word, v.toNat % 256 = w.toNat % 256 → v ≠ w → ∃ e, decodeWord v = .error e

/-- The instruction may write bytes of the destination window (R61). -/
def Instr.writesWindow : Instr → Bool
  | .rleExpand | .dmsUnpack _ | .rleLit _ | .rleEsc90 | .rleRun8 _ _ | .rleRun16 _ _ _ => true
  | .brBind _ | .brRdu _ | .brRds _ | .crcInit | .crcUpd | .crcRun | .sumInit | .sumUpd | .sumRun
  | .sum32Chk | .dmsOpen | .dmsTrack | .lzhParse | .lzhExt | .lzhCrc | .errClr => false

/-- The instruction may write `RES0` (R22). -/
def Instr.writesRes0 : Instr → Bool
  | .brRdu _ | .brRds _ | .crcUpd | .crcRun | .sumUpd | .sumRun | .sum32Chk | .rleExpand | .dmsOpen
  | .dmsTrack | .dmsUnpack _ | .lzhParse | .lzhExt | .lzhCrc => true
  | .brBind _ | .crcInit | .sumInit | .errClr | .rleLit _ | .rleEsc90 | .rleRun8 _ _ | .rleRun16 _ _ _ => false

/-- The instruction may write `RES1` (R22). -/
def Instr.writesRes1 : Instr → Bool
  | .sum32Chk | .dmsTrack | .dmsUnpack _ | .lzhParse | .lzhExt => true
  | .brBind _ | .brRdu _ | .brRds _ | .crcInit | .crcUpd | .crcRun | .sumInit | .sumUpd | .sumRun
  | .rleExpand | .dmsOpen | .lzhCrc | .errClr | .rleLit _ | .rleEsc90 | .rleRun8 _ _ | .rleRun16 _ _ _ => false

/-- The instruction may write `RES2` (R22). -/
def Instr.writesRes2 : Instr → Bool
  | .dmsTrack | .dmsUnpack _ | .lzhParse | .lzhExt => true
  | .brBind _ | .brRdu _ | .brRds _ | .crcInit | .crcUpd | .crcRun | .sumInit | .sumUpd | .sumRun
  | .sum32Chk | .rleExpand | .dmsOpen | .lzhCrc | .errClr | .rleLit _ | .rleEsc90 | .rleRun8 _ _
  | .rleRun16 _ _ _ => false

end Sys2Proof

namespace Sys2Proof.Machine

/-- Memory is in its canonical form and lists no address that the memory does not have (R60). -/
def State.MemInv (s : State) : Prop := Memory.wf s.mem ∧ ∀ c ∈ s.mem, c.1 < s.cfg.memBytes

/-- The bound buffer lies in memory and the cursor inside the buffer (spec/40_bit_reader.md R113, R118). -/
def State.ReaderInv (s : State) : Prop :=
  s.br.base.toNat + s.br.len.toNat ≤ s.cfg.memBytes ∧ s.br.pos.toNat ≤ 8 * s.br.len.toNat

/-- The fault latch (spec/10_state.md R27, spec/60_exceptions.md R231): codes 7 to 15 are never latched,
`ERR_GOT` and `ERR_EXP` are 0 but for an IntegrityError, and with no fault all four are 0. -/
def State.LatchInv (s : State) : Prop :=
  s.err.code.toNat ≤ 6 ∧ (s.err.code ≠ 2#4 → s.err.got = 0#32 ∧ s.err.exp = 0#32) ∧
    (s.err.code = 0#4 → s.err.cmd = 0#32)

/-- The latched track record (R31): a sign-extended 16-bit number, and the next offset right after the payload. -/
def State.TrackInv (s : State) : Prop :=
  s.trk.num = sext16 (s.trk.num.setWidth 16) ∧ s.trk.next.toNat = s.trk.pay.toNat + s.trk.pklen.toNat

/-- The latched entry (R32; spec/44_lzh_entry.md R200, R209): `LZH_END` = `LZH_PAY` + `LZH_PACKED`, the
extended headers are part of the header, absent items read 0, and level 0 has no chain. -/
structure State.EntryInv (s : State) : Prop where
  ends      : s.lzh.last.toNat = s.lzh.pay.toNat + s.lzh.packed.toNat
  header    : s.lzh.extBytes.toNat ≤ s.lzh.hdrlen.toNat ∧ s.lzh.hdrlen.toNat ≤ s.lzh.pay.toNat
  longest   : s.lzh.valid = true → 24 ≤ s.lzh.hdrlen.toNat
  unlatched : s.lzh.valid = false → s.lzh = Entry.zero
  noHcrc    : s.lzh.flags.getLsbD 0 = false → s.lzh.hcrc = 0#16
  noName    : s.lzh.flags.getLsbD 1 = false → s.lzh.nameOff = 0#32 ∧ s.lzh.nameLen = 0#32
  noDir     : s.lzh.flags.getLsbD 2 = false → s.lzh.dirOff = 0#32 ∧ s.lzh.dirLen = 0#32
  noChain   : s.lzh.extCnt = 0#32 → s.lzh.ext0 = 0#32 ∧ s.lzh.fwd0 = 0#32 ∧ s.lzh.extBytes = 0#32
  blocks    : 3 * s.lzh.extCnt.toNat ≤ s.lzh.extBytes.toNat
  level0    : s.lzh.level = 0#2 → s.lzh.extCnt = 0#32

/-- The invariant of the machine: it holds at reset and every step keeps it. -/
structure State.Inv (s : State) : Prop where
  memory : s.MemInv
  reader : s.ReaderInv
  latch  : s.LatchInv
  track  : s.TrackInv
  entry  : s.EntryInv

/-- No expansion is running: the decompressor has no state of its own between commands
(spec/42_rle.md R150). Every state that a run from reset reaches is quiet. -/
abbrev State.Quiet (s : State) : Prop := s.rle = none

/-- What the instruction `i` leaves unchanged of the registers when it takes `s` to `t`, by the "Written
by the block" columns of R21 to R23: `x[0]` to `x[4]` always, every other register unless `i` is one of
its writers. -/
structure RegistersKept (i : Instr) (s t : State) : Prop where
  operands : t.x.src = s.x.src ∧ t.x.slen = s.x.slen ∧ t.x.dst = s.x.dst ∧ t.x.dlen = s.x.dlen ∧ t.x.aux = s.x.aux
  res0     : i.writesRes0 = false → t.x.res0 = s.x.res0
  res1     : i.writesRes1 = false → t.x.res1 = s.x.res1
  res2     : i.writesRes2 = false → t.x.res2 = s.x.res2
  binding  : (∀ o, i ≠ .brBind o) → t.br.base = s.br.base ∧ t.br.len = s.br.len ∧ t.br.mode = s.br.mode
  cursor   : (∀ o, i ≠ .brBind o) → (∀ n, i ≠ .brRdu n) → (∀ n, i ≠ .brRds n) → t.br.pos = s.br.pos
  crc      : i ≠ .crcInit → i ≠ .crcUpd → i ≠ .crcRun → t.crc = s.crc
  sum      : i ≠ .sumInit → i ≠ .sumUpd → i ≠ .sumRun → t.sum = s.sum
  track    : i ≠ .dmsTrack → (∀ v, i ≠ .dmsUnpack v) → t.trk = s.trk
  entry    : i ≠ .lzhParse → t.lzh = s.lzh

/-- The numbers that the registers `LZH_*` other than `LZH_VALID` hold (R32). -/
structure EntryValues where
  level    : Nat
  hdrlen   : Nat
  packed   : Nat
  pay      : Nat
  last     : Nat
  ucrc     : Nat
  hcrc     : Nat
  flags    : Nat
  nameOff  : Nat
  nameLen  : Nat
  dirOff   : Nat
  dirLen   : Nat
  extCnt   : Nat
  extBytes : Nat
  ext0     : Nat
  fwd0     : Nat
deriving DecidableEq, Repr

/-- The registers read as numbers. -/
def Entry.values (r : Entry) : EntryValues :=
  { level := r.level.toNat, hdrlen := r.hdrlen.toNat, packed := r.packed.toNat, pay := r.pay.toNat,
    last := r.last.toNat, ucrc := r.ucrc.toNat, hcrc := r.hcrc.toNat, flags := r.flags.toNat,
    nameOff := r.nameOff.toNat, nameLen := r.nameLen.toNat, dirOff := r.dirOff.toNat,
    dirLen := r.dirLen.toNat, extCnt := r.extCnt.toNat, extBytes := r.extBytes.toNat,
    ext0 := r.ext0.toNat, fwd0 := r.fwd0.toNat }

/-- An extended header as data (R104): its tag and its raw bytes. -/
structure ExtBlock where
  tag  : Byte
  data : List Byte
deriving DecidableEq, Repr

/-- The total length of a block whose forward-length field has `W` bytes (R104). -/
def ExtBlock.size (W : Nat) (b : ExtBlock) : Nat := 1 + b.data.length + W

/-- The total length of a chain (R198). -/
def chainSize (W : Nat) (bs : List ExtBlock) : Nat := (bs.map (ExtBlock.size W)).sum

/-- The blocks `bs` lie in the buffer `B` from offset `p` on, the first announced by the forward length
`F`, each announcing the next, the last announcing 0 (R104). -/
def ChainAt (B : Nat → Byte) (W : Nat) : Nat → Nat → List ExtBlock → Prop
  | _, F, [] => F = 0
  | p, F, b :: bs =>
    F = b.size W ∧ B p = b.tag ∧ (∀ j (h : j < b.data.length), B (p + 1 + j) = b.data[j]) ∧
      ChainAt B W (p + F) (nextForward B W p F) bs

/-- Where the block number `k` of a chain stands and which length is announced for it, when the first
block is at `p` with length `F` and each forward-length field is followed, whatever it holds (R198, R205). -/
def chainBlock (B : Nat → Byte) (W : Nat) : Nat → Nat → Nat → Nat × Nat
  | p, F, 0 => (p, F)
  | p, F, k + 1 => chainBlock B W (p + F) (nextForward B W p F) k

/-- Following the chain from `p` with length `F` in a buffer of `len` bytes comes, before any length of
0, to a block that R198 rejects: one too short for its tag and forward field, one that runs past the
buffer, or one of tag 0 with fewer than two bytes of data. -/
def ChainBroken (B : Nat → Byte) (len W p F : Nat) : Prop :=
  ∃ j : Nat, (∀ i, i ≤ j → (chainBlock B W p F i).2 ≠ 0) ∧
    ((chainBlock B W p F j).2 < 1 + W ∨ len < (chainBlock B W p F j).1 + (chainBlock B W p F j).2 ∨
      (B (chainBlock B W p F j).1 = 0#8 ∧ (chainBlock B W p F j).2 < 1 + W + 2))

/-- The offset of the last block with tag `tag` in a chain laid out from `p`, with its number of data
bytes: the slice that is recorded for the tag (R198). -/
def lastSlice (W : Nat) (tag : Byte) : Nat → List ExtBlock → Option (Nat × Nat)
  | _, [] => none
  | p, b :: bs =>
    match lastSlice W tag (p + b.size W) bs with
    | some r => some r
    | none => if b.tag = tag then some (p + 1, b.data.length) else none

end Sys2Proof.Machine
end

