-- ==== Sys2Proof/Certificates/Slice0/Obligations.lean ====
section
/-!
DEFINITION. The statements about the model, for the provers.
-/

open Sys2Proof Sys2Proof.Machine

/-! ## Encoding (spec/30_encoding.md) -/

/-- R80 to R84, R100: no bit of an encoding is dropped. -/
def Obligations.DecodeOfEncodeIsTheInstruction : Prop :=
  ∀ i : Instr, i.wf = true → decode (encode i) = .ok i

/-- R84 to R87: a command word has one meaning, and that meaning's word is the word. -/
def Obligations.DecodedWordIsTheEncodingOfItsCommand : Prop :=
  ∀ (w : Word) (i : Instr), decodeWord w = .ok i → i.wf = true ∧ encode i = .command w

/-- R85: which words are illegal, and what an illegal word does to a block that is not halted. -/
def Obligations.IllegalWordsRaiseIllegalCommand : Prop :=
  ∀ w : Word,
    ((∃ e, decodeWord w = .error e) ↔
      (w.toNat % 256 ∉ [0x10, 0x11, 0x12, 0x20, 0x21, 0x22, 0x30, 0x31, 0x32, 0x33, 0x40, 0x50, 0x51, 0x52,
          0x60, 0x61, 0x62, 0x70] ∨
        w.toNat / 65536 ≠ 0 ∨
        (w.toNat % 256 ∉ [0x10, 0x11, 0x12, 0x52] ∧ w.toNat / 256 % 256 ≠ 0) ∨
        (w.toNat % 256 ∈ [0x10, 0x52] ∧ 1 < w.toNat / 256 % 256) ∨
        (w.toNat % 256 ∈ [0x11, 0x12] ∧ 32 < w.toNat / 256 % 256))) ∧
    ((∃ e, decodeWord w = .error e) → ∀ s : State, s.err.code = 0#4 →
      issue w s = .next { s with err := { code := 4#4, cmd := w, got := 0#32, exp := 0#32 } })

/-- R84, R100: words and token bytes written out from the spec decode to what they stand for. -/
def Obligations.WrittenOutWordsDecode : Prop :=
  decodeWord 0x00000511#32 = .ok (.brRdu 5#8) ∧ decodeWord 0x00000110#32 = .ok (.brBind .lsbFirst) ∧
    decodeWord 0x00000022#32 = .ok .crcRun ∧ decodeWord 0x00000033#32 = .ok .sum32Chk ∧
    decodeWord 0x00000040#32 = .ok .rleExpand ∧ decodeWord 0x00000152#32 = .ok (.dmsUnpack true) ∧
    decodeWord 0x00000061#32 = .ok .lzhExt ∧ decodeWord 0x00000070#32 = .ok .errClr ∧
    decodeToken [0x90#8, 0x03#8, 0x41#8, 0x44#8] = .ok (.run8 0x03#8 0x41#8, [0x44#8]) ∧
    decodeToken [0x90#8, 0xFF#8, 0x41#8, 0x01#8, 0x2C#8] = .ok (.run16 0x41#8 0x01#8 0x2C#8, [])

/-- R100: the tokens of a stream are told apart by their bytes, and a token's bytes are its own. -/
def Obligations.TokenDecodesFromItsBytesOnly : Prop :=
  (∀ (t : RleToken) (rest : List Byte), t.wf = true → decodeToken (t.bytes ++ rest) = .ok (t, rest)) ∧
    (∀ (bs rest : List Byte) (t : RleToken), decodeToken bs = .ok (t, rest) → t.wf = true ∧ bs = t.bytes ++ rest)

/-! ## A step (spec/45_control.md, spec/60_exceptions.md, spec/70_reset_and_hazards.md) -/

/-- R223: the host's `CMD` write of a word runs the command it decodes to (the script of host actions is
the model's own field, log entry 7). -/
def Obligations.StepRunsTheIssuedCommand : Prop :=
  ∀ (s : State) (w : Word) (rest : List HostAction) (i : Instr), s.rle = none →
    s.script = .regWrite 8#6 w :: rest → s.err.code = 0#4 → decodeWord w = .ok i →
    step s = exec i { s with script := rest }

/-- R152: a running expansion runs the token that its next bytes are (log entry 5: the model's own
finer grain). -/
def Obligations.StepRunsTheNextToken : Prop :=
  ∀ (s : State) (r : RleRun) (t : RleToken) (rest : List Byte), s.rle = some r → t.wf = true →
    r.input = t.bytes ++ rest →
    step s = exec t.toInstr { s with rle := some { r with input := rest } }

/-- R242: a halted block drops every word but `ERR.CLR`; R220, R243: `ERR.CLR` clears the latch and
changes nothing else, halted or not. The script of host actions that the steps consume is the model's
choice, log entry 7. -/
def Obligations.HaltedBlockTakesOnlyErrClr : Prop :=
  (∀ (s : State) (w : Word) (rest : List HostAction), s.rle = none → s.script = .regWrite 8#6 w :: rest →
    s.err.code ≠ 0#4 → w ≠ 0x00000070#32 → step s = .next { s with script := rest }) ∧
  (∀ (s : State) (rest : List HostAction), s.rle = none → s.script = .regWrite 8#6 0x00000070#32 :: rest →
    step s = .next { s with script := rest, err := { code := 0#4, cmd := 0#32, got := 0#32, exp := 0#32 } }) ∧
  (∀ s : State, exec .errClr s = .next { s with err := { code := 0#4, cmd := 0#32, got := 0#32, exp := 0#32 } })

/-- R221: a `RegRead` gives the host the register's value and changes nothing; R23: the register map. The
script that the step consumes and the list of replies are the model's choice, log entry 7. -/
def Obligations.RegReadFollowsTheRegisterMap : Prop :=
  (∀ (s : State) (num : BitVec 6) (rest : List HostAction), s.rle = none → s.script = .regRead num :: rest →
    step s = .next { s with script := rest, replies := .reg (regRead s num) :: s.replies }) ∧
  (∀ s : State, (List.range 64).map (fun k => regRead s (BitVec.ofNat 6 k)) =
    [s.x.src, s.x.slen, s.x.dst, s.x.dlen, s.x.aux, s.x.res0, s.x.res1, s.x.res2, 0#32,
      s.err.code.setWidth 32, s.err.cmd, s.err.got, s.err.exp,
      s.br.base, s.br.len.setWidth 32, s.br.pos, (if s.br.mode = .lsbFirst then 1#32 else 0#32),
      s.crc.setWidth 32, s.sum.setWidth 32,
      (if s.trk.valid then 1#32 else 0#32), s.trk.num, s.trk.pklen.setWidth 32, s.trk.ulenA.setWidth 32,
      s.trk.ulenB.setWidth 32, s.trk.flags.setWidth 32, s.trk.mode.setWidth 32, s.trk.usum.setWidth 32,
      s.trk.dcrc.setWidth 32, s.trk.hcrc.setWidth 32, s.trk.pay, s.trk.next,
      (if s.lzh.valid then 1#32 else 0#32), s.lzh.level.setWidth 32, s.lzh.hdrlen, s.lzh.packed, s.lzh.pay,
      s.lzh.last, s.lzh.ucrc.setWidth 32, s.lzh.hcrc.setWidth 32, s.lzh.flags.setWidth 32, s.lzh.nameOff,
      s.lzh.nameLen, s.lzh.dirOff, s.lzh.dirLen, s.lzh.extCnt, s.lzh.extBytes, s.lzh.ext0, s.lzh.fwd0] ++
      List.replicate 16 0#32)

/-- R222: a `RegWrite` of a host-writable register stores the value, `CRC` and `SUM` its low 16 bits; a
write of any other register but `CMD` is ignored. The script that the step consumes is the model's
choice, log entry 7, and so are the parameters in `State`, log entry 1. -/
def Obligations.RegWriteReachesOnlyHostWritableRegisters : Prop :=
  ∀ (s : State) (num : BitVec 6) (v : Word) (rest : List HostAction), s.rle = none →
    s.script = .regWrite num v :: rest → num ≠ 8#6 →
    ∃ t : State, step s = .next t ∧
      (∀ k : BitVec 6, regRead t k =
        if k = num ∧ num.toNat < 8 then v
        else if k = num ∧ (num = 17#6 ∨ num = 18#6) then BitVec.ofNat 32 (v.toNat % 65536)
        else regRead s k) ∧
      t.mem = s.mem ∧ t.rle = none ∧ t.script = rest ∧ t.cfg = s.cfg

/-- R60, R72: the host's store of a byte is what its next read of that address gets, and every other
address reads as before. The script and the list of replies are the model's choice, log entry 7. -/
def Obligations.HostReadsBackTheByteItStored : Prop :=
  ∀ (s : State) (a c : Word) (b : Byte) (rest : List HostAction), s.rle = none →
    s.script = .memWrite a b :: .memRead c :: rest → a.toNat < s.cfg.memBytes → c.toNat < s.cfg.memBytes →
    ∃ t : State, Sys2Proof.core.run 2 s = .next t ∧
      t.replies = .byte (if c = a then b else s.mem.read c.toNat) :: s.replies ∧
      (∀ d : Nat, t.mem.read d = if d = a.toNat then b else s.mem.read d) ∧
      t = { s with mem := t.mem, script := rest, replies := t.replies }

/-- R260, R261, R37: the reset event leaves every register at 0 and every byte of memory as it was. That it
is an action of the script and keeps the rest of it and the parameters is the model's choice or
inference, log entries 1, 7 and 9. -/
def Obligations.ResetEventClearsRegistersAndKeepsMemory : Prop :=
  (∀ (s : State) (rest : List HostAction), s.rle = none → s.script = .reset :: rest →
    ∃ t : State, step s = .next t ∧ (∀ num : BitVec 6, regRead t num = 0#32) ∧ t.mem = s.mem ∧
      t.cfg = s.cfg ∧ t.script = rest ∧ t.rle = none) ∧
  (∀ num : BitVec 6, regRead State.reset num = 0#32) ∧ State.reset.mem = []

/-! ## The bit-stream reader (spec/40_bit_reader.md) -/

/-- R111: `BR.BIND` records the source window, rewinds, and sets the mode; both of its OperandFaults. -/
def Obligations.BindRecordsTheWindowAndRewinds : Prop :=
  ∀ (s : State) (o : BitOrder),
    (s.x.src.toNat + s.x.slen.toNat ≤ s.cfg.memBytes → s.x.slen.toNat ≤ 0x1FFFFFFF →
      ∃ len : BitVec 29, len.toNat = s.x.slen.toNat ∧
        exec (.brBind o) s = .next { s with br := { base := s.x.src, len := len, pos := 0#32, mode := o } }) ∧
    (s.cfg.memBytes < s.x.src.toNat + s.x.slen.toNat ∨ 0x1FFFFFFF < s.x.slen.toNat →
      exec (.brBind o) s = .next { s with err :=
        { code := 5#4, cmd := if o = .lsbFirst then 0x00000110#32 else 0x00000010#32, got := 0#32, exp := 0#32 } })

/-- R115, R116: a bit read that fits completes; `BR_POS` advances by `n` and `RES0` takes the unsigned
value of R114, or its two's-complement reading. The premise on `BR_BASE` is the invariant of R118. -/
def Obligations.BitReadsReturnTheFieldAndAdvance : Prop :=
  ∀ (s : State) (n : Byte), n.toNat ≤ 32 → s.br.pos.toNat + n.toNat ≤ 8 * s.br.len.toNat →
    s.br.base.toNat + s.br.len.toNat ≤ s.cfg.memBytes →
    (∃ p v : Word, p.toNat = s.br.pos.toNat + n.toNat ∧ v.toNat = s.readUnsigned n.toNat ∧
      exec (.brRdu n) s = .next { s with br := { s.br with pos := p }, x := { s.x with res0 := v } }) ∧
    (∃ p v : Word, p.toNat = s.br.pos.toNat + n.toNat ∧
      v.toInt = (if n ≠ 0#8 ∧ (s.readUnsigned n.toNat).testBit (n.toNat - 1)
        then (s.readUnsigned n.toNat : Int) - 2 ^ n.toNat
        else s.readUnsigned n.toNat) ∧
      exec (.brRds n) s = .next { s with br := { s.br with pos := p }, x := { s.x with res0 := v } })

/-- R113, R237: a read past the end raises BrOverrun, consumes nothing and returns nothing. -/
def Obligations.ReadPastTheEndRaisesBrOverrun : Prop :=
  ∀ (s : State) (n : Byte), n.toNat ≤ 32 → 8 * s.br.len.toNat < s.br.pos.toNat + n.toNat →
    exec (.brRdu n) s = .next { s with err :=
      { code := 6#4, cmd := BitVec.ofNat 32 (0x11 + 256 * n.toNat), got := 0#32, exp := 0#32 } } ∧
    exec (.brRds n) s = .next { s with err :=
      { code := 6#4, cmd := BitVec.ofNat 32 (0x12 + 256 * n.toNat), got := 0#32, exp := 0#32 } }

/-- R114: the value after one more bit, in each of the three assemblies, and its bound. -/
def Obligations.UnsignedValueIsAssembledBitByBit : Prop :=
  ∀ s : State, s.readUnsigned 0 = 0 ∧
    (∀ n : Nat, s.readUnsigned (n + 1) =
      if s.br.mode = .lsbFirst ∧ s.cfg.lsbAssembly = .lsbToLsb
      then s.readUnsigned n + (s.brBit (s.br.pos.toNat + n)).toNat * 2 ^ n
      else 2 * s.readUnsigned n + (s.brBit (s.br.pos.toNat + n)).toNat) ∧
    (∀ n : Nat, s.readUnsigned n < 2 ^ n)

/-- R112: which bit of which byte stands at an absolute offset. -/
def Obligations.BitsAreNumberedByTheMode : Prop :=
  ∀ (s : State) (p : Nat),
    (s.br.mode = .msbFirst → s.brBit p = (s.mem.read (s.br.base.toNat + p / 8)).getLsbD (7 - p % 8)) ∧
    (s.br.mode = .lsbFirst → s.brBit p = (s.mem.read (s.br.base.toNat + p / 8)).getLsbD (p % 8))

/-- The splitting law, which R119 marks "[derived: from rule R114]", as three runs of the machine. -/
def Obligations.SplitReadsGiveTheSameBits : Prop :=
  ∀ (s s1 s2 t : State) (n1 n2 n : Byte), n.toNat = n1.toNat + n2.toNat → n.toNat ≤ 32 →
    s.br.pos.toNat + n.toNat ≤ 8 * s.br.len.toNat →
    exec (.brRdu n1) s = .next s1 → exec (.brRdu n2) s1 = .next s2 → exec (.brRdu n) s = .next t →
    s2.br = t.br ∧
      t.x.res0.toNat =
        if s.br.mode = .lsbFirst ∧ s.cfg.lsbAssembly = .lsbToLsb
        then s1.x.res0.toNat + s2.x.res0.toNat * 2 ^ n1.toNat
        else s1.x.res0.toNat * 2 ^ n2.toNat + s2.x.res0.toNat

/-- R114, and R118, which the spec marks "[derived: from `10_state.md` rule R36 and `20_memory.md` rule
R62]": an aligned 8-bit read returns the byte that memory holds when the read executes, in
MSB-first mode and in LSB-first mode under `lsb_to_lsb`. -/
def Obligations.AlignedByteReadReturnsTheByteInMemory : Prop :=
  ∀ s : State, s.br.pos.toNat % 8 = 0 → s.br.pos.toNat + 8 ≤ 8 * s.br.len.toNat →
    s.br.base.toNat + s.br.len.toNat ≤ s.cfg.memBytes →
    (s.br.mode = .msbFirst ∨ s.cfg.lsbAssembly = .lsbToLsb) →
    ∃ t : State, exec (.brRdu 8#8) s = .next t ∧
      t.x.res0 = (s.mem.read (s.br.base.toNat + s.br.pos.toNat / 8)).setWidth 32

/-! ## CRC and checksums (spec/41_crc_checksum.md) -/

/-- R133, R137: `CRC.INIT` and `SUM.INIT` start from 0 and write nothing else; their words. -/
def Obligations.InitCommandsClearTheRunningValue : Prop :=
  Instr.crcInit.HasOnlyWord 0x00000020#32 ∧ Instr.sumInit.HasOnlyWord 0x00000030#32 ∧
    ∀ s : State, exec .crcInit s = .next { s with crc := 0#16 } ∧ exec .sumInit s = .next { s with sum := 0#16 }

/-- R134, R135: the CRC of the source window, from `CRC` or from 0, goes to `CRC` and `RES0`; a window
outside memory raises OperandFault and leaves `CRC`. -/
def Obligations.CrcCommandsFoldTheSourceWindow : Prop :=
  Instr.crcUpd.HasOnlyWord 0x00000021#32 ∧ Instr.crcRun.HasOnlyWord 0x00000022#32 ∧ ∀ s : State,
    (s.x.src.toNat + s.x.slen.toNat ≤ s.cfg.memBytes →
      exec .crcUpd s = .next { s with crc := crc16 s.window s.crc, x := { s.x with res0 := (crc16 s.window s.crc).setWidth 32 } } ∧
      exec .crcRun s = .next { s with crc := crc16 s.window 0#16, x := { s.x with res0 := (crc16 s.window 0#16).setWidth 32 } }) ∧
    (s.cfg.memBytes < s.x.src.toNat + s.x.slen.toNat →
      exec .crcUpd s = .next { s with err := { code := 5#4, cmd := 0x00000021#32, got := 0#32, exp := 0#32 } } ∧
      exec .crcRun s = .next { s with err := { code := 5#4, cmd := 0x00000022#32, got := 0#32, exp := 0#32 } })

/-- R131: one byte step, as the procedure on numbers. -/
def Obligations.CrcByteIsEightShiftsOfTheReflectedRegister : Prop :=
  ∀ (c : Half) (b : Byte), (crcByte c b).toNat =
    (fun r : Nat => if r % 2 = 1 then (r / 2) ^^^ 0xA001 else r / 2)^[8] (c.toNat ^^^ b.toNat)

/-- R131, R130 and conflict C1: the worked step, the check value from 0 and the value from 0xFFFF. -/
def Obligations.CrcReferenceValues : Prop :=
  crcByte 0#16 0x01#8 = 0xC0C1#16 ∧
    crc16 [0x31#8, 0x32#8, 0x33#8, 0x34#8, 0x35#8, 0x36#8, 0x37#8, 0x38#8, 0x39#8] 0#16 = 0xBB3D#16 ∧
    crc16 [0x31#8, 0x32#8, 0x33#8, 0x34#8, 0x35#8, 0x36#8, 0x37#8, 0x38#8, 0x39#8] 0xFFFF#16 = 0x4B37#16

/-- The definition by R132 as a fold, and the consequences that its sentence "Consequences [derived: from
rule R131]" draws: the empty list, concatenation, leading zero bytes, and linearity over XOR. -/
def Obligations.CrcConcatenatesAndIsLinear : Prop :=
  (∀ c : Half, crc16 [] c = c) ∧ (∀ (b : Byte) (c : Half), crc16 [b] c = crcByte c b) ∧
    (∀ (a b : List Byte) (c : Half), crc16 (a ++ b) c = crc16 b (crc16 a c)) ∧
    (∀ (k : Nat) (a : List Byte), crc16 (List.replicate k 0#8 ++ a) 0#16 = crc16 a 0#16) ∧
    (∀ (a b : List Byte) (c d : Half), a.length = b.length →
      crc16 (List.zipWith (fun x y => x ^^^ y) a b) (c ^^^ d) = crc16 a c ^^^ crc16 b d)

/-- R138, R139: the sum of the source window, from `SUM` or from 0, goes to `SUM` and `RES0`; a window
outside memory raises OperandFault and leaves `SUM`. -/
def Obligations.SumCommandsAddTheSourceWindow : Prop :=
  Instr.sumUpd.HasOnlyWord 0x00000031#32 ∧ Instr.sumRun.HasOnlyWord 0x00000032#32 ∧ ∀ s : State,
    (s.x.src.toNat + s.x.slen.toNat ≤ s.cfg.memBytes →
      exec .sumUpd s = .next { s with sum := sum16 s.window s.sum, x := { s.x with res0 := (sum16 s.window s.sum).setWidth 32 } } ∧
      exec .sumRun s = .next { s with sum := sum16 s.window 0#16, x := { s.x with res0 := (sum16 s.window 0#16).setWidth 32 } }) ∧
    (s.cfg.memBytes < s.x.src.toNat + s.x.slen.toNat →
      exec .sumUpd s = .next { s with err := { code := 5#4, cmd := 0x00000031#32, got := 0#32, exp := 0#32 } } ∧
      exec .sumRun s = .next { s with err := { code := 5#4, cmd := 0x00000032#32, got := 0#32, exp := 0#32 } })

/-- R136: the sum is the byte sum modulo 2^16, and the consequences that the rule marks "[derived]". -/
def Obligations.SumIsTheByteSumModulo65536 : Prop :=
  (∀ (bs : List Byte) (s0 : Half), (sum16 bs s0).toNat = (s0.toNat + (bs.map BitVec.toNat).sum) % 65536) ∧
    sum16 [] 0#16 = 0#16 ∧
    (∀ a b : List Byte, sum16 (a ++ b) 0#16 = sum16 b (sum16 a 0#16)) ∧
    (∀ (a b : List Byte) (s0 : Half), a.Perm b → sum16 a s0 = sum16 b s0)

/-- R134 and R138, corner cases: an `UPD` over one window and then over the adjacent one leaves what one
`UPD` over their union leaves. -/
def Obligations.AdjacentUpdatesEqualOneUpdate : Prop :=
  ∀ (s t s1 s2 : State) (i : Instr) (n1 n2 : Word), i = .crcUpd ∨ i = .sumUpd →
    s.x.slen.toNat = n1.toNat + n2.toNat → s.x.src.toNat + s.x.slen.toNat ≤ s.cfg.memBytes →
    exec i s = .next t →
    exec i { s with x := { s.x with slen := n1 } } = .next s1 →
    exec i { s1 with x := { s1.x with src := s.x.src + n1, slen := n2 } } = .next s2 →
    s2.crc = t.crc ∧ s2.sum = t.sum ∧ s2.x.res0 = t.x.res0 ∧ s2.mem = t.mem ∧ s2.err = t.err

/-- R141: `SUM32.CHK` by cases: success with both values, IntegrityError with both values latched, and
the OperandFaults. -/
def Obligations.Sum32ChkComparesTheTwoChecksums : Prop :=
  Instr.sum32Chk.HasOnlyWord 0x00000033#32 ∧ ∀ (s : State) (computed stored : Word),
    computed = sum32Neg s.srcByte s.x.slen.toNat s.x.aux.toNat →
    stored.toNat = be32 s.srcByte s.x.aux.toNat →
    (s.x.src.toNat + s.x.slen.toNat ≤ s.cfg.memBytes → s.x.slen ≠ 0#32 → s.x.slen.toNat % 4 = 0 →
      s.x.aux.toNat % 4 = 0 → s.x.aux.toNat < s.x.slen.toNat →
      (computed = stored → exec .sum32Chk s = .next { s with x := { s.x with res0 := computed, res1 := stored } }) ∧
      (computed ≠ stored → exec .sum32Chk s = .next { s with err :=
        { code := 2#4, cmd := 0x00000033#32, got := computed, exp := stored } })) ∧
    (s.cfg.memBytes < s.x.src.toNat + s.x.slen.toNat ∨ s.x.slen = 0#32 ∨ s.x.slen.toNat % 4 ≠ 0 ∨
      s.x.aux.toNat % 4 ≠ 0 ∨ s.x.slen.toNat ≤ s.x.aux.toNat →
      exec .sum32Chk s = .next { s with err := { code := 5#4, cmd := 0x00000033#32, got := 0#32, exp := 0#32 } })

/-- R140: the negated sum of the other words, and what the rule marks "[derived]": the block is valid
exactly when all words sum to 0 modulo 2^32. -/
def Obligations.ValidBlockWordsSumToZero : Prop :=
  ∀ (W : Nat → Byte) (k q : Nat), q < k →
    (sum32Neg W (4 * k) (4 * q)).toNat =
      (2 ^ 32 - (((List.range k).filter (fun i => i ≠ q)).map (fun i => be32 W (4 * i))).sum % 2 ^ 32) % 2 ^ 32 ∧
    ((sum32Neg W (4 * k) (4 * q)).toNat = be32 W (4 * q) ↔
      (((List.range k).map (fun i => be32 W (4 * i))).sum) % 2 ^ 32 = 0)

/-- R141, "rejects a root block with any single corrupted checksum bit": flipping any one bit of a valid
block makes the check raise IntegrityError. -/
def Obligations.SingleBitFlipIsRejected : Prop :=
  ∀ (s : State) (a k : Nat), s.x.src.toNat + s.x.slen.toNat ≤ s.cfg.memBytes → s.x.slen.toNat % 4 = 0 →
    s.x.aux.toNat % 4 = 0 → s.x.aux.toNat < s.x.slen.toNat →
    (sum32Neg s.srcByte s.x.slen.toNat s.x.aux.toNat).toNat = be32 s.srcByte s.x.aux.toNat →
    s.x.src.toNat ≤ a → a < s.x.src.toNat + s.x.slen.toNat → k < 8 →
    ∃ got exp : Word, got ≠ exp ∧
      exec .sum32Chk { s with mem := s.mem.write a (s.mem.read a ^^^ (1#8 <<< k)) } =
        .next { s with mem := s.mem.write a (s.mem.read a ^^^ (1#8 <<< k)), err :=
                  { code := 2#4, cmd := 0x00000033#32, got := got, exp := exp } }

/-! ## RLE (spec/42_rle.md, spec/30_encoding.md R100) -/

/-- R100, R152: what each token appends to the output when the declared length has room for it. -/
def Obligations.EachTokenEmitsItsBytes : Prop :=
  ∀ (s : State) (r : RleRun), s.rle = some r →
    (∀ b : Byte, r.out.length + 1 ≤ s.x.dlen.toNat →
      exec (.rleLit b) s = .next { s with rle := some { r with out := r.out ++ [b] } }) ∧
    (r.out.length + 1 ≤ s.x.dlen.toNat →
      exec .rleEsc90 s = .next { s with rle := some { r with out := r.out ++ [0x90#8] } }) ∧
    (∀ c v : Byte, r.out.length + c.toNat ≤ s.x.dlen.toNat →
      exec (.rleRun8 c v) s = .next { s with rle := some { r with out := r.out ++ List.replicate c.toNat v } }) ∧
    (∀ v hi lo : Byte, r.out.length + (256 * hi.toNat + lo.toNat) ≤ s.x.dlen.toNat →
      exec (.rleRun16 v hi lo) s =
        .next { s with rle := some { r with out := r.out ++ List.replicate (256 * hi.toNat + lo.toNat) v } })

/-- R152: a token whose output would pass the declared length ends the expansion in StructuralError,
with no register changed but the latch and no byte outside the destination window. -/
def Obligations.TokenPastTheDeclaredLengthIsStructural : Prop :=
  ∀ (s : State) (t : RleToken), s.x.dst.toNat + s.x.dlen.toNat ≤ s.cfg.memBytes →
    s.x.dlen.toNat < s.rleCurrent.out.length + (tokenOutput t).length →
    ∃ (m : Memory) (k : Nat),
      exec t.toInstr s = .next { s with mem := m, freeCount := k, rle := none, err :=
        { code := 1#4, cmd := 0x00000040#32, got := 0#32, exp := 0#32 } } ∧
      ∀ a : Nat, ¬ (s.x.dst.toNat ≤ a ∧ a < s.x.dst.toNat + s.x.dlen.toNat) → m.read a = s.mem.read a

/-- R152, and R155, which the spec marks "[derived: from rule R152]": the expansion succeeds
exactly on streams of whole tokens whose outputs, joined, have the declared length, and its result is
the joined outputs. -/
def Obligations.ExpansionIsTheJoinedTokenOutputs : Prop :=
  ∀ (I out : List Byte) (D : Nat), rleExpand I D = some out ↔
    ∃ ts : List RleToken, (∀ t ∈ ts, t.wf = true) ∧ I = ts.flatMap RleToken.bytes ∧
      out = ts.flatMap tokenOutput ∧ out.length = D

/-- R153, R73: `RLE.EXPAND` on a stream of whole tokens of the declared output length writes that output
to the destination window, `RES0` takes its length, and nothing else changes. -/
def Obligations.RleExpandWritesTheExpansion : Prop :=
  ∀ (s : State) (ts : List RleToken), s.x.src.toNat + s.x.slen.toNat ≤ s.cfg.memBytes →
    s.x.dst.toNat + s.x.dlen.toNat ≤ s.cfg.memBytes → ¬ s.windowsOverlap → (∀ t ∈ ts, t.wf = true) →
    s.window = ts.flatMap RleToken.bytes → (ts.flatMap tokenOutput).length = s.x.dlen.toNat →
    ∃ m : Memory,
      exec .rleExpand s = .next { s with mem := m, x := { s.x with res0 := s.x.dlen } } ∧
      (∀ j : Nat, j < s.x.dlen.toNat → m.read (s.x.dst.toNat + j) = (ts.flatMap tokenOutput).getD j 0#8) ∧
      (∀ a : Nat, ¬ (s.x.dst.toNat ≤ a ∧ a < s.x.dst.toNat + s.x.dlen.toNat) → m.read a = s.mem.read a)

/-- R153, R62, R63, R73: the faults of `RLE.EXPAND`: OperandFault with nothing else changed, and
StructuralError with no byte changed outside the destination window. -/
def Obligations.RleExpandFaults : Prop :=
  ∀ s : State,
    (s.cfg.memBytes < s.x.src.toNat + s.x.slen.toNat ∨ s.cfg.memBytes < s.x.dst.toNat + s.x.dlen.toNat ∨
        s.windowsOverlap →
      exec .rleExpand s = .next { s with err := { code := 5#4, cmd := 0x00000040#32, got := 0#32, exp := 0#32 } }) ∧
    (s.x.src.toNat + s.x.slen.toNat ≤ s.cfg.memBytes → s.x.dst.toNat + s.x.dlen.toNat ≤ s.cfg.memBytes →
      ¬ s.windowsOverlap →
      (∀ ts : List RleToken, (∀ t ∈ ts, t.wf = true) → s.window = ts.flatMap RleToken.bytes →
        (ts.flatMap tokenOutput).length ≠ s.x.dlen.toNat) →
      ∃ (m : Memory) (k : Nat),
        exec .rleExpand s = .next { s with mem := m, freeCount := k, err :=
              { code := 1#4, cmd := 0x00000040#32, got := 0#32, exp := 0#32 } } ∧
        ∀ a : Nat, ¬ (s.x.dst.toNat ≤ a ∧ a < s.x.dst.toNat + s.x.dlen.toNat) → m.read a = s.mem.read a)

/-- R152, R153 (log entry 5): running the expansion token by token ends in the very state that
`RLE.EXPAND` reaches in one step. -/
def Obligations.TokenByTokenRunEqualsRleExpand : Prop :=
  ∀ s : State, s.rle = none → s.x.src.toNat + s.x.slen.toNat ≤ s.cfg.memBytes →
    s.x.dst.toNat + s.x.dlen.toNat ≤ s.cfg.memBytes → ¬ s.windowsOverlap →
    ∃ (k : Nat) (t : State), exec .rleExpand s = .next t ∧
      Sys2Proof.core.run k { s with rle := some { input := s.window, out := [] } } = .next t

/-- R150: no step leaves a running expansion behind in a state that had none (`rle` is the model's own field,
log entry 5). -/
def Obligations.DecompressorHoldsNoStateBetweenCommands : Prop :=
  ∀ s t : State, s.rle = none → step s = .next t → t.rle = none

/-! ## DMS (spec/43_dms_track.md) -/

/-- R166: `DMS.OPEN` by cases. -/
def Obligations.DmsOpenChecksLengthAndMagic : Prop :=
  Instr.dmsOpen.HasOnlyWord 0x00000050#32 ∧ ∀ s : State,
    (s.cfg.memBytes < s.x.src.toNat + s.x.slen.toNat →
      exec .dmsOpen s = .next { s with err := { code := 5#4, cmd := 0x00000050#32, got := 0#32, exp := 0#32 } }) ∧
    (s.x.src.toNat + s.x.slen.toNat ≤ s.cfg.memBytes →
      (56 ≤ s.x.slen.toNat → s.srcBytes 0 4 = [0x44#8, 0x4D#8, 0x53#8, 0x21#8] →
        exec .dmsOpen s = .next { s with x := { s.x with res0 := 56#32 } }) ∧
      (s.x.slen.toNat < 56 ∨ s.srcBytes 0 4 ≠ [0x44#8, 0x4D#8, 0x53#8, 0x21#8] →
        exec .dmsOpen s = .next { s with err := { code := 1#4, cmd := 0x00000050#32, got := 0#32, exp := 0#32 } }))

/-- R168, R169, R170: `DMS.TRACK` on a whole record latches its fields and reports the next offset. -/
def Obligations.DmsTrackLatchesTheRecord : Prop :=
  ∀ s : State, s.x.src.toNat + s.x.slen.toNat ≤ s.cfg.memBytes →
    s.srcByte s.x.aux.toNat = 0x54#8 → s.srcByte (s.x.aux.toNat + 1) = 0x52#8 →
    s.x.aux.toNat + s.cfg.payloadOff + be16 s.srcByte (s.x.aux.toNat + 6) ≤ s.x.slen.toNat →
    ∃ t : Track, exec .dmsTrack s = .next { s with trk := t, x := { s.x with res0 := 1#32, res1 := t.next, res2 := t.pay } } ∧
      t.valid = true ∧
      t.num.toInt = (BitVec.ofNat 16 (be16 s.srcByte (s.x.aux.toNat + 2))).toInt ∧
      t.pklen.toNat = be16 s.srcByte (s.x.aux.toNat + 6) ∧
      t.ulenA.toNat = be16 s.srcByte (s.x.aux.toNat + 8) ∧
      t.ulenB.toNat = be16 s.srcByte (s.x.aux.toNat + 10) ∧
      t.flags = s.srcByte (s.x.aux.toNat + 12) ∧ t.mode = s.srcByte (s.x.aux.toNat + 13) ∧
      t.usum.toNat = be16 s.srcByte (s.x.aux.toNat + 14) ∧
      t.dcrc.toNat = be16 s.srcByte (s.x.aux.toNat + 16) ∧
      t.hcrc.toNat = be16 s.srcByte (s.x.aux.toNat + 18) ∧
      t.pay.toNat = s.x.aux.toNat + s.cfg.payloadOff ∧
      t.next.toNat = s.x.aux.toNat + s.cfg.payloadOff + be16 s.srcByte (s.x.aux.toNat + 6)

/-- R62, R169, R170: a window outside memory is an OperandFault, without a record `DMS.TRACK` reports
none, and a record cut short is a StructuralError. -/
def Obligations.DmsTrackReportsNoneOrCutShort : Prop :=
  ∀ s : State,
    (s.cfg.memBytes < s.x.src.toNat + s.x.slen.toNat →
      exec .dmsTrack s = .next { s with err := { code := 5#4, cmd := 0x00000051#32, got := 0#32, exp := 0#32 } }) ∧
    (s.x.src.toNat + s.x.slen.toNat ≤ s.cfg.memBytes →
      (s.x.slen.toNat < s.x.aux.toNat + 2 ∨ s.srcByte s.x.aux.toNat ≠ 0x54#8 ∨
          s.srcByte (s.x.aux.toNat + 1) ≠ 0x52#8 →
        exec .dmsTrack s = .next { s with trk := { s.trk with valid := false }, x := { s.x with res0 := 0#32 } }) ∧
      (s.x.aux.toNat + 2 ≤ s.x.slen.toNat → s.srcByte s.x.aux.toNat = 0x54#8 →
        s.srcByte (s.x.aux.toNat + 1) = 0x52#8 →
        s.x.slen.toNat < s.x.aux.toNat + s.cfg.payloadOff + be16 s.srcByte (s.x.aux.toNat + 6) →
        exec .dmsTrack s = .next { s with err := { code := 1#4, cmd := 0x00000051#32, got := 0#32, exp := 0#32 } }))

/-- R171, R172, R73: `DMS.UNPACK` of a whole record whose payload is stored, or is a stream of whole
tokens of the declared length, and whose checks agree if they are asked for. -/
def Obligations.DmsUnpackDeliversTheTrack : Prop :=
  ∀ (s : State) (verify : Bool) (t : Track) (out : List Byte),
    s.x.src.toNat + s.x.slen.toNat ≤ s.cfg.memBytes → s.x.dst.toNat + s.x.dlen.toNat ≤ s.cfg.memBytes →
    ¬ s.windowsOverlap → s.trackHere = .ok (some t) →
    (t.mode = 0#8 ∧ out = s.srcBytes t.pay.toNat t.pklen.toNat ∨
      t.mode = 1#8 ∧ ∃ ts : List RleToken, (∀ k ∈ ts, k.wf = true) ∧
        s.srcBytes t.pay.toNat t.pklen.toNat = ts.flatMap RleToken.bytes ∧ out = ts.flatMap tokenOutput ∧
        out.length = t.ulenB.toNat) →
    out.length ≤ s.x.dlen.toNat →
    (verify = true → crc16 (s.srcBytes t.pay.toNat t.pklen.toNat) 0#16 = t.dcrc ∧ sum16 out 0#16 = t.usum) →
    ∃ (m : Memory) (n : Word), n.toNat = out.length ∧
      exec (.dmsUnpack verify) s =
        .next { s with mem := m, trk := t, x := { s.x with res0 := n, res1 := t.next, res2 := t.pay } } ∧
      (∀ j : Nat, j < out.length → m.read (s.x.dst.toNat + j) = out.getD j 0#8) ∧
      (∀ a : Nat, ¬ (s.x.dst.toNat ≤ a ∧ a < s.x.dst.toNat + out.length) → m.read a = s.mem.read a)

/-- R171, R233, R234, and the order of R175, marked "[derived: from rules R171 and R172]": which fault
`DMS.UNPACK` reports once the record is parsed and the destination is large enough. -/
def Obligations.DmsUnpackFaultOrder : Prop :=
  ∀ (s : State) (verify : Bool) (t : Track) (w : Word),
    w = (if verify then 0x00000152#32 else 0x00000052#32) →
    s.x.src.toNat + s.x.slen.toNat ≤ s.cfg.memBytes → s.x.dst.toNat + s.x.dlen.toNat ≤ s.cfg.memBytes →
    ¬ s.windowsOverlap → s.trackHere = .ok (some t) → unpackLength t ≤ s.x.dlen.toNat →
    ∃ u : State, exec (.dmsUnpack verify) s = .next u ∧
      (verify = true → crc16 (s.srcBytes t.pay.toNat t.pklen.toNat) 0#16 ≠ t.dcrc →
        u.err = { code := 2#4, cmd := w, got := (crc16 (s.srcBytes t.pay.toNat t.pklen.toNat) 0#16).setWidth 32,
                  exp := t.dcrc.setWidth 32 }) ∧
      ((verify = true → crc16 (s.srcBytes t.pay.toNat t.pklen.toNat) 0#16 = t.dcrc) →
        (t.mode ≠ 0#8 → t.mode ≠ 1#8 → u.err = { code := 3#4, cmd := w, got := 0#32, exp := 0#32 }) ∧
        (t.mode = 1#8 → rleExpand (s.srcBytes t.pay.toNat t.pklen.toNat) t.ulenB.toNat = none →
          u.err = { code := 1#4, cmd := w, got := 0#32, exp := 0#32 }) ∧
        (∀ out : List Byte, verify = true → unpackPlain t (s.srcBytes t.pay.toNat t.pklen.toNat) = .ok out →
          sum16 out 0#16 ≠ t.usum →
          u.err = { code := 2#4, cmd := w, got := (sum16 out 0#16).setWidth 32, exp := t.usum.setWidth 32 }))

/-- R172, R175: the faults of `DMS.UNPACK` before the unpacking: the windows, no record or a record cut
short, and a destination too small, of which only the second loses the destination window (R73). -/
def Obligations.DmsUnpackEarlyFaults : Prop :=
  ∀ (s : State) (verify : Bool) (w : Word), w = (if verify then 0x00000152#32 else 0x00000052#32) →
    (s.cfg.memBytes < s.x.src.toNat + s.x.slen.toNat ∨ s.cfg.memBytes < s.x.dst.toNat + s.x.dlen.toNat ∨
        s.windowsOverlap →
      exec (.dmsUnpack verify) s = .next { s with err := { code := 5#4, cmd := w, got := 0#32, exp := 0#32 } }) ∧
    (s.x.src.toNat + s.x.slen.toNat ≤ s.cfg.memBytes → s.x.dst.toNat + s.x.dlen.toNat ≤ s.cfg.memBytes →
      ¬ s.windowsOverlap →
      (s.x.slen.toNat < s.x.aux.toNat + 2 ∨ s.srcByte s.x.aux.toNat ≠ 0x54#8 ∨
          s.srcByte (s.x.aux.toNat + 1) ≠ 0x52#8 ∨
          s.x.slen.toNat < s.x.aux.toNat + s.cfg.payloadOff + be16 s.srcByte (s.x.aux.toNat + 6) →
        ∃ (m : Memory) (k : Nat),
          exec (.dmsUnpack verify) s = .next { s with mem := m, freeCount := k, err :=
              { code := 1#4, cmd := w, got := 0#32, exp := 0#32 } } ∧
          ∀ a : Nat, ¬ (s.x.dst.toNat ≤ a ∧ a < s.x.dst.toNat + s.x.dlen.toNat) → m.read a = s.mem.read a) ∧
      (∀ t : Track, s.trackHere = .ok (some t) →
        s.x.dlen.toNat < (if t.mode = 0#8 then t.pklen.toNat else if t.mode = 1#8 then t.ulenB.toNat else 0) →
        exec (.dmsUnpack verify) s = .next { s with err := { code := 5#4, cmd := w, got := 0#32, exp := 0#32 } }))

/-- What R174 marks "[derived: from rules R166 and R170]": each record that `DMS.TRACK` finds moves the
scan forward, and never past the file. -/
def Obligations.TrackScanMovesForwardInsideTheFile : Prop :=
  ∀ s t : State, s.err.code = 0#4 → exec .dmsTrack s = .next t → t.err.code = 0#4 → t.x.res0 = 1#32 →
    s.x.aux.toNat + 20 ≤ t.x.res1.toNat ∧ t.x.res2.toNat ≤ t.x.res1.toNat ∧ t.x.res1.toNat ≤ s.x.slen.toNat

/-! ## LZH (spec/44_lzh_entry.md) -/

/-- R193, R199 to R204: a whole level-0 entry. -/
def Obligations.ParseLevelZeroEntry : Prop :=
  ∀ (s : State) (e base N stored : Nat), e = s.x.aux.toNat → base = 2 + (s.srcByte e).toNat →
    N = (s.srcByte (e + 21)).toNat → stored = le32 s.srcByte (e + 7) →
    s.x.src.toNat + s.x.slen.toNat ≤ s.cfg.memBytes → s.srcByte (e + 20) = 0#8 → 24 + N ≤ base →
    e + base + stored ≤ s.x.slen.toNat →
    ∃ r : Entry,
      exec .lzhParse s = .next { s with lzh := r, x := { s.x with res0 := r.last, res1 := r.pay, res2 := r.packed } } ∧
      r.valid = true ∧
      r.values = { level := 0, hdrlen := base, packed := stored, pay := e + base, last := e + base + stored,
                   ucrc := le16 s.srcByte (e + 22 + N), hcrc := 0, flags := 2, nameOff := e + 22, nameLen := N,
                   dirOff := 0, dirLen := 0, extCnt := 0, extBytes := 0, ext0 := 0, fwd0 := 0 }

/-- R194, R198 to R204: a whole level-1 entry with the chain `bs`: the stored size counts the extended
headers once more, and the name comes from the base header. -/
def Obligations.ParseLevelOneEntry : Prop :=
  ∀ (s : State) (bs : List ExtBlock) (e base N stored ext : Nat), e = s.x.aux.toNat →
    base = 2 + (s.srcByte e).toNat → N = (s.srcByte (e + 21)).toNat → stored = le32 s.srcByte (e + 7) →
    ext = chainSize 2 bs →
    s.x.src.toNat + s.x.slen.toNat ≤ s.cfg.memBytes → s.srcByte (e + 20) = 1#8 → 26 + N ≤ base →
    ChainAt s.srcByte 2 (e + base) (le16 s.srcByte (e + base - 2)) bs →
    (∀ b ∈ bs, b.tag = 0#8 → 2 ≤ b.data.length) → ext ≤ stored → e + base + stored ≤ s.x.slen.toNat →
    ∃ r : Entry,
      exec .lzhParse s = .next { s with lzh := r, x := { s.x with res0 := r.last, res1 := r.pay, res2 := r.packed } } ∧
      r.valid = true ∧
      r.values = { level := 1, hdrlen := base + ext, packed := stored - ext, pay := e + base + ext,
                   last := e + base + stored, ucrc := le16 s.srcByte (e + 22 + N),
                   hcrc := ((lastSlice 2 0#8 (e + base) bs).map (fun p => le16 s.srcByte p.1)).getD 0,
                   flags := 2 + (lastSlice 2 0#8 (e + base) bs).isSome.toNat,
                   nameOff := e + 22, nameLen := N, dirOff := 0, dirLen := 0, extCnt := bs.length, extBytes := ext,
                   ext0 := if bs = [] then 0 else e + base, fwd0 := le16 s.srcByte (e + base - 2) }

/-- R195, R198 to R204: a whole level-2 entry with the chain `bs` inside the declared header length. -/
def Obligations.ParseLevelTwoEntry : Prop :=
  ∀ (s : State) (bs : List ExtBlock) (e HL stored ext : Nat), e = s.x.aux.toNat → HL = le16 s.srcByte e →
    stored = le32 s.srcByte (e + 7) → ext = chainSize 2 bs →
    s.x.src.toNat + s.x.slen.toNat ≤ s.cfg.memBytes → s.srcByte (e + 20) = 2#8 →
    ChainAt s.srcByte 2 (e + 26) (le16 s.srcByte (e + 24)) bs → (∀ b ∈ bs, b.tag = 0#8 → 2 ≤ b.data.length) →
    26 + ext ≤ HL → e + HL + stored ≤ s.x.slen.toNat →
    ∃ r : Entry,
      exec .lzhParse s = .next { s with lzh := r, x := { s.x with res0 := r.last, res1 := r.pay, res2 := r.packed } } ∧
      r.valid = true ∧
      r.values = { level := 2, hdrlen := HL, packed := stored, pay := e + HL, last := e + HL + stored,
                   ucrc := le16 s.srcByte (e + 21),
                   hcrc := ((lastSlice 2 0#8 (e + 26) bs).map (fun p => le16 s.srcByte p.1)).getD 0,
                   flags := 4 * (lastSlice 2 2#8 (e + 26) bs).isSome.toNat +
                     2 * (lastSlice 2 1#8 (e + 26) bs).isSome.toNat + (lastSlice 2 0#8 (e + 26) bs).isSome.toNat,
                   nameOff := ((lastSlice 2 1#8 (e + 26) bs).getD (0, 0)).1,
                   nameLen := ((lastSlice 2 1#8 (e + 26) bs).getD (0, 0)).2,
                   dirOff := ((lastSlice 2 2#8 (e + 26) bs).getD (0, 0)).1,
                   dirLen := ((lastSlice 2 2#8 (e + 26) bs).getD (0, 0)).2,
                   extCnt := bs.length, extBytes := ext, ext0 := if bs = [] then 0 else e + 26,
                   fwd0 := le16 s.srcByte (e + 24) }

/-- R197, R198 to R204: a whole level-3 entry with the chain `bs`, for both values of `LZH_L3_FIXED`. -/
def Obligations.ParseLevelThreeEntry : Prop :=
  ∀ (s : State) (bs : List ExtBlock) (e X stored ext : Nat), e = s.x.aux.toNat → X = s.cfg.l3Fixed →
    stored = le32 s.srcByte (e + 7) → ext = chainSize 4 bs →
    s.x.src.toNat + s.x.slen.toNat ≤ s.cfg.memBytes → s.srcByte (e + 20) = 3#8 →
    ChainAt s.srcByte 4 (e + X) (le32 s.srcByte (e + X - 4)) bs → (∀ b ∈ bs, b.tag = 0#8 → 2 ≤ b.data.length) →
    e + X + ext + stored ≤ s.x.slen.toNat →
    ∃ r : Entry,
      exec .lzhParse s = .next { s with lzh := r, x := { s.x with res0 := r.last, res1 := r.pay, res2 := r.packed } } ∧
      r.valid = true ∧
      r.values = { level := 3, hdrlen := X + ext, packed := stored, pay := e + X + ext,
                   last := e + X + ext + stored, ucrc := le16 s.srcByte (e + 21),
                   hcrc := ((lastSlice 4 0#8 (e + X) bs).map (fun p => le16 s.srcByte p.1)).getD 0,
                   flags := 4 * (lastSlice 4 2#8 (e + X) bs).isSome.toNat +
                     2 * (lastSlice 4 1#8 (e + X) bs).isSome.toNat + (lastSlice 4 0#8 (e + X) bs).isSome.toNat,
                   nameOff := ((lastSlice 4 1#8 (e + X) bs).getD (0, 0)).1,
                   nameLen := ((lastSlice 4 1#8 (e + X) bs).getD (0, 0)).2,
                   dirOff := ((lastSlice 4 2#8 (e + X) bs).getD (0, 0)).1,
                   dirLen := ((lastSlice 4 2#8 (e + X) bs).getD (0, 0)).2,
                   extCnt := bs.length, extBytes := ext, ext0 := if bs = [] then 0 else e + X,
                   fwd0 := le32 s.srcByte (e + X - 4) }

/-- R62, R191 to R200, R203, R204, R232: the faults of `LZH.PARSE`. A window outside memory is an
OperandFault. A StructuralError is an entry whose level byte lies outside the window or is above 3, and
at each level a header outside the window or too short for its fields, a broken chain, a chain longer
than the level-2 header or than the level-1 stored size, and a payload past the window. In each case the
latched entry and all else stay. -/
def Obligations.ParseRejectsShortAndUnknownLevels : Prop :=
  ∀ (s malformed : State) (e len stored : Nat), e = s.x.aux.toNat → len = s.x.slen.toNat →
    stored = le32 s.srcByte (e + 7) →
    malformed = { s with err := { code := 1#4, cmd := 0x00000060#32, got := 0#32, exp := 0#32 } } →
    (s.cfg.memBytes < s.x.src.toNat + len →
      exec .lzhParse s = .next { s with err := { code := 5#4, cmd := 0x00000060#32, got := 0#32, exp := 0#32 } }) ∧
    (s.x.src.toNat + len ≤ s.cfg.memBytes →
      (len < e + 21 ∨ 3 < (s.srcByte (e + 20)).toNat → exec .lzhParse s = .next malformed) ∧
      (∀ base N : Nat, base = 2 + (s.srcByte e).toNat → N = (s.srcByte (e + 21)).toNat →
        (s.srcByte (e + 20) = 0#8 →
          base < 24 ∨ len < e + base ∨ base < 24 + N ∨ len < e + base + stored →
          exec .lzhParse s = .next malformed) ∧
        (s.srcByte (e + 20) = 1#8 →
          base < 26 ∨ len < e + base ∨ base < 26 + N ∨
            ChainBroken s.srcByte len 2 (e + base) (le16 s.srcByte (e + base - 2)) ∨
            (∃ bs : List ExtBlock, ChainAt s.srcByte 2 (e + base) (le16 s.srcByte (e + base - 2)) bs ∧
              (stored < chainSize 2 bs ∨ len < e + base + stored)) →
          exec .lzhParse s = .next malformed)) ∧
      (∀ HL : Nat, HL = le16 s.srcByte e → s.srcByte (e + 20) = 2#8 →
        len < e + 26 ∨ HL < 26 ∨ len < e + HL ∨
          ChainBroken s.srcByte len 2 (e + 26) (le16 s.srcByte (e + 24)) ∨
          (∃ bs : List ExtBlock, ChainAt s.srcByte 2 (e + 26) (le16 s.srcByte (e + 24)) bs ∧
            HL < 26 + chainSize 2 bs) ∨
          len < e + HL + stored →
        exec .lzhParse s = .next malformed) ∧
      (∀ X : Nat, X = s.cfg.l3Fixed → s.srcByte (e + 20) = 3#8 →
        len < e + X ∨ ChainBroken s.srcByte len 4 (e + X) (le32 s.srcByte (e + X - 4)) ∨
          (∃ bs : List ExtBlock, ChainAt s.srcByte 4 (e + X) (le32 s.srcByte (e + X - 4)) bs ∧
            len < e + X + chainSize 4 bs + stored) →
        exec .lzhParse s = .next malformed))

/-- R200 and S3 of spec/95_test_vectors.md: at every level the end offset is the entry offset plus the
header length plus the packed size, inside the buffer, and the three results say so. -/
def Obligations.EndOffsetIsOffsetPlusHeaderPlusPacked : Prop :=
  ∀ s t : State, s.err.code = 0#4 → exec .lzhParse s = .next t → t.err.code = 0#4 →
    t.lzh.valid = true ∧
      t.lzh.last.toNat = s.x.aux.toNat + t.lzh.hdrlen.toNat + t.lzh.packed.toNat ∧
      t.lzh.pay.toNat = s.x.aux.toNat + t.lzh.hdrlen.toNat ∧ t.lzh.last.toNat ≤ s.x.slen.toNat ∧
      24 ≤ t.lzh.hdrlen.toNat ∧
      t.x.res0 = t.lzh.last ∧ t.x.res1 = t.lzh.pay ∧ t.x.res2 = t.lzh.packed

/-- R205: element `k` of a chain that lies in the window, and of any chain whose blocks up to `k` do; an
index past the chain is absent; before any parse, or with a window outside memory, `LZH.EXT` raises
OperandFault; a chain that no longer walks, at block `k` or before it, raises StructuralError. -/
def Obligations.LzhExtReturnsTheBlock : Prop :=
  ∀ s : State,
    (s.lzh.valid = false ∨ s.cfg.memBytes < s.x.src.toNat + s.x.slen.toNat →
      exec .lzhExt s = .next { s with err := { code := 5#4, cmd := 0x00000061#32, got := 0#32, exp := 0#32 } }) ∧
    (s.lzh.valid = true → s.x.src.toNat + s.x.slen.toNat ≤ s.cfg.memBytes →
      s.lzh.extCnt.toNat ≤ s.x.aux.toNat →
      exec .lzhExt s = .next { s with x := { s.x with res0 := 0xFFFFFFFF#32, res1 := 0#32, res2 := 0#32 } }) ∧
    (∀ (bs : List ExtBlock) (W : Nat) (hk : s.x.aux.toNat < bs.length), s.lzh.valid = true →
      s.x.src.toNat + s.x.slen.toNat ≤ s.cfg.memBytes → s.x.aux.toNat < s.lzh.extCnt.toNat →
      W = (if s.lzh.level = 3#2 then 4 else 2) →
      ChainAt s.srcByte W s.lzh.ext0.toNat s.lzh.fwd0.toNat bs →
      s.lzh.ext0.toNat + chainSize W bs ≤ s.x.slen.toNat →
      ∃ off len : Word, off.toNat = s.lzh.ext0.toNat + chainSize W (bs.take s.x.aux.toNat) + 1 ∧
        len.toNat = (bs[s.x.aux.toNat]).data.length ∧
        exec .lzhExt s =
          .next { s with x := { s.x with res0 := (bs[s.x.aux.toNat]).tag.setWidth 32, res1 := off, res2 := len } }) ∧
    (∀ (W : Nat) (block : Nat → Nat × Nat), s.lzh.valid = true →
      s.x.src.toNat + s.x.slen.toNat ≤ s.cfg.memBytes → s.x.aux.toNat < s.lzh.extCnt.toNat →
      W = (if s.lzh.level = 3#2 then 4 else 2) →
      block = chainBlock s.srcByte W s.lzh.ext0.toNat s.lzh.fwd0.toNat →
      ((∃ j, j ≤ s.x.aux.toNat ∧ ((block j).2 < 1 + W ∨ s.x.slen.toNat < (block j).1 + (block j).2)) →
        exec .lzhExt s = .next { s with err := { code := 1#4, cmd := 0x00000061#32, got := 0#32, exp := 0#32 } }) ∧
      ((∀ j, j ≤ s.x.aux.toNat → 1 + W ≤ (block j).2 ∧ (block j).1 + (block j).2 ≤ s.x.slen.toNat) →
        ∃ off len : Word, off.toNat = (block s.x.aux.toNat).1 + 1 ∧ len.toNat = (block s.x.aux.toNat).2 - 1 - W ∧
          exec .lzhExt s = .next { s with x := { s.x with
            res0 := (s.srcByte (block s.x.aux.toNat).1).setWidth 32, res1 := off, res2 := len } }))

/-- R205, corner case marked "[derived: from rule R198]": while the buffer is as it was at the parse, the
walk to any block of the chain cannot fault, and the slice it returns lies in the window. -/
def Obligations.ChainWalksAgainAfterTheParse : Prop :=
  ∀ (s t : State) (k : Word), s.err.code = 0#4 → exec .lzhParse s = .next t → t.err.code = 0#4 →
    k.toNat < t.lzh.extCnt.toNat →
    ∃ u : State, exec .lzhExt { t with x := { t.x with aux := k } } = .next u ∧ u.err.code = 0#4 ∧
      u.x.res1.toNat + u.x.res2.toNat ≤ s.x.slen.toNat ∧ u.lzh = t.lzh ∧ u.mem = t.mem

/-- R206: `LZH.CRC` by cases. -/
def Obligations.LzhCrcComparesThePayload : Prop :=
  Instr.lzhCrc.HasOnlyWord 0x00000062#32 ∧ ∀ (s : State) (c : Half), c = crc16 (s.srcBytes s.lzh.pay.toNat s.lzh.packed.toNat) 0#16 →
    (s.lzh.valid = false ∨ s.cfg.memBytes < s.x.src.toNat + s.x.slen.toNat →
      exec .lzhCrc s = .next { s with err := { code := 5#4, cmd := 0x00000062#32, got := 0#32, exp := 0#32 } }) ∧
    (s.lzh.valid = true → s.x.src.toNat + s.x.slen.toNat ≤ s.cfg.memBytes →
      (s.x.slen.toNat < s.lzh.pay.toNat + s.lzh.packed.toNat →
        exec .lzhCrc s = .next { s with err := { code := 1#4, cmd := 0x00000062#32, got := 0#32, exp := 0#32 } }) ∧
      (s.lzh.pay.toNat + s.lzh.packed.toNat ≤ s.x.slen.toNat →
        (c = s.lzh.ucrc → exec .lzhCrc s = .next { s with x := { s.x with res0 := c.setWidth 32 } }) ∧
        (c ≠ s.lzh.ucrc → exec .lzhCrc s = .next { s with err :=
          { code := 2#4, cmd := 0x00000062#32, got := c.setWidth 32, exp := s.lzh.ucrc.setWidth 32 } })))

/-! ## The whole machine -/

/-- R240, R231, R73: a command that faults latches one of the six causes with its own word, and changes
no other register and no byte outside the destination window. -/
def Obligations.FaultingCommandChangesOnlyTheLatch : Prop :=
  ∀ (i : Instr) (s t : State) (w : Word), encode i = .command w → s.err.code = 0#4 →
    exec i s = .next t → t.err.code ≠ 0#4 →
    t.err.code.toNat ≤ 6 ∧ t.err.cmd = w ∧ (t.err.code ≠ 2#4 → t.err.got = 0#32 ∧ t.err.exp = 0#32) ∧
      t.x = s.x ∧ t.br = s.br ∧ t.crc = s.crc ∧ t.sum = s.sum ∧ t.trk = s.trk ∧ t.lzh = s.lzh ∧ t.rle = s.rle ∧
      (∀ a : Nat, ¬ (s.x.dst.toNat ≤ a ∧ a < s.x.dst.toNat + s.x.dlen.toNat) → t.mem.read a = s.mem.read a) ∧
      (4 ≤ t.err.code.toNat → t.mem = s.mem)

/-- R21, R22, R23, R142: every register is unchanged by the instructions that are not its writers. -/
def Obligations.RegistersHaveOnlyTheirWriters : Prop :=
  ∀ (i : Instr) (s t : State), exec i s = .next t → RegistersKept i s t

/-- R61 and R63, and R74, which the spec marks "[derived: from rule R61 and rule R63]": an instruction
without a destination window writes no memory; the others write no byte outside it; and a command writes
no byte of the source window. -/
def Obligations.MemoryIsWrittenOnlyInTheDestinationWindow : Prop :=
  ∀ (i : Instr) (s t : State), exec i s = .next t →
    (i.writesWindow = false → t.mem = s.mem) ∧
      (∀ a : Nat, ¬ (s.x.dst.toNat ≤ a ∧ a < s.x.dst.toNat + s.x.dlen.toNat) → t.mem.read a = s.mem.read a) ∧
      (i.isCommand = true → ∀ a : Nat, s.x.src.toNat ≤ a → a < s.x.src.toNat + s.x.slen.toNat →
        t.mem.read a = s.mem.read a)

/-- The invariant of the machine holds at reset (R37). -/
def Obligations.InvariantHoldsAtReset : Prop := State.reset.Inv

/-- Every step keeps the invariant: canonical memory inside `MEM_BYTES`, the bound buffer inside memory
and the cursor inside the buffer (R113, R118), a legal fault latch (R27, R231), and track and entry
registers that agree among themselves (R31, R32, R200). -/
def Obligations.EveryStepKeepsTheInvariant : Prop :=
  ∀ s t : State, s.Inv → step s = .next t → t.Inv

/-- R266, R267, R242: the block never stops by itself: from a state that meets the invariant a step
answers a next state unless it is a host access to an address that memory does not have. R262: it does
nothing while the host has no action for it. The script is the model's choice, log entry 7, and so is
the stop at such an address, log entry 4. -/
def Obligations.BlockNeverStopsByItself : Prop :=
  (∀ s : State, s.Inv → s.rle = none →
    (∀ (a : Word) (rest : List HostAction), s.script = .memRead a :: rest → a.toNat < s.cfg.memBytes) →
    (∀ (a : Word) (b : Byte) (rest : List HostAction), s.script = .memWrite a b :: rest → a.toNat < s.cfg.memBytes) →
    ∃ t : State, step s = .next t) ∧
  (∀ s : State, s.rle = none → s.script = [] → step s = .next s)

/-- R38: the parameters are fixed for a given block (that they stand in `State` is the model's choice, log
entry 1). -/
def Obligations.ParametersNeverChange : Prop :=
  ∀ s t : State, step s = .next t → t.cfg = s.cfg
end

