-- ==== Sys2Proof/Laws/Memory.lean ====
section
/-!
SUPPORT. The laws of memory: what a read gives after a write, that a write leaves every other address
alone, that every operation keeps the canonical form, and that it lists no address it did not write.
-/

namespace Sys2Proof.Machine.Memory

theorem lookup_write (m : Memory) (a b : Nat) (v : Byte) :
    lookup (write m a v) b = if b = a then some v else lookup m b := by
  induction m with
  | nil => simp [write, lookup]
  | cons c m ih =>
    obtain ⟨k, w⟩ := c
    by_cases h1 : a < k
    · rw [write, if_pos h1, lookup]
    · by_cases h2 : a = k
      · subst h2
        rw [write, if_neg h1, if_pos rfl, lookup]
        by_cases hb : b = a
        · simp [hb]
        · simp [hb, lookup]
      · rw [write, if_neg h1, if_neg h2, lookup, ih, lookup]
        by_cases hb : b = k
        · have : b ≠ a := by omega
          simp [hb, Ne.symm h2]
        · simp [hb]

/-- A read after a write to the same address gives the byte written. -/
theorem read_write_same (m : Memory) (a : Nat) (v : Byte) : read (write m a v) a = v := by
  simp [read, lookup_write m a a v]

/-- A write leaves every other address alone. -/
theorem read_write_other (m : Memory) (a b : Nat) (v : Byte) (hb : b ≠ a) :
    read (write m a v) b = read m b := by
  simp [read, lookup_write m a b v, hb]

/-- What a write lists: the written address, and what was listed. -/
theorem mem_write (m : Memory) (a : Nat) (v : Byte) (c : Host.Cell) (h : c ∈ write m a v) :
    c.1 = a ∨ c ∈ m := by
  induction m with
  | nil => simp [write] at h; simp [h]
  | cons d m ih =>
    obtain ⟨k, w⟩ := d
    rw [write] at h
    split at h
    · rcases List.mem_cons.mp h with h | h
      · simp [h]
      · exact .inr h
    · split at h
      · rcases List.mem_cons.mp h with h | h
        · simp [h]
        · exact .inr (List.mem_cons_of_mem _ h)
      · rcases List.mem_cons.mp h with h | h
        · simp [h]
        · exact (ih h).imp id (List.mem_cons_of_mem _)

/-- A write keeps the canonical form. -/
theorem wf_write (m : Memory) (a : Nat) (v : Byte) (h : Memory.wf m) : Memory.wf (write m a v) := by
  induction m with
  | nil => simp [write, Memory.wf]
  | cons d m ih =>
    obtain ⟨k, w⟩ := d
    have hm : Memory.wf m := h.tail
    have hk : ∀ d ∈ m, k < d.1 := fun d hd => List.rel_of_pairwise_cons h hd
    rw [write]
    split
    · rename_i hlt
      refine List.Pairwise.cons ?_ h
      intro d hd
      rcases List.mem_cons.mp hd with rfl | hd
      · exact hlt
      · exact Nat.lt_trans hlt (hk d hd)
    · split
      · rename_i heq
        exact List.Pairwise.cons (fun d hd => heq ▸ hk d hd) hm
      · rename_i h1 h2
        refine List.Pairwise.cons ?_ (ih hm)
        intro d hd
        rcases mem_write m a v d hd with hd | hd
        · show k < d.1
          omega
        · exact hk d hd

theorem wf_writeList (bs : List Byte) : ∀ (m : Memory) (a : Nat), Memory.wf m → Memory.wf (writeList m a bs) := by
  induction bs with
  | nil => exact fun m a h => h
  | cons b bs ih => exact fun m a h => ih _ _ (wf_write m a b h)

/-- What a list of writes lists: an address in the written range, or what was listed. -/
theorem mem_writeList (bs : List Byte) : ∀ (m : Memory) (a : Nat) (c : Host.Cell), c ∈ writeList m a bs →
    (a ≤ c.1 ∧ c.1 < a + bs.length) ∨ c ∈ m := by
  induction bs with
  | nil => exact fun m a c h => .inr h
  | cons b bs ih =>
    intro m a c h
    rcases ih _ _ _ h with h | h
    · left
      simp only [List.length_cons]
      omega
    · rcases mem_write m a b c h with h | h
      · left
        simp only [List.length_cons]
        omega
      · exact .inr h

/-- Reading after a list of writes: the written byte inside the range, the old byte outside it. -/
theorem read_writeList (bs : List Byte) : ∀ (m : Memory) (a b : Nat),
    read (writeList m a bs) b = if a ≤ b ∧ b < a + bs.length then bs.getD (b - a) 0#8 else read m b := by
  induction bs with
  | nil =>
    intro m a b
    have : ¬ (a ≤ b ∧ b < a + ([] : List Byte).length) := by simp
    simp only [writeList, if_neg this]
  | cons v bs ih =>
    intro m a b
    rw [writeList, ih]
    by_cases hb : b = a
    · subst hb
      simp [read_write_same m b v]
    · rw [read_write_other m a b v hb]
      by_cases h1 : a + 1 ≤ b ∧ b < a + 1 + bs.length
      · have h2 : a ≤ b ∧ b < a + (v :: bs).length := by simp only [List.length_cons]; omega
        rw [if_pos h1, if_pos h2, show b - a = (b - (a + 1)) + 1 by omega, List.getD_cons_succ]
      · have h2 : ¬ (a ≤ b ∧ b < a + (v :: bs).length) := by simp only [List.length_cons]; omega
        rw [if_neg h1, if_neg h2]

theorem wf_forget (m : Memory) (a n k : Nat) (h : Memory.wf m) : Memory.wf (forget m a n k) :=
  wf_writeList _ _ _ h

theorem mem_forget (m : Memory) (a n k : Nat) (c : Host.Cell) (h : c ∈ forget m a n k) :
    (a ≤ c.1 ∧ c.1 < a + n) ∨ c ∈ m := by
  simpa using mem_writeList _ m a c h

/-- Forgetting a window leaves every byte outside it alone. -/
theorem read_forget_outside (m : Memory) (a n k b : Nat) (hb : ¬ (a ≤ b ∧ b < a + n)) :
    read (forget m a n k) b = read m b := by
  rw [forget, read_writeList]
  simp only [List.length_map, List.length_range]
  rw [if_neg hb]

end Sys2Proof.Machine.Memory
end

