-- ==== Sys2Proof/Laws/State.lean ====
section
/-!
SUPPORT. One lemma per field per update of the state, each true by `rfl`.
-/

namespace Sys2Proof.Machine.State

@[simp] theorem setX_cfg (s : State) (v : Regs) : (s.setX v).cfg = s.cfg := rfl
@[simp] theorem setX_x (s : State) (v : Regs) : (s.setX v).x = v := rfl
@[simp] theorem setX_err (s : State) (v : Regs) : (s.setX v).err = s.err := rfl
@[simp] theorem setX_br (s : State) (v : Regs) : (s.setX v).br = s.br := rfl
@[simp] theorem setX_crc (s : State) (v : Regs) : (s.setX v).crc = s.crc := rfl
@[simp] theorem setX_sum (s : State) (v : Regs) : (s.setX v).sum = s.sum := rfl
@[simp] theorem setX_trk (s : State) (v : Regs) : (s.setX v).trk = s.trk := rfl
@[simp] theorem setX_lzh (s : State) (v : Regs) : (s.setX v).lzh = s.lzh := rfl
@[simp] theorem setX_mem (s : State) (v : Regs) : (s.setX v).mem = s.mem := rfl
@[simp] theorem setX_rle (s : State) (v : Regs) : (s.setX v).rle = s.rle := rfl
@[simp] theorem setX_script (s : State) (v : Regs) : (s.setX v).script = s.script := rfl
@[simp] theorem setX_replies (s : State) (v : Regs) : (s.setX v).replies = s.replies := rfl
@[simp] theorem setX_freeCount (s : State) (v : Regs) : (s.setX v).freeCount = s.freeCount := rfl

@[simp] theorem setErr_cfg (s : State) (v : FaultLatch) : (s.setErr v).cfg = s.cfg := rfl
@[simp] theorem setErr_x (s : State) (v : FaultLatch) : (s.setErr v).x = s.x := rfl
@[simp] theorem setErr_err (s : State) (v : FaultLatch) : (s.setErr v).err = v := rfl
@[simp] theorem setErr_br (s : State) (v : FaultLatch) : (s.setErr v).br = s.br := rfl
@[simp] theorem setErr_crc (s : State) (v : FaultLatch) : (s.setErr v).crc = s.crc := rfl
@[simp] theorem setErr_sum (s : State) (v : FaultLatch) : (s.setErr v).sum = s.sum := rfl
@[simp] theorem setErr_trk (s : State) (v : FaultLatch) : (s.setErr v).trk = s.trk := rfl
@[simp] theorem setErr_lzh (s : State) (v : FaultLatch) : (s.setErr v).lzh = s.lzh := rfl
@[simp] theorem setErr_mem (s : State) (v : FaultLatch) : (s.setErr v).mem = s.mem := rfl
@[simp] theorem setErr_rle (s : State) (v : FaultLatch) : (s.setErr v).rle = s.rle := rfl
@[simp] theorem setErr_script (s : State) (v : FaultLatch) : (s.setErr v).script = s.script := rfl
@[simp] theorem setErr_replies (s : State) (v : FaultLatch) : (s.setErr v).replies = s.replies := rfl
@[simp] theorem setErr_freeCount (s : State) (v : FaultLatch) : (s.setErr v).freeCount = s.freeCount := rfl

@[simp] theorem setBr_cfg (s : State) (v : BitReader) : (s.setBr v).cfg = s.cfg := rfl
@[simp] theorem setBr_x (s : State) (v : BitReader) : (s.setBr v).x = s.x := rfl
@[simp] theorem setBr_err (s : State) (v : BitReader) : (s.setBr v).err = s.err := rfl
@[simp] theorem setBr_br (s : State) (v : BitReader) : (s.setBr v).br = v := rfl
@[simp] theorem setBr_crc (s : State) (v : BitReader) : (s.setBr v).crc = s.crc := rfl
@[simp] theorem setBr_sum (s : State) (v : BitReader) : (s.setBr v).sum = s.sum := rfl
@[simp] theorem setBr_trk (s : State) (v : BitReader) : (s.setBr v).trk = s.trk := rfl
@[simp] theorem setBr_lzh (s : State) (v : BitReader) : (s.setBr v).lzh = s.lzh := rfl
@[simp] theorem setBr_mem (s : State) (v : BitReader) : (s.setBr v).mem = s.mem := rfl
@[simp] theorem setBr_rle (s : State) (v : BitReader) : (s.setBr v).rle = s.rle := rfl
@[simp] theorem setBr_script (s : State) (v : BitReader) : (s.setBr v).script = s.script := rfl
@[simp] theorem setBr_replies (s : State) (v : BitReader) : (s.setBr v).replies = s.replies := rfl
@[simp] theorem setBr_freeCount (s : State) (v : BitReader) : (s.setBr v).freeCount = s.freeCount := rfl

@[simp] theorem setCrc_cfg (s : State) (v : Half) : (s.setCrc v).cfg = s.cfg := rfl
@[simp] theorem setCrc_x (s : State) (v : Half) : (s.setCrc v).x = s.x := rfl
@[simp] theorem setCrc_err (s : State) (v : Half) : (s.setCrc v).err = s.err := rfl
@[simp] theorem setCrc_br (s : State) (v : Half) : (s.setCrc v).br = s.br := rfl
@[simp] theorem setCrc_crc (s : State) (v : Half) : (s.setCrc v).crc = v := rfl
@[simp] theorem setCrc_sum (s : State) (v : Half) : (s.setCrc v).sum = s.sum := rfl
@[simp] theorem setCrc_trk (s : State) (v : Half) : (s.setCrc v).trk = s.trk := rfl
@[simp] theorem setCrc_lzh (s : State) (v : Half) : (s.setCrc v).lzh = s.lzh := rfl
@[simp] theorem setCrc_mem (s : State) (v : Half) : (s.setCrc v).mem = s.mem := rfl
@[simp] theorem setCrc_rle (s : State) (v : Half) : (s.setCrc v).rle = s.rle := rfl
@[simp] theorem setCrc_script (s : State) (v : Half) : (s.setCrc v).script = s.script := rfl
@[simp] theorem setCrc_replies (s : State) (v : Half) : (s.setCrc v).replies = s.replies := rfl
@[simp] theorem setCrc_freeCount (s : State) (v : Half) : (s.setCrc v).freeCount = s.freeCount := rfl

@[simp] theorem setSum_cfg (s : State) (v : Half) : (s.setSum v).cfg = s.cfg := rfl
@[simp] theorem setSum_x (s : State) (v : Half) : (s.setSum v).x = s.x := rfl
@[simp] theorem setSum_err (s : State) (v : Half) : (s.setSum v).err = s.err := rfl
@[simp] theorem setSum_br (s : State) (v : Half) : (s.setSum v).br = s.br := rfl
@[simp] theorem setSum_crc (s : State) (v : Half) : (s.setSum v).crc = s.crc := rfl
@[simp] theorem setSum_sum (s : State) (v : Half) : (s.setSum v).sum = v := rfl
@[simp] theorem setSum_trk (s : State) (v : Half) : (s.setSum v).trk = s.trk := rfl
@[simp] theorem setSum_lzh (s : State) (v : Half) : (s.setSum v).lzh = s.lzh := rfl
@[simp] theorem setSum_mem (s : State) (v : Half) : (s.setSum v).mem = s.mem := rfl
@[simp] theorem setSum_rle (s : State) (v : Half) : (s.setSum v).rle = s.rle := rfl
@[simp] theorem setSum_script (s : State) (v : Half) : (s.setSum v).script = s.script := rfl
@[simp] theorem setSum_replies (s : State) (v : Half) : (s.setSum v).replies = s.replies := rfl
@[simp] theorem setSum_freeCount (s : State) (v : Half) : (s.setSum v).freeCount = s.freeCount := rfl

@[simp] theorem setTrk_cfg (s : State) (v : Track) : (s.setTrk v).cfg = s.cfg := rfl
@[simp] theorem setTrk_x (s : State) (v : Track) : (s.setTrk v).x = s.x := rfl
@[simp] theorem setTrk_err (s : State) (v : Track) : (s.setTrk v).err = s.err := rfl
@[simp] theorem setTrk_br (s : State) (v : Track) : (s.setTrk v).br = s.br := rfl
@[simp] theorem setTrk_crc (s : State) (v : Track) : (s.setTrk v).crc = s.crc := rfl
@[simp] theorem setTrk_sum (s : State) (v : Track) : (s.setTrk v).sum = s.sum := rfl
@[simp] theorem setTrk_trk (s : State) (v : Track) : (s.setTrk v).trk = v := rfl
@[simp] theorem setTrk_lzh (s : State) (v : Track) : (s.setTrk v).lzh = s.lzh := rfl
@[simp] theorem setTrk_mem (s : State) (v : Track) : (s.setTrk v).mem = s.mem := rfl
@[simp] theorem setTrk_rle (s : State) (v : Track) : (s.setTrk v).rle = s.rle := rfl
@[simp] theorem setTrk_script (s : State) (v : Track) : (s.setTrk v).script = s.script := rfl
@[simp] theorem setTrk_replies (s : State) (v : Track) : (s.setTrk v).replies = s.replies := rfl
@[simp] theorem setTrk_freeCount (s : State) (v : Track) : (s.setTrk v).freeCount = s.freeCount := rfl

@[simp] theorem setLzh_cfg (s : State) (v : Entry) : (s.setLzh v).cfg = s.cfg := rfl
@[simp] theorem setLzh_x (s : State) (v : Entry) : (s.setLzh v).x = s.x := rfl
@[simp] theorem setLzh_err (s : State) (v : Entry) : (s.setLzh v).err = s.err := rfl
@[simp] theorem setLzh_br (s : State) (v : Entry) : (s.setLzh v).br = s.br := rfl
@[simp] theorem setLzh_crc (s : State) (v : Entry) : (s.setLzh v).crc = s.crc := rfl
@[simp] theorem setLzh_sum (s : State) (v : Entry) : (s.setLzh v).sum = s.sum := rfl
@[simp] theorem setLzh_trk (s : State) (v : Entry) : (s.setLzh v).trk = s.trk := rfl
@[simp] theorem setLzh_lzh (s : State) (v : Entry) : (s.setLzh v).lzh = v := rfl
@[simp] theorem setLzh_mem (s : State) (v : Entry) : (s.setLzh v).mem = s.mem := rfl
@[simp] theorem setLzh_rle (s : State) (v : Entry) : (s.setLzh v).rle = s.rle := rfl
@[simp] theorem setLzh_script (s : State) (v : Entry) : (s.setLzh v).script = s.script := rfl
@[simp] theorem setLzh_replies (s : State) (v : Entry) : (s.setLzh v).replies = s.replies := rfl
@[simp] theorem setLzh_freeCount (s : State) (v : Entry) : (s.setLzh v).freeCount = s.freeCount := rfl

@[simp] theorem setMem_cfg (s : State) (v : Memory) : (s.setMem v).cfg = s.cfg := rfl
@[simp] theorem setMem_x (s : State) (v : Memory) : (s.setMem v).x = s.x := rfl
@[simp] theorem setMem_err (s : State) (v : Memory) : (s.setMem v).err = s.err := rfl
@[simp] theorem setMem_br (s : State) (v : Memory) : (s.setMem v).br = s.br := rfl
@[simp] theorem setMem_crc (s : State) (v : Memory) : (s.setMem v).crc = s.crc := rfl
@[simp] theorem setMem_sum (s : State) (v : Memory) : (s.setMem v).sum = s.sum := rfl
@[simp] theorem setMem_trk (s : State) (v : Memory) : (s.setMem v).trk = s.trk := rfl
@[simp] theorem setMem_lzh (s : State) (v : Memory) : (s.setMem v).lzh = s.lzh := rfl
@[simp] theorem setMem_mem (s : State) (v : Memory) : (s.setMem v).mem = v := rfl
@[simp] theorem setMem_rle (s : State) (v : Memory) : (s.setMem v).rle = s.rle := rfl
@[simp] theorem setMem_script (s : State) (v : Memory) : (s.setMem v).script = s.script := rfl
@[simp] theorem setMem_replies (s : State) (v : Memory) : (s.setMem v).replies = s.replies := rfl
@[simp] theorem setMem_freeCount (s : State) (v : Memory) : (s.setMem v).freeCount = s.freeCount := rfl

@[simp] theorem setRle_cfg (s : State) (v : Option RleRun) : (s.setRle v).cfg = s.cfg := rfl
@[simp] theorem setRle_x (s : State) (v : Option RleRun) : (s.setRle v).x = s.x := rfl
@[simp] theorem setRle_err (s : State) (v : Option RleRun) : (s.setRle v).err = s.err := rfl
@[simp] theorem setRle_br (s : State) (v : Option RleRun) : (s.setRle v).br = s.br := rfl
@[simp] theorem setRle_crc (s : State) (v : Option RleRun) : (s.setRle v).crc = s.crc := rfl
@[simp] theorem setRle_sum (s : State) (v : Option RleRun) : (s.setRle v).sum = s.sum := rfl
@[simp] theorem setRle_trk (s : State) (v : Option RleRun) : (s.setRle v).trk = s.trk := rfl
@[simp] theorem setRle_lzh (s : State) (v : Option RleRun) : (s.setRle v).lzh = s.lzh := rfl
@[simp] theorem setRle_mem (s : State) (v : Option RleRun) : (s.setRle v).mem = s.mem := rfl
@[simp] theorem setRle_rle (s : State) (v : Option RleRun) : (s.setRle v).rle = v := rfl
@[simp] theorem setRle_script (s : State) (v : Option RleRun) : (s.setRle v).script = s.script := rfl
@[simp] theorem setRle_replies (s : State) (v : Option RleRun) : (s.setRle v).replies = s.replies := rfl
@[simp] theorem setRle_freeCount (s : State) (v : Option RleRun) : (s.setRle v).freeCount = s.freeCount := rfl

@[simp] theorem setScript_cfg (s : State) (v : List HostAction) : (s.setScript v).cfg = s.cfg := rfl
@[simp] theorem setScript_x (s : State) (v : List HostAction) : (s.setScript v).x = s.x := rfl
@[simp] theorem setScript_err (s : State) (v : List HostAction) : (s.setScript v).err = s.err := rfl
@[simp] theorem setScript_br (s : State) (v : List HostAction) : (s.setScript v).br = s.br := rfl
@[simp] theorem setScript_crc (s : State) (v : List HostAction) : (s.setScript v).crc = s.crc := rfl
@[simp] theorem setScript_sum (s : State) (v : List HostAction) : (s.setScript v).sum = s.sum := rfl
@[simp] theorem setScript_trk (s : State) (v : List HostAction) : (s.setScript v).trk = s.trk := rfl
@[simp] theorem setScript_lzh (s : State) (v : List HostAction) : (s.setScript v).lzh = s.lzh := rfl
@[simp] theorem setScript_mem (s : State) (v : List HostAction) : (s.setScript v).mem = s.mem := rfl
@[simp] theorem setScript_rle (s : State) (v : List HostAction) : (s.setScript v).rle = s.rle := rfl
@[simp] theorem setScript_script (s : State) (v : List HostAction) : (s.setScript v).script = v := rfl
@[simp] theorem setScript_replies (s : State) (v : List HostAction) : (s.setScript v).replies = s.replies := rfl
@[simp] theorem setScript_freeCount (s : State) (v : List HostAction) : (s.setScript v).freeCount = s.freeCount := rfl

@[simp] theorem pushReply_cfg (s : State) (v : Reply) : (s.pushReply v).cfg = s.cfg := rfl
@[simp] theorem pushReply_x (s : State) (v : Reply) : (s.pushReply v).x = s.x := rfl
@[simp] theorem pushReply_err (s : State) (v : Reply) : (s.pushReply v).err = s.err := rfl
@[simp] theorem pushReply_br (s : State) (v : Reply) : (s.pushReply v).br = s.br := rfl
@[simp] theorem pushReply_crc (s : State) (v : Reply) : (s.pushReply v).crc = s.crc := rfl
@[simp] theorem pushReply_sum (s : State) (v : Reply) : (s.pushReply v).sum = s.sum := rfl
@[simp] theorem pushReply_trk (s : State) (v : Reply) : (s.pushReply v).trk = s.trk := rfl
@[simp] theorem pushReply_lzh (s : State) (v : Reply) : (s.pushReply v).lzh = s.lzh := rfl
@[simp] theorem pushReply_mem (s : State) (v : Reply) : (s.pushReply v).mem = s.mem := rfl
@[simp] theorem pushReply_rle (s : State) (v : Reply) : (s.pushReply v).rle = s.rle := rfl
@[simp] theorem pushReply_script (s : State) (v : Reply) : (s.pushReply v).script = s.script := rfl
@[simp] theorem pushReply_replies (s : State) (v : Reply) : (s.pushReply v).replies = v :: s.replies := rfl
@[simp] theorem pushReply_freeCount (s : State) (v : Reply) : (s.pushReply v).freeCount = s.freeCount := rfl

@[simp] theorem setRes0_cfg (s : State) (v : Word) : (s.setRes0 v).cfg = s.cfg := rfl
@[simp] theorem setRes0_x (s : State) (v : Word) : (s.setRes0 v).x = { s.x with res0 := v } := rfl
@[simp] theorem setRes0_err (s : State) (v : Word) : (s.setRes0 v).err = s.err := rfl
@[simp] theorem setRes0_br (s : State) (v : Word) : (s.setRes0 v).br = s.br := rfl
@[simp] theorem setRes0_crc (s : State) (v : Word) : (s.setRes0 v).crc = s.crc := rfl
@[simp] theorem setRes0_sum (s : State) (v : Word) : (s.setRes0 v).sum = s.sum := rfl
@[simp] theorem setRes0_trk (s : State) (v : Word) : (s.setRes0 v).trk = s.trk := rfl
@[simp] theorem setRes0_lzh (s : State) (v : Word) : (s.setRes0 v).lzh = s.lzh := rfl
@[simp] theorem setRes0_mem (s : State) (v : Word) : (s.setRes0 v).mem = s.mem := rfl
@[simp] theorem setRes0_rle (s : State) (v : Word) : (s.setRes0 v).rle = s.rle := rfl
@[simp] theorem setRes0_script (s : State) (v : Word) : (s.setRes0 v).script = s.script := rfl
@[simp] theorem setRes0_replies (s : State) (v : Word) : (s.setRes0 v).replies = s.replies := rfl
@[simp] theorem setRes0_freeCount (s : State) (v : Word) : (s.setRes0 v).freeCount = s.freeCount := rfl

@[simp] theorem setRes01_cfg (s : State) (a b : Word) : (s.setRes01 a b).cfg = s.cfg := rfl
@[simp] theorem setRes01_x (s : State) (a b : Word) : (s.setRes01 a b).x = { s.x with res0 := a, res1 := b } := rfl
@[simp] theorem setRes01_err (s : State) (a b : Word) : (s.setRes01 a b).err = s.err := rfl
@[simp] theorem setRes01_br (s : State) (a b : Word) : (s.setRes01 a b).br = s.br := rfl
@[simp] theorem setRes01_crc (s : State) (a b : Word) : (s.setRes01 a b).crc = s.crc := rfl
@[simp] theorem setRes01_sum (s : State) (a b : Word) : (s.setRes01 a b).sum = s.sum := rfl
@[simp] theorem setRes01_trk (s : State) (a b : Word) : (s.setRes01 a b).trk = s.trk := rfl
@[simp] theorem setRes01_lzh (s : State) (a b : Word) : (s.setRes01 a b).lzh = s.lzh := rfl
@[simp] theorem setRes01_mem (s : State) (a b : Word) : (s.setRes01 a b).mem = s.mem := rfl
@[simp] theorem setRes01_rle (s : State) (a b : Word) : (s.setRes01 a b).rle = s.rle := rfl
@[simp] theorem setRes01_script (s : State) (a b : Word) : (s.setRes01 a b).script = s.script := rfl
@[simp] theorem setRes01_replies (s : State) (a b : Word) : (s.setRes01 a b).replies = s.replies := rfl
@[simp] theorem setRes01_freeCount (s : State) (a b : Word) : (s.setRes01 a b).freeCount = s.freeCount := rfl

@[simp] theorem setRes012_cfg (s : State) (a b c : Word) : (s.setRes012 a b c).cfg = s.cfg := rfl
@[simp] theorem setRes012_x (s : State) (a b c : Word) : (s.setRes012 a b c).x = { s.x with res0 := a, res1 := b, res2 := c } := rfl
@[simp] theorem setRes012_err (s : State) (a b c : Word) : (s.setRes012 a b c).err = s.err := rfl
@[simp] theorem setRes012_br (s : State) (a b c : Word) : (s.setRes012 a b c).br = s.br := rfl
@[simp] theorem setRes012_crc (s : State) (a b c : Word) : (s.setRes012 a b c).crc = s.crc := rfl
@[simp] theorem setRes012_sum (s : State) (a b c : Word) : (s.setRes012 a b c).sum = s.sum := rfl
@[simp] theorem setRes012_trk (s : State) (a b c : Word) : (s.setRes012 a b c).trk = s.trk := rfl
@[simp] theorem setRes012_lzh (s : State) (a b c : Word) : (s.setRes012 a b c).lzh = s.lzh := rfl
@[simp] theorem setRes012_mem (s : State) (a b c : Word) : (s.setRes012 a b c).mem = s.mem := rfl
@[simp] theorem setRes012_rle (s : State) (a b c : Word) : (s.setRes012 a b c).rle = s.rle := rfl
@[simp] theorem setRes012_script (s : State) (a b c : Word) : (s.setRes012 a b c).script = s.script := rfl
@[simp] theorem setRes012_replies (s : State) (a b c : Word) : (s.setRes012 a b c).replies = s.replies := rfl
@[simp] theorem setRes012_freeCount (s : State) (a b c : Word) : (s.setRes012 a b c).freeCount = s.freeCount := rfl

@[simp] theorem forgetWindow_cfg (s : State) : s.forgetWindow.cfg = s.cfg := rfl
@[simp] theorem forgetWindow_x (s : State) : s.forgetWindow.x = s.x := rfl
@[simp] theorem forgetWindow_err (s : State) : s.forgetWindow.err = s.err := rfl
@[simp] theorem forgetWindow_br (s : State) : s.forgetWindow.br = s.br := rfl
@[simp] theorem forgetWindow_crc (s : State) : s.forgetWindow.crc = s.crc := rfl
@[simp] theorem forgetWindow_sum (s : State) : s.forgetWindow.sum = s.sum := rfl
@[simp] theorem forgetWindow_trk (s : State) : s.forgetWindow.trk = s.trk := rfl
@[simp] theorem forgetWindow_lzh (s : State) : s.forgetWindow.lzh = s.lzh := rfl
@[simp] theorem forgetWindow_mem (s : State) : s.forgetWindow.mem = Memory.forget s.mem s.x.dst.toNat s.x.dlen.toNat s.freeCount := rfl
@[simp] theorem forgetWindow_rle (s : State) : s.forgetWindow.rle = s.rle := rfl
@[simp] theorem forgetWindow_script (s : State) : s.forgetWindow.script = s.script := rfl
@[simp] theorem forgetWindow_replies (s : State) : s.forgetWindow.replies = s.replies := rfl
@[simp] theorem forgetWindow_freeCount (s : State) : s.forgetWindow.freeCount = s.freeCount + 1 := rfl

end Sys2Proof.Machine.State
end

