-- ==== Sys2Proof/Laws/Ops.lean ====
section
/-!
SUPPORT. The laws of the fault entry and of the return from it: what each can do, said once.
-/

namespace Sys2Proof.Machine

theorem raise_eq (s : State) (cmd : Word) (c : Cause) : raise s cmd c = .next (s.setErr (c.latch cmd)) := rfl

theorem clearFault_eq (s : State) : clearFault s = s.setErr FaultLatch.clear := rfl

/-- Fault entry answers a next state that differs from the old one in the latch only. -/
theorem raise_cases {s t : State} {cmd : Word} {c : Cause} (h : raise s cmd c = .next t) :
    t = s.setErr (c.latch cmd) := by
  rw [raise_eq] at h
  exact (Host.Outcome.next.inj h).symm

@[simp] theorem Cause.latch_code (c : Cause) (cmd : Word) : (c.latch cmd).code = c.code := rfl
@[simp] theorem Cause.latch_cmd (c : Cause) (cmd : Word) : (c.latch cmd).cmd = cmd := rfl
@[simp] theorem Cause.latch_got (c : Cause) (cmd : Word) : (c.latch cmd).got = c.got := rfl
@[simp] theorem Cause.latch_exp (c : Cause) (cmd : Word) : (c.latch cmd).exp = c.exp := rfl

/-- Every cause latches a code from 1 to 6. -/
theorem Cause.code_range (c : Cause) : 1 ≤ c.code.toNat ∧ c.code.toNat ≤ 6 := by
  cases c <;> simp [Cause.code]

theorem Cause.code_ne_zero (c : Cause) : c.code ≠ 0#4 := by
  cases c <;> simp [Cause.code]

/-- Only an IntegrityError records two values. -/
theorem Cause.got_exp_zero (c : Cause) (h : c.code ≠ 2#4) : c.got = 0#32 ∧ c.exp = 0#32 := by
  cases c <;> simp_all [Cause.code, Cause.got, Cause.exp]

/-- The causes that spoil the destination window are codes 1, 2 and 3. -/
theorem Cause.spoilsWindow_iff (c : Cause) : c.spoilsWindow = true ↔ c.code.toNat ≤ 3 := by
  cases c <;> simp [Cause.code, Cause.spoilsWindow]

/-- The memory that a spoiled window leaves: outside the window it is the old one, its form is kept, and
it lists nothing outside the window that was not listed. -/
theorem forgetWindow_memory (s : State) :
    (∀ a : Nat, ¬ (s.x.dst.toNat ≤ a ∧ a < s.x.dst.toNat + s.x.dlen.toNat) →
      s.forgetWindow.mem.read a = s.mem.read a) ∧
    (Memory.wf s.mem → Memory.wf s.forgetWindow.mem) ∧
    (∀ c ∈ s.forgetWindow.mem,
      (s.x.dst.toNat ≤ c.1 ∧ c.1 < s.x.dst.toNat + s.x.dlen.toNat) ∨ c ∈ s.mem) :=
  ⟨fun a h => Memory.read_forget_outside _ _ _ _ a h, Memory.wf_forget _ _ _ _,
    fun c h => Memory.mem_forget _ _ _ _ c h⟩

/-- All that the fault entry of a command with a destination window can do. -/
theorem raiseInWindow_spec (s : State) (cmd : Word) (c : Cause) :
    ∃ (m : Memory) (k : Nat),
      raiseInWindow s cmd c = .next { s with mem := m, freeCount := k, err := c.latch cmd } ∧
      (∀ a : Nat, ¬ (s.x.dst.toNat ≤ a ∧ a < s.x.dst.toNat + s.x.dlen.toNat) → m.read a = s.mem.read a) ∧
      (c.spoilsWindow = false → m = s.mem) ∧ (Memory.wf s.mem → Memory.wf m) ∧
      (∀ d ∈ m, (s.x.dst.toNat ≤ d.1 ∧ d.1 < s.x.dst.toNat + s.x.dlen.toNat) ∨ d ∈ s.mem) := by
  unfold raiseInWindow
  by_cases hc : c.spoilsWindow = true
  · obtain ⟨h1, h2, h3⟩ := forgetWindow_memory s
    exact ⟨s.forgetWindow.mem, s.freeCount + 1, by rw [if_pos hc]; rfl, h1, by simp [hc], h2, h3⟩
  · exact ⟨s.mem, s.freeCount, by rw [if_neg hc]; rfl, fun _ _ => rfl, fun _ => rfl, id, fun _ h => .inr h⟩

/-- The reset event keeps memory, the parameters and the host's own lists. -/
theorem blockReset_keeps (s : State) : s.blockReset.mem = s.mem ∧ s.blockReset.cfg = s.cfg ∧
    s.blockReset.script = s.script ∧ s.blockReset.replies = s.replies := ⟨rfl, rfl, rfl, rfl⟩

end Sys2Proof.Machine
end

