-- ==== Sys2Proof/Laws/BitReader.lean ====
section
/-!
SUPPORT. The laws of the bit-stream reader: how a value is assembled, and all that each command can do.
-/

namespace Sys2Proof.Machine

theorem shiftIn_snoc (bs : List Bool) (b : Bool) : shiftIn (bs ++ [b]) = 2 * shiftIn bs + b.toNat := by
  simp [shiftIn]

theorem weighBits_append (as bs : List Bool) :
    weighBits (as ++ bs) = weighBits as + 2 ^ as.length * weighBits bs := by
  induction as with
  | nil => simp [weighBits]
  | cons a as ih => simp only [List.cons_append, weighBits, ih, List.length_cons, pow_succ]; ring

theorem shiftIn_append (as bs : List Bool) :
    shiftIn (as ++ bs) = 2 ^ bs.length * shiftIn as + shiftIn bs := by
  induction bs using List.reverseRecOn with
  | nil => simp [shiftIn]
  | append_singleton bs b ih =>
    rw [← List.append_assoc, shiftIn_snoc, ih, shiftIn_snoc, List.length_append, List.length_singleton, pow_succ]
    ring

theorem shiftIn_lt (bs : List Bool) : shiftIn bs < 2 ^ bs.length := by
  induction bs using List.reverseRecOn with
  | nil => simp [shiftIn]
  | append_singleton bs b ih =>
    rw [shiftIn_snoc, List.length_append, List.length_singleton, pow_succ]
    have := Bool.toNat_le b
    omega

theorem weighBits_lt (bs : List Bool) : weighBits bs < 2 ^ bs.length := by
  induction bs with
  | nil => simp [weighBits]
  | cons b bs ih =>
    rw [weighBits, List.length_cons, pow_succ]
    have := Bool.toNat_le b
    omega

@[simp] theorem brBits_length (s : State) (n : Nat) : (s.brBits n).length = n := by simp [State.brBits]

/-- The bits of a read are those of a shorter read and then those that follow. -/
theorem brBits_add (s : State) (m n : Nat) :
    s.brBits (m + n) = s.brBits m ++ (List.range n).map (fun i => s.brBit (s.br.pos.toNat + m + i)) := by
  simp [State.brBits, List.range_add, Nat.add_assoc]

/-- The assembled value fits in the bits it was assembled from. -/
theorem assemble_lt (o : BitOrder) (asm : Config.LsbAssembly) (bs : List Bool) :
    assemble o asm bs < 2 ^ bs.length := by
  cases o with
  | msbFirst => exact shiftIn_lt bs
  | lsbFirst =>
    cases asm with
    | lsbToLsb => exact weighBits_lt bs
    | shiftLeft => exact shiftIn_lt bs

/-- A bit depends on memory and the binding only. -/
theorem brBit_congr {s t : State} (hb : t.br.base = s.br.base) (hm : t.br.mode = s.br.mode) (hmem : t.mem = s.mem)
    (p : Nat) : t.brBit p = s.brBit p := by
  simp only [State.brBit, hb, hm, hmem]

/-- All that a bit read can do: one of two faults, or the advance and the result. -/
theorem brRead_cases {cmd : Word} {n : Nat} {value : Nat → Word} {s t : State} (h : brRead cmd n value s = .next t) :
    (∃ c : Cause, (c = .illegal ∨ c = .overrun) ∧ t = s.setErr (c.latch cmd)) ∨
    (n ≤ Config.brNMax ∧ s.brFits n ∧
      t = (s.setBr { s.br with pos := BitVec.ofNat 32 (s.br.pos.toNat + n) }).setRes0 (value (s.readUnsigned n))) := by
  unfold brRead at h
  split at h
  · exact .inl ⟨_, .inl rfl, raise_cases h⟩
  · split at h
    · exact .inl ⟨_, .inr rfl, raise_cases h⟩
    · rename_i h1 h2
      split at h
      · cases h
      · exact .inr ⟨by omega, by simpa using h2, (Host.Outcome.next.inj h).symm⟩

/-- A bit read that fits answers the advance and the result. -/
theorem brRead_fits {cmd : Word} {n : Nat} {value : Nat → Word} {s : State} (hn : n ≤ Config.brNMax) (hf : s.brFits n)
    (hb : s.br.base.toNat + s.br.len.toNat ≤ s.cfg.memBytes) :
    brRead cmd n value s =
      .next ((s.setBr { s.br with pos := BitVec.ofNat 32 (s.br.pos.toNat + n) }).setRes0 (value (s.readUnsigned n))) := by
  have h3 : ¬ (n ≠ 0 ∧ s.cfg.memBytes ≤ s.brLastAddr n) := by
    unfold State.brLastAddr
    unfold State.brFits at hf
    omega
  rw [brRead, if_neg (by omega), if_neg (by simpa using hf), if_neg h3]

theorem execBrBind_cases {o : BitOrder} {s t : State} (h : execBrBind o s = .next t) :
    t = s.setErr (Cause.operand.latch (faultWord (.brBind o))) ∨
    (s.srcInMem ∧ s.x.slen.toNat ≤ Config.brLenMax ∧
      t = s.setBr { base := s.x.src, len := s.x.slen.setWidth 29, pos := 0#32, mode := o }) := by
  unfold execBrBind at h
  split at h
  · exact .inl (raise_cases h)
  · split at h
    · exact .inl (raise_cases h)
    · rename_i h1 h2
      exact .inr ⟨by simpa using h1, by omega, (Host.Outcome.next.inj h).symm⟩
end Sys2Proof.Machine
end

