-- ==== Sys2Proof/Laws/Operands.lean ====
section
/-!
SUPPORT. The laws of the source buffer and of byte assembly.
-/

namespace Sys2Proof.Machine

theorem srcBytes_length (s : State) (o n : Nat) : (s.srcBytes o n).length = n := by simp [State.srcBytes]

theorem window_length (s : State) : s.window.length = s.x.slen.toNat := srcBytes_length s 0 _

/-- A slice of the source buffer is a shorter slice and then the bytes that follow. -/
theorem srcBytes_add (s : State) (o m n : Nat) : s.srcBytes o (m + n) = s.srcBytes o m ++ s.srcBytes (o + m) n := by
  simp [State.srcBytes, List.range_add, Nat.add_assoc]

/-- The source buffer depends on `SRC` and memory only. -/
theorem srcByte_congr {s t : State} (hx : t.x.src = s.x.src) (hm : t.mem = s.mem) : t.srcByte = s.srcByte := by
  funext o
  simp only [State.srcByte, hx, hm]

theorem srcBytes_congr {s t : State} (h : t.srcByte = s.srcByte) (o n : Nat) : t.srcBytes o n = s.srcBytes o n := by
  simp only [State.srcBytes, h]

theorem be16_lt (B : Nat → Byte) (o : Nat) : be16 B o < 65536 := by
  have h1 := (B o).isLt
  have h2 := (B (o + 1)).isLt
  unfold be16
  omega

theorem le16_lt (B : Nat → Byte) (o : Nat) : le16 B o < 65536 := by
  have h1 := (B o).isLt
  have h2 := (B (o + 1)).isLt
  unfold le16
  omega

theorem le32_lt (B : Nat → Byte) (o : Nat) : le32 B o < 4294967296 := by
  have h1 := (B o).isLt
  have h2 := (B (o + 1)).isLt
  have h3 := (B (o + 2)).isLt
  have h4 := (B (o + 3)).isLt
  unfold le32
  omega

theorem be32_lt (B : Nat → Byte) (o : Nat) : be32 B o < 4294967296 := by
  have h1 := (B o).isLt
  have h2 := (B (o + 1)).isLt
  have h3 := (B (o + 2)).isLt
  have h4 := (B (o + 3)).isLt
  unfold be32
  omega

theorem leField_lt (B : Nat → Byte) (W o : Nat) : leField B W o < 4294967296 := by
  have h1 := le16_lt B o
  have h2 := le32_lt B o
  unfold leField
  split <;> omega

end Sys2Proof.Machine
end

