-- ==== Sys2Proof/Laws/Lzh.lean ====
section
/-!
SUPPORT. The laws of the LZH entry pipeline: what a walk of the chain and a parse guarantee, and all that each command can do.
-/

namespace Sys2Proof.Machine

theorem extElement_zero (B : Nat → Byte) (len W p F : Nat) (h : blockFits len W p F) :
    extElement B len W 0 p F =
      .ok ((B p).setWidth 32, BitVec.ofNat 32 (p + 1), BitVec.ofNat 32 (F - 1 - W)) := by
  simp [extElement, h.1, h.2]

theorem extElement_succ (B : Nat → Byte) (len W k p F : Nat) (h : blockFits len W p F) :
    extElement B len W (k + 1) p F = extElement B len W k (p + F) (nextForward B W p F) := by
  simp [extElement, h.1, h.2]

/-- What a walk from `p` with forward length `F` adds to the chain `c` when it ends in `d`. -/
structure Walked (B : Nat → Byte) (len W : Nat) (names : Bool) (p F : Nat) (c d : Chain) : Prop where
  firstOff : d.firstOff = c.firstOff
  firstFwd : d.firstFwd = c.firstFwd
  ext      : c.ext ≤ d.ext
  cnt      : c.cnt ≤ d.cnt
  blocks   : c.ext + 3 * (d.cnt - c.cnt) ≤ d.ext
  inside   : d.ext = c.ext ∨ p + (d.ext - c.ext) ≤ len
  nothing  : F = 0 → d = c
  nonempty : F ≠ 0 → c.cnt < d.cnt ∧ F ≤ len
  names    : names = false → d.name = c.name ∧ d.dir = c.dir
  hcrc     : (∀ x, c.hcrc = some x → x < 65536) → ∀ x, d.hcrc = some x → x < 65536
  again    : ∀ k, k < d.cnt - c.cnt → ∃ tag off n, extElement B len W k p F = .ok (tag, off, n) ∧
    (len < 4294967296 → off.toNat + n.toNat ≤ len)

/-- A walk of no block. -/
theorem Walked.refl (B : Nat → Byte) (len W : Nat) (names : Bool) (p : Nat) (c : Chain) :
    Walked B len W names p 0 c c where
  firstOff := rfl
  firstFwd := rfl
  ext := Nat.le_refl _
  cnt := Nat.le_refl _
  blocks := by omega
  inside := .inl rfl
  nothing := fun _ => rfl
  nonempty := fun h => absurd rfl h
  names := fun _ => ⟨rfl, rfl⟩
  hcrc := id
  again := fun k hk => by omega

/-- A walk of one more block in front. -/
theorem Walked.cons {B : Nat → Byte} {len W : Nat} {names : Bool} {p F : Nat} {c d : Chain} (hW : 2 ≤ W)
    (hfit : blockFits len W p F)
    (h : Walked B len W names (p + F) (nextForward B W p F) (c.addBlock B W names p F) d) :
    Walked B len W names p F c d := by
  obtain ⟨a1, a2, a3, a4, a5, a6, a7, a8, a9, a10, a11⟩ := h
  have e1 : (c.addBlock B W names p F).ext = c.ext + F := rfl
  have e2 : (c.addBlock B W names p F).cnt = c.cnt + 1 := rfl
  rw [e1] at a3 a5 a6
  rw [e2] at a4 a5 a8 a11
  refine ⟨a1, a2, by omega, by omega, by omega, .inr (by omega), fun h0 => by omega, fun _ => by omega, ?_, ?_, ?_⟩
  · intro hn
    obtain ⟨b1, b2⟩ := a9 hn
    subst hn
    exact ⟨by rw [b1]; simp [Chain.addBlock], by rw [b2]; simp [Chain.addBlock]⟩
  · intro hc
    apply a10
    intro x hx
    simp only [Chain.addBlock] at hx
    split at hx
    · cases hx; exact le16_lt B _
    · exact hc x hx
  · intro k hk
    cases k with
    | zero =>
      refine ⟨_, _, _, extElement_zero B len W p F hfit, fun hl => ?_⟩
      simp only [BitVec.toNat_ofNat]
      omega
    | succ k => rw [extElement_succ B len W k p F hfit]; exact a11 k (by omega)

/-- Induction over a successful walk: a property of the chain that every fitting block keeps holds at
the end. -/
theorem walkLoop_induct {B : Nat → Byte} {len W : Nat} {names : Bool} {P : Nat → Nat → Chain → Chain → Prop}
    (stop : ∀ p c, P p 0 c c)
    (next : ∀ p F c d, blockFits len W p F → P (p + F) (nextForward B W p F) (c.addBlock B W names p F) d → P p F c d) :
    ∀ {fuel p F : Nat} {c d : Chain}, walkLoop B len W names fuel p F c = .ok d → P p F c d := by
  intro fuel
  induction fuel with
  | zero =>
    intro p F c d h
    rw [walkLoop] at h
    split at h
    · cases h; subst F; exact stop p c
    · cases h
  | succ fuel ih =>
    intro p F c d h
    rw [walkLoop] at h
    split at h
    · cases h; subst F; exact stop p c
    · split at h
      · cases h
      · split at h
        · cases h
        · exact next p F c d (not_not.mp ‹_›) (ih h)

theorem walkLoop_walked {B : Nat → Byte} {len W : Nat} {names : Bool} (hW : 2 ≤ W) {fuel p F : Nat} {c d : Chain}
    (h : walkLoop B len W names fuel p F c = .ok d) : Walked B len W names p F c d :=
  walkLoop_induct (P := Walked B len W names) (Walked.refl B len W names)
    (fun _ _ _ _ hfit h => Walked.cons hW hfit h) h

/-- A walk faults in StructuralError only. -/
theorem walkLoop_error {B : Nat → Byte} {len W : Nat} {names : Bool} : ∀ {fuel p F : Nat} {c : Chain} {e : Cause},
    walkLoop B len W names fuel p F c = .error e → e = .structural := by
  intro fuel
  induction fuel with
  | zero => intro p F c e h; rw [walkLoop] at h; split at h <;> cases h; rfl
  | succ fuel ih =>
    intro p F c e h
    rw [walkLoop] at h
    split at h
    · cases h
    · split at h
      · cases h; rfl
      · split at h
        · cases h; rfl
        · exact ih h

/-- A whole chain as `WalkExt` returns it. -/
theorem walkExt_walked {B : Nat → Byte} {len p F W : Nat} {names : Bool} {d : Chain} (hW : 2 ≤ W)
    (h : walkExt B len p F W names = .ok d) :
    Walked B len W names p F { Chain.empty with firstOff := if F = 0 then 0 else p, firstFwd := F } d :=
  walkLoop_walked hW h

/-- What the level-dependent part of a parse guarantees (R193 to R200), whatever the level. -/
structure Header.Ok (B : Nat → Byte) (len X e : Nat) (h : Header) : Prop where
  level : (B (e + 20)).toNat ≤ 3
  longest : 24 ≤ h.hdr
  chainIn : h.chain.ext ≤ h.hdr
  blocks : 3 * h.chain.cnt ≤ h.chain.ext
  ucrc : h.ucrc < 65536
  hcrc : ∀ x, h.chain.hcrc = some x → x < 65536
  noChain : h.chain.cnt = 0 → h.chain.ext = 0 ∧ h.chain.firstOff = 0 ∧ h.chain.firstFwd = 0
  level0 : (B (e + 20)).toNat = 0 → h.chain.cnt = 0
  again : ∀ k, k < h.chain.cnt → ∃ tag off n,
    extElement B len (if (B (e + 20)).toNat = 3 then 4 else 2) k h.chain.firstOff h.chain.firstFwd = .ok (tag, off, n) ∧
      (len < 4294967296 → off.toNat + n.toNat ≤ len)
  first : h.chain.cnt ≠ 0 → h.chain.firstOff + h.chain.ext ≤ len ∧ h.chain.firstFwd ≤ len

/-- The chain part of `Header.Ok` from a walk. -/
theorem Walked.whole {B : Nat → Byte} {len W : Nat} {names : Bool} {p F : Nat} {d : Chain}
    (h : Walked B len W names p F { Chain.empty with firstOff := if F = 0 then 0 else p, firstFwd := F } d) :
    3 * d.cnt ≤ d.ext ∧ (∀ x, d.hcrc = some x → x < 65536) ∧
      (d.cnt = 0 → d.ext = 0 ∧ d.firstOff = 0 ∧ d.firstFwd = 0) ∧
      (d.cnt ≠ 0 → d.firstOff + d.ext ≤ len ∧ d.firstFwd ≤ len) ∧
      (∀ k, k < d.cnt → ∃ tag off n, extElement B len W k d.firstOff d.firstFwd = .ok (tag, off, n) ∧
        (len < 4294967296 → off.toNat + n.toNat ≤ len)) := by
  obtain ⟨a1, a2, a3, a4, a5, a6, a7, a8, a9, a10, a11⟩ := h
  have e1 : Chain.empty.ext = 0 := rfl
  have e2 : Chain.empty.cnt = 0 := rfl
  simp only [e1, e2] at a1 a2 a3 a4 a5 a6 a7 a8 a9 a10 a11
  by_cases hF : F = 0
  · have hd := a7 hF
    subst hd
    refine ⟨by simp, a10 (by simp [Chain.empty]), fun _ => ⟨rfl, by simp [hF], by simp [hF]⟩, ?_, ?_⟩
    · intro h; exact absurd e2 h
    · intro k hk; exact absurd hk (by simp)
  · obtain ⟨b1, b2⟩ := a8 hF
    simp only [if_neg hF] at a1
    refine ⟨by omega, a10 (by simp [Chain.empty]), fun h => by omega, fun _ => ⟨by omega, by omega⟩, ?_⟩
    intro k hk
    rw [a1, a2]
    exact a11 k (by omega)

theorem parseLevel0_ok {B : Nat → Byte} {len X e : Nat} {h : Header} (hl : (B (e + 20)).toNat = 0)
    (hp : parseLevel0 B len e = .ok h) : h.Ok B len X e := by
  unfold parseLevel0 at hp
  repeat' split at hp
  all_goals first | cases hp; done | skip
  cases hp
  refine ⟨by omega, by simpa using ‹¬ baseLength B e < 24›, by simp [Chain.empty], by simp [Chain.empty], le16_lt B _,
    by simp [Chain.empty], fun _ => ⟨rfl, rfl, rfl⟩, fun _ => rfl, fun k hk => absurd hk (by simp [Chain.empty]),
    fun h => absurd rfl h⟩

theorem parseLevel1_ok {B : Nat → Byte} {len X e : Nat} {h : Header} (hl : (B (e + 20)).toNat = 1)
    (hp : parseLevel1 B len e = .ok h) : h.Ok B len X e := by
  unfold parseLevel1 at hp
  split at hp
  · cases hp
  · split at hp
    · cases hp
    · split at hp
      · cases hp
      · cases hw : walkExt B len (e + baseLength B e) (le16 B (e + baseLength B e - 2)) 2 false with
        | error c => rw [hw] at hp; cases hp
        | ok ch =>
          rw [hw] at hp
          simp only at hp
          split at hp
          · cases hp
          · cases hp
            obtain ⟨w1, w2, w3, w4, w5⟩ := (walkExt_walked (by omega) hw).whole
            refine ⟨by omega, ?_, ?_, w1, le16_lt B _, w2, w3, fun h => by omega, ?_, w4⟩
            · simp only; omega
            · simp only; omega
            · rw [hl]; exact w5

theorem parseLevel2_ok {B : Nat → Byte} {len X e : Nat} {h : Header} (hl : (B (e + 20)).toNat = 2)
    (hp : parseLevel2 B len e = .ok h) : h.Ok B len X e := by
  unfold parseLevel2 at hp
  split at hp
  · cases hp
  · split at hp
    · cases hp
    · split at hp
      · cases hp
      · cases hw : walkExt B len (e + Config.lzhL2Fixed) (le16 B (e + 24)) 2 true with
        | error c => rw [hw] at hp; cases hp
        | ok ch =>
          rw [hw] at hp
          simp only at hp
          split at hp
          · cases hp
          · cases hp
            have hL : Config.lzhL2Fixed = 26 := rfl
            obtain ⟨w1, w2, w3, w4, w5⟩ := (walkExt_walked (by omega) hw).whole
            refine ⟨by omega, ?_, ?_, w1, le16_lt B _, w2, w3, fun h => by omega, ?_, w4⟩
            · simp only; omega
            · simp only; omega
            · rw [hl]; exact w5

theorem parseLevel3_ok {B : Nat → Byte} {len X e : Nat} {h : Header} (hX : 24 ≤ X) (hl : (B (e + 20)).toNat = 3)
    (hp : parseLevel3 B len X e = .ok h) : h.Ok B len X e := by
  unfold parseLevel3 at hp
  split at hp
  · cases hp
  · cases hw : walkExt B len (e + X) (le32 B (e + X - 4)) 4 true with
    | error c => rw [hw] at hp; cases hp
    | ok ch =>
      rw [hw] at hp
      cases hp
      obtain ⟨w1, w2, w3, w4, w5⟩ := (walkExt_walked (by omega) hw).whole
      refine ⟨by omega, ?_, ?_, w1, le16_lt B _, w2, w3, fun h => by omega, ?_, w4⟩
      · simp only; omega
      · simp only; omega
      · rw [hl]; exact w5

theorem parseHeader_ok {B : Nat → Byte} {len X e : Nat} {h : Header} (hX : 24 ≤ X)
    (hp : parseHeader B len X e = .ok h) : h.Ok B len X e := by
  unfold parseHeader at hp
  split at hp
  · cases hp
  · have hoff : Config.lzhLevelOff = 20 := rfl
    rw [hoff] at hp
    split at hp
    · exact parseLevel0_ok ‹_› hp
    · exact parseLevel1_ok ‹_› hp
    · exact parseLevel2_ok ‹_› hp
    · exact parseLevel3_ok hX ‹_› hp
    · cases hp

theorem l3Fixed_range (p : Config.Params) : 31 ≤ p.l3Fixed ∧ p.l3Fixed ≤ 32 := by
  unfold Config.Params.l3Fixed
  split <;> omega

/-- A parsed entry is a checked header whose payload ends inside the window. -/
theorem entryHere_ok {s : State} {r : Entry} (h : s.entryHere = .ok r) :
    ∃ hd : Header, hd.Ok s.srcByte s.x.slen.toNat s.cfg.l3Fixed s.x.aux.toNat ∧
      s.x.aux.toNat + hd.hdr + hd.packed ≤ s.x.slen.toNat ∧
      r = entryOf s.x.aux.toNat (s.srcByte (s.x.aux.toNat + 20)) hd := by
  unfold State.entryHere parseEntry at h
  cases hp : parseHeader s.srcByte s.x.slen.toNat s.cfg.l3Fixed s.x.aux.toNat with
  | error c => rw [hp] at h; cases h
  | ok hd =>
    rw [hp] at h
    simp only at h
    split at h
    · cases h
    · cases h
      have := l3Fixed_range s.cfg
      exact ⟨hd, parseHeader_ok (by omega) hp, by omega, rfl⟩

/-- The parse faults in StructuralError only. -/
theorem entryHere_error {s : State} {c : Cause} (h : s.entryHere = .error c) : c = .structural := by
  unfold State.entryHere parseEntry at h
  have hh : ∀ {B : Nat → Byte} {len X e : Nat} {c : Cause}, parseHeader B len X e = .error c → c = .structural := by
    intro B len X e c h
    unfold parseHeader at h
    split at h
    · cases h; rfl
    · split at h
      · unfold parseLevel0 at h; repeat' split at h
        all_goals cases h
        all_goals rfl
      · unfold parseLevel1 at h; repeat' split at h
        all_goals cases h
        all_goals first | rfl | exact walkLoop_error ‹_›
      · unfold parseLevel2 at h; repeat' split at h
        all_goals cases h
        all_goals first | rfl | exact walkLoop_error ‹_›
      · unfold parseLevel3 at h; repeat' split at h
        all_goals cases h
        all_goals first | rfl | exact walkLoop_error ‹_›
      · cases h; rfl
  split at h
  · cases h; exact hh ‹_›
  · split at h
    · cases h; rfl
    · cases h

/-- All that `LZH.PARSE` can do. -/
theorem execLzhParse_cases {s t : State} (h : execLzhParse s = .next t) :
    (∃ c : Cause, (c = .operand ∨ c = .structural) ∧ t = s.setErr (c.latch (faultWord .lzhParse))) ∨
    (s.srcInMem ∧ ∃ r : Entry, s.entryHere = .ok r ∧ t = (s.setLzh r).setRes012 r.last r.pay r.packed) := by
  unfold execLzhParse at h
  split at h
  · exact .inl ⟨_, .inl rfl, raise_cases h⟩
  · cases hr : s.entryHere with
    | error c => rw [hr] at h; exact .inl ⟨c, .inr (entryHere_error hr), raise_cases h⟩
    | ok r => rw [hr] at h; exact .inr ⟨not_not.mp ‹_›, r, rfl, (Host.Outcome.next.inj h).symm⟩

/-- A walk to one block faults in StructuralError only. -/
theorem extElement_error {B : Nat → Byte} {len W : Nat} : ∀ {k p F : Nat} {c : Cause},
    extElement B len W k p F = .error c → c = .structural := by
  intro k
  induction k with
  | zero =>
    intro p F c h
    by_cases hf : blockFits len W p F
    · rw [extElement_zero B len W p F hf] at h; cases h
    · rw [extElement, if_pos hf] at h; cases h; rfl
  | succ k ih =>
    intro p F c h
    by_cases hf : blockFits len W p F
    · rw [extElement_succ B len W k p F hf] at h; exact ih h
    · rw [extElement, if_pos hf] at h; cases h; rfl

/-- All that `LZH.EXT` can do. -/
theorem execLzhExt_cases {s t : State} (h : execLzhExt s = .next t) :
    (∃ c : Cause, (c = .operand ∨ c = .structural) ∧ t = s.setErr (c.latch (faultWord .lzhExt))) ∨
    (∃ a b c : Word, t = s.setRes012 a b c) := by
  unfold execLzhExt at h
  split at h
  · exact .inl ⟨_, .inl rfl, raise_cases h⟩
  · split at h
    · exact .inl ⟨_, .inl rfl, raise_cases h⟩
    · split at h
      · exact .inr ⟨_, _, _, (Host.Outcome.next.inj h).symm⟩
      · split at h
        · exact .inl ⟨_, .inr (extElement_error ‹_›), raise_cases h⟩
        · exact .inr ⟨_, _, _, (Host.Outcome.next.inj h).symm⟩

/-- All that `LZH.CRC` can do. -/
theorem execLzhCrc_cases {s t : State} (h : execLzhCrc s = .next t) :
    (∃ c : Cause, c.code ≠ 3#4 ∧ t = s.setErr (c.latch (faultWord .lzhCrc))) ∨
    (s.lzh.valid = true ∧ s.srcInMem ∧ crc16 s.lzhPayload Config.crcInit = s.lzh.ucrc ∧
      t = s.setRes0 ((crc16 s.lzhPayload Config.crcInit).setWidth 32)) := by
  unfold execLzhCrc at h
  split at h
  · exact .inl ⟨_, by simp [Cause.code], raise_cases h⟩
  · split at h
    · exact .inl ⟨_, by simp [Cause.code], raise_cases h⟩
    · split at h
      · exact .inl ⟨_, by simp [Cause.code], raise_cases h⟩
      · split at h
        · exact .inl ⟨_, by simp [Cause.code], raise_cases h⟩
        · refine .inr ⟨?_, not_not.mp ‹_›, not_not.mp ‹_›, (Host.Outcome.next.inj h).symm⟩
          simpa using ‹¬ s.lzh.valid = false›

end Sys2Proof.Machine
end

