-- ==== Sys2Proof/Laws/Chain.lean ====
section
/-!
SUPPORT. The laws of an extended-header chain laid out as data: a walk over it finds its blocks.
-/

namespace Sys2Proof.Machine

theorem chainSize_cons (W : Nat) (b : ExtBlock) (bs : List ExtBlock) :
    chainSize W (b :: bs) = b.size W + chainSize W bs := by simp [chainSize]

/-- The last occurrence of a tag wins (R198). -/
theorem lastSlice_cons (W : Nat) (tag : Byte) (p : Nat) (b : ExtBlock) (bs : List ExtBlock) :
    lastSlice W tag p (b :: bs) =
      (lastSlice W tag (p + b.size W) bs).or (if b.tag = tag then some (p + 1, b.data.length) else none) := by
  rw [lastSlice]
  cases lastSlice W tag (p + b.size W) bs <;> rfl

/-- Every block is at least one byte long. -/
theorem length_le_chainSize (W : Nat) (bs : List ExtBlock) : bs.length ≤ chainSize W bs := by
  induction bs with
  | nil => simp
  | cons b bs ih =>
    rw [chainSize_cons, List.length_cons, ExtBlock.size]
    omega

/-- A chain announced by 0 is empty, and the other way round. -/
theorem ChainAt.zero_iff {B : Nat → Byte} {W p F : Nat} {bs : List ExtBlock} (h : ChainAt B W p F bs) :
    F = 0 ↔ bs = [] := by
  cases bs with
  | nil => simpa [ChainAt] using h
  | cons b bs =>
    have h1 : F = 1 + b.data.length + W := h.1
    simp
    omega

/-- A recorded slice lies in the chain. -/
theorem lastSlice_inside {W : Nat} {tag : Byte} : ∀ {bs : List ExtBlock} {p : Nat} {x : Nat × Nat},
    lastSlice W tag p bs = some x → p < x.1 ∧ x.1 + x.2 ≤ p + chainSize W bs := by
  intro bs
  induction bs with
  | nil => intro p x h; cases h
  | cons b bs ih =>
    intro p x h
    have hs : b.size W = 1 + b.data.length + W := rfl
    rw [chainSize_cons]
    rw [lastSlice] at h
    split at h
    · rename_i r hr
      cases h
      have := ih hr
      omega
    · split at h
      · cases h
        constructor <;> simp only <;> omega
      · cases h

/-- A walk over a chain that lies in the buffer finds its blocks (R104, R198). -/
theorem walkLoop_chain {B : Nat → Byte} {len W : Nat} {names : Bool} :
    ∀ (bs : List ExtBlock) (fuel p F : Nat) (c : Chain), ChainAt B W p F bs →
      (∀ b ∈ bs, b.tag = 0#8 → 2 ≤ b.data.length) → p + chainSize W bs ≤ len → bs.length ≤ fuel →
      walkLoop B len W names fuel p F c = .ok { c with
        ext := c.ext + chainSize W bs, cnt := c.cnt + bs.length,
        hcrc := ((lastSlice W 0#8 p bs).map (fun q => le16 B q.1)).or c.hcrc,
        name := if names then (lastSlice W 1#8 p bs).or c.name else c.name,
        dir := if names then (lastSlice W 2#8 p bs).or c.dir else c.dir } := by
  intro bs
  induction bs with
  | nil =>
    intro fuel p F c h _ _ _
    simp only [ChainAt] at h
    subst h
    cases fuel <;> simp [walkLoop, chainSize, lastSlice]
  | cons b bs ih =>
    intro fuel p F c h ht hl hf
    obtain ⟨f, rfl⟩ : ∃ f, fuel = f + 1 := ⟨fuel - 1, by simp at hf; omega⟩
    obtain ⟨h1, h2, h3, h4⟩ := h
    rw [chainSize_cons] at hl
    have hsz : b.size W = 1 + b.data.length + W := rfl
    have hfit : blockFits len W p F := by unfold blockFits; omega
    rw [walkLoop, if_neg (by omega), if_neg (not_not.mpr hfit), if_neg]
    · rw [ih f (p + F) _ _ h4 (fun b hb => ht b (List.mem_cons_of_mem _ hb)) (by omega) (by simpa using hf)]
      have hF : F - 1 - W = b.data.length := by omega
      have hcnt : c.cnt + 1 + bs.length = c.cnt + (bs.length + 1) := by omega
      simp only [Chain.addBlock, chainSize_cons, lastSlice_cons, h2, hF, ← h1, List.length_cons, hcnt,
        Nat.add_assoc, Option.map_or, Option.or_assoc]
      congr 2
      · congr 1
        split <;> simp
      · cases names <;> by_cases hb : b.tag = 1#8 <;> simp [hb]
      · cases names <;> by_cases hb : b.tag = 2#8 <;> simp [hb]
    · rintro ⟨hz, hz2⟩
      have := ht b (by simp) (h2 ▸ hz)
      omega

theorem walkExt_chain {B : Nat → Byte} {len W p F : Nat} {names : Bool} {bs : List ExtBlock} (h : ChainAt B W p F bs)
    (ht : ∀ b ∈ bs, b.tag = 0#8 → 2 ≤ b.data.length) (hl : p + chainSize W bs ≤ len) :
    walkExt B len p F W names = .ok
      { ext := chainSize W bs, cnt := bs.length, firstOff := if bs = [] then 0 else p, firstFwd := F,
        hcrc := (lastSlice W 0#8 p bs).map (fun q => le16 B q.1),
        name := if names then lastSlice W 1#8 p bs else none,
        dir := if names then lastSlice W 2#8 p bs else none } := by
  have hn := length_le_chainSize W bs
  rw [walkExt, walkLoop_chain bs len p F _ h ht hl (by omega)]
  simp [Chain.empty, h.zero_iff]

/-- A chain with a block that R198 rejects cannot be walked. -/
theorem walkLoop_broken {B : Nat → Byte} {len W : Nat} {names : Bool} : ∀ {fuel p F : Nat} {c : Chain},
    ChainBroken B len W p F → walkLoop B len W names fuel p F c = .error .structural := by
  intro fuel
  induction fuel with
  | zero =>
    intro p F c h
    obtain ⟨j, h1, _⟩ := h
    have hF : F ≠ 0 := h1 0 (Nat.zero_le j)
    rw [walkLoop, if_neg hF]
  | succ fuel ih =>
    intro p F c h
    obtain ⟨j, h1, h2⟩ := h
    have hF : F ≠ 0 := h1 0 (Nat.zero_le j)
    rw [walkLoop, if_neg hF]
    split
    · rfl
    · rename_i hfit
      split
      · rfl
      · rename_i htag
        cases j with
        | zero =>
          simp only [chainBlock] at h2
          rw [not_not] at hfit
          obtain ⟨hmin, hin⟩ := hfit
          rcases h2 with h2 | h2 | ⟨hz, h2⟩
          · omega
          · omega
          · exact absurd ⟨hz, by omega⟩ htag
        | succ j => exact ih ⟨j, fun i hi => h1 (i + 1) (by omega), h2⟩

/-- A walk that ends has gone over the whole chain that is laid out. -/
theorem walkLoop_ext {B : Nat → Byte} {len W : Nat} {names : Bool} {fuel p F : Nat} {c d : Chain} {bs : List ExtBlock}
    (h : walkLoop B len W names fuel p F c = .ok d) (hb : ChainAt B W p F bs) : d.ext = c.ext + chainSize W bs := by
  refine walkLoop_induct (P := fun p F c d => ∀ bs, ChainAt B W p F bs → d.ext = c.ext + chainSize W bs) ?_ ?_ h bs hb
  · intro p c bs hb
    rw [hb.zero_iff.mp rfl]
    rfl
  · intro p F c d hfit ih bs hb
    cases bs with
    | nil =>
      have := hb.zero_iff.mpr rfl
      unfold blockFits at hfit
      omega
    | cons b bs =>
      have h1 : F = b.size W := hb.1
      have h2 : (c.addBlock B W names p F).ext = c.ext + F := rfl
      rw [ih bs hb.2.2.2, chainSize_cons, h2, h1, Nat.add_assoc]

/-- What `LZH.EXT` finds at block number `k`: an error if a block up to it does not fit, else the block (R205). -/
theorem extElement_chainBlock (B : Nat → Byte) (len W : Nat) : ∀ k p F : Nat,
    ((∃ j, j ≤ k ∧ ¬ blockFits len W (chainBlock B W p F j).1 (chainBlock B W p F j).2) →
      extElement B len W k p F = .error .structural) ∧
    ((∀ j, j ≤ k → blockFits len W (chainBlock B W p F j).1 (chainBlock B W p F j).2) →
      extElement B len W k p F = .ok ((B (chainBlock B W p F k).1).setWidth 32,
        BitVec.ofNat 32 ((chainBlock B W p F k).1 + 1), BitVec.ofNat 32 ((chainBlock B W p F k).2 - 1 - W))) := by
  intro k
  induction k with
  | zero =>
    intro p F
    refine ⟨fun ⟨j, hj, h⟩ => ?_, fun h => extElement_zero B len W p F (h 0 (Nat.le_refl 0))⟩
    obtain rfl : j = 0 := by omega
    have hfit : ¬ blockFits len W p F := h
    rw [extElement, if_pos hfit]
  | succ k ih =>
    intro p F
    by_cases hfit : blockFits len W p F
    · rw [extElement_succ B len W k p F hfit]
      refine ⟨fun ⟨j, hj, h⟩ => (ih _ _).1 ?_, fun h => (ih _ _).2 fun j hj => h (j + 1) (by omega)⟩
      cases j with
      | zero => exact absurd hfit h
      | succ j => exact ⟨j, by omega, h⟩
    · refine ⟨fun _ => ?_, fun h => absurd (h 0 (Nat.zero_le _)) hfit⟩
      rw [extElement, if_pos hfit]

/-- Following a chain that lies in the buffer reaches its block number `k` (R205). -/
theorem extElement_chain {B : Nat → Byte} {len W : Nat} : ∀ (bs : List ExtBlock) (k p F : Nat) (hk : k < bs.length),
    ChainAt B W p F bs → p + chainSize W bs ≤ len →
    extElement B len W k p F = .ok (bs[k].tag.setWidth 32, BitVec.ofNat 32 (p + chainSize W (bs.take k) + 1),
      BitVec.ofNat 32 bs[k].data.length) := by
  intro bs
  induction bs with
  | nil => intro k p F hk; simp at hk
  | cons b bs ih =>
    intro k p F hk h hl
    obtain ⟨h1, h2, h3, h4⟩ := h
    rw [chainSize_cons] at hl
    have hsz : b.size W = 1 + b.data.length + W := rfl
    have hfit : blockFits len W p F := by unfold blockFits; omega
    cases k with
    | zero =>
      rw [extElement_zero _ _ _ _ _ hfit, h2]
      simp [chainSize]
      congr 1
      omega
    | succ k =>
      rw [extElement_succ _ _ _ _ _ _ hfit, ih k (p + F) _ (by simpa using hk) h4 (by omega)]
      simp [chainSize_cons, h1, Nat.add_assoc]

end Sys2Proof.Machine
end

