-- ==== Sys2Proof/Laws/Checksum.lean ====
section
/-!
SUPPORT. The laws of the CRC and checksum units: one pass of the CRC loop, and all that each command can do.
-/

namespace Sys2Proof.Machine

/-- One pass of the CRC loop, as arithmetic. -/
theorem crcShift_toNat (c : Half) :
    (crcShift c).toNat = if c.toNat % 2 = 1 then (c.toNat / 2) ^^^ 0xA001 else c.toNat / 2 := by
  have h : c.getLsbD 0 = decide (c.toNat % 2 = 1) := by
    rw [BitVec.getLsbD, Nat.testBit_zero]
  unfold crcShift
  rw [h]
  by_cases hc : c.toNat % 2 = 1
  · simp [hc, Config.crcPoly, BitVec.toNat_ushiftRight, Nat.shiftRight_eq_div_pow]
  · simp [hc, BitVec.toNat_ushiftRight, Nat.shiftRight_eq_div_pow]

/-- One pass of the CRC loop is linear over XOR. -/
theorem crcShift_xor (c d : Half) : crcShift (c ^^^ d) = crcShift c ^^^ crcShift d := by
  unfold crcShift
  rw [BitVec.getLsbD_xor, BitVec.ushiftRight_xor_distrib]
  cases c.getLsbD 0 <;> cases d.getLsbD 0 <;> simp
  · ac_rfl
  · ac_rfl
  · generalize c >>> 1 = a
    generalize d >>> 1 = b
    generalize Config.crcPoly = p
    rw [show a ^^^ p ^^^ (b ^^^ p) = a ^^^ b ^^^ (p ^^^ p) by ac_rfl, BitVec.xor_self, BitVec.xor_zero]

/-- All that `CRC.UPD` and `CRC.RUN` can do. -/
theorem crcOverWindow_cases {cmd : Word} {c0 : Half} {s t : State} (h : crcOverWindow cmd c0 s = .next t) :
    (¬ s.srcInMem ∧ t = s.setErr (Cause.operand.latch cmd)) ∨
    (s.srcInMem ∧ t = (s.setCrc (crc16 s.window c0)).setRes0 ((crc16 s.window c0).setWidth 32)) := by
  unfold crcOverWindow at h
  split at h
  · exact .inl ⟨‹_›, raise_cases h⟩
  · exact .inr ⟨not_not.mp ‹_›, (Host.Outcome.next.inj h).symm⟩

/-- All that `SUM.UPD` and `SUM.RUN` can do. -/
theorem sumOverWindow_cases {cmd : Word} {s0 : Half} {s t : State} (h : sumOverWindow cmd s0 s = .next t) :
    (¬ s.srcInMem ∧ t = s.setErr (Cause.operand.latch cmd)) ∨
    (s.srcInMem ∧ t = (s.setSum (sum16 s.window s0)).setRes0 ((sum16 s.window s0).setWidth 32)) := by
  unfold sumOverWindow at h
  split at h
  · exact .inl ⟨‹_›, raise_cases h⟩
  · exact .inr ⟨not_not.mp ‹_›, (Host.Outcome.next.inj h).symm⟩

/-- All that `SUM32.CHK` can do. -/
theorem execSum32Chk_cases {s t : State} (h : execSum32Chk s = .next t) :
    (∃ c : Cause, t = s.setErr (c.latch (faultWord .sum32Chk)) ∧
      (c = .operand ∨ c = .integrity s.sum32Computed s.sum32Stored)) ∨
    (s.srcInMem ∧ s.sum32Operands ∧ s.sum32Computed = s.sum32Stored ∧
      t = s.setRes01 s.sum32Computed s.sum32Stored) := by
  unfold execSum32Chk at h
  split at h
  · exact .inl ⟨_, raise_cases h, .inl rfl⟩
  · split at h
    · exact .inl ⟨_, raise_cases h, .inl rfl⟩
    · split at h
      · exact .inl ⟨_, raise_cases h, .inr rfl⟩
      · exact .inr ⟨not_not.mp ‹_›, not_not.mp ‹_›, not_not.mp ‹_›, (Host.Outcome.next.inj h).symm⟩

end Sys2Proof.Machine
end

