-- ==== Sys2Proof/Laws/Encoding.lean ====
section
/-!
SUPPORT. The laws of the encoding's fields and of the token decoder.
-/

namespace Sys2Proof

/-- A command word as a number: opcode in bits 7:0, immediate in bits 15:8. -/
theorem commandBits_toNat (op imm : Byte) : (commandBits op imm).toNat = 256 * imm.toNat + op.toNat := by
  have h : (commandBits op imm).toNat = (0#16 ++ imm ++ op : BitVec (16 + 8 + 8)).toNat := rfl
  have h1 := op.isLt
  have h2 := imm.isLt
  rw [h, BitVec.toNat_append, BitVec.toNat_append, BitVec.toNat_ofNat, Nat.zero_mod, Nat.zero_shiftLeft,
    Nat.zero_or, ← Nat.shiftLeft_add_eq_or_of_lt h1, Nat.shiftLeft_eq]
  omega

theorem opcodeField_commandBits (op imm : Byte) : opcodeField (commandBits op imm) = op := by
  apply BitVec.eq_of_toNat_eq
  have h1 := op.isLt
  rw [opcodeField, BitVec.extractLsb'_toNat, commandBits_toNat, Nat.shiftRight_zero]
  omega

theorem immField_commandBits (op imm : Byte) : immField (commandBits op imm) = imm := by
  apply BitVec.eq_of_toNat_eq
  have h1 := op.isLt
  have h2 := imm.isLt
  rw [immField, BitVec.extractLsb'_toNat, commandBits_toNat, Nat.shiftRight_eq_div_pow]
  omega

theorem zeroField_commandBits (op imm : Byte) : zeroField (commandBits op imm) = 0#16 := by
  apply BitVec.eq_of_toNat_eq
  have h1 := op.isLt
  have h2 := imm.isLt
  rw [zeroField, BitVec.extractLsb'_toNat, commandBits_toNat, Nat.shiftRight_eq_div_pow, BitVec.toNat_ofNat]
  omega

theorem opcodeField_toNat (w : Word) : (opcodeField w).toNat = w.toNat % 256 := by
  rw [opcodeField, BitVec.extractLsb'_toNat, Nat.shiftRight_zero]

theorem immField_toNat (w : Word) : (immField w).toNat = w.toNat / 256 % 256 := by
  rw [immField, BitVec.extractLsb'_toNat, Nat.shiftRight_eq_div_pow]

theorem zeroField_toNat (w : Word) : (zeroField w).toNat = w.toNat / 65536 := by
  have h := w.isLt
  rw [zeroField, BitVec.extractLsb'_toNat, Nat.shiftRight_eq_div_pow]
  omega

/-- A token takes at least one byte. -/
theorem decodeToken_shorter {bs rest : List Byte} {t : RleToken} (h : decodeToken bs = .ok (t, rest)) :
    rest.length < bs.length := by
  unfold decodeToken at h
  repeat' split at h
  all_goals simp at h
  all_goals (obtain ⟨_, rfl⟩ := h; simp only [List.length_cons]; omega)

theorem bytes_ne_nil (t : RleToken) : t.bytes ≠ [] := by cases t <;> simp [RleToken.bytes]

/-- Every byte but the escape is a literal. -/
theorem decodeToken_not_esc (b : Byte) (r : List Byte) (h : b ≠ Config.rleEsc) :
    decodeToken (b :: r) = .ok (.lit b, r) := by
  rw [decodeToken.eq_def]
  exact if_pos h

theorem faultWord_eq {i : Instr} {w : Word} (h : encode i = .command w) : faultWord i = w := by
  simp only [faultWord, h]

/-- A command word decodes to a command. -/
theorem decodeWord_isCommand {w : Word} {i : Instr} (h : decodeWord w = .ok i) :
    ∃ v, encode i = .command v := by
  simp only [decodeWord, formatI, formatN] at h
  repeat' split at h
  all_goals cases h
  all_goals first
    | exact ⟨_, rfl⟩
    | (cases immField w != 0#8 <;> exact ⟨_, rfl⟩)

/-- A word with the opcode of an N-format command and any bit set above the opcode is no command (R85). -/
theorem decodeWord_nFormat_other (w v : Word) (h : v.toNat % 256 = w.toNat % 256) (hw : w.toNat < 256) (hne : v ≠ w)
    (hn : w.toNat ∈ [0x20, 0x21, 0x22, 0x30, 0x31, 0x32, 0x33, 0x40, 0x50, 0x51, 0x60, 0x61, 0x62, 0x70]) : ∃ e, decodeWord v = .error e := by
  have h1 := opcodeField_toNat v
  have h2 := immField_toNat v
  have h3 := zeroField_toNat v
  rw [h, Nat.mod_eq_of_lt hw] at h1
  have hv := v.isLt
  unfold decodeWord
  by_cases hz : zeroField v = 0#16
  · have hi : immField v ≠ 0#8 := by
      intro hi
      apply hne
      apply BitVec.eq_of_toNat_eq
      rw [hi] at h2
      rw [hz] at h3
      simp at h2 h3
      omega
    simp only [hz, ne_eq, not_true_eq_false, if_false]
    simp only [List.mem_cons, List.not_mem_nil, or_false] at hn
    rw [h1]
    rcases hn with h | h | h | h | h | h | h | h | h | h | h | h | h | h <;> rw [h] <;> exact ⟨.illegalImmediate, by simp [formatN, hi]⟩
  · exact ⟨.upperBitsNotZero, by simp [hz]⟩

end Sys2Proof
end

