-- ==== Sys2Proof/Laws/Rle.lean ====
section
/-!
SUPPORT. The laws of the RLE decompressor: the loop of R152 token by token, and all that each instruction can do.
-/

namespace Sys2Proof.Machine

theorem rleEmit_eq_some {D : Nat} {out out' : List Byte} {v : Byte} {n : Nat} :
    rleEmit D out v n = some out' ↔ out.length + n ≤ D ∧ out' = out ++ List.replicate n v := by
  unfold rleEmit
  split
  · simp; omega
  · simp only [Option.some.injEq]
    constructor
    · rintro rfl; exact ⟨by omega, rfl⟩
    · rintro ⟨_, rfl⟩; rfl

theorem rleEmit_eq_none {D : Nat} {out : List Byte} {v : Byte} {n : Nat} :
    rleEmit D out v n = none ↔ D < out.length + n := by
  unfold rleEmit
  split <;> simp <;> omega

@[simp] theorem tokenOutput_length (t : RleToken) : (tokenOutput t).length = tokenCount t := by simp [tokenOutput]

theorem rleLoop_nil (D fuel : Nat) (out : List Byte) :
    rleLoop D fuel [] out = if out.length = D then some out else none := by
  cases fuel <;> rfl

/-- One pass of the loop on a whole token. -/
theorem rleLoop_token {D fuel : Nat} {I rest out : List Byte} {t : RleToken} (h : decodeToken I = .ok (t, rest)) :
    rleLoop D (fuel + 1) I out =
      if out.length + tokenCount t ≤ D then rleLoop D fuel rest (out ++ tokenOutput t) else none := by
  cases I with
  | nil => cases h
  | cons b r =>
    rw [rleLoop, h]
    by_cases hD : out.length + tokenCount t ≤ D
    · have : rleEmit D out (tokenValue t) (tokenCount t) = some (out ++ tokenOutput t) :=
        rleEmit_eq_some.mpr ⟨hD, rfl⟩
      simp only [this, if_pos hD]
    · have : rleEmit D out (tokenValue t) (tokenCount t) = none := rleEmit_eq_none.mpr (by omega)
      simp only [this, if_neg hD]

/-- One pass of the loop on a token cut short. -/
theorem rleLoop_cut {D fuel : Nat} {I out : List Byte} {e : DecodeError} (hI : I ≠ []) (h : decodeToken I = .error e) :
    rleLoop D fuel I out = none := by
  cases I with
  | nil => exact absurd rfl hI
  | cons b r =>
    cases fuel with
    | zero => rfl
    | succ fuel => rw [rleLoop, h]

/-- The input's length is fuel enough: more changes nothing. -/
theorem rleLoop_fuel (D : Nat) : ∀ (fuel : Nat) (I out : List Byte), I.length ≤ fuel →
    rleLoop D fuel I out = rleLoop D I.length I out := by
  intro fuel
  induction fuel using Nat.strong_induction_on with
  | _ fuel ih =>
    intro I out hf
    cases I with
    | nil => rw [rleLoop_nil, rleLoop_nil]
    | cons b r =>
      obtain ⟨f, rfl⟩ : ∃ f, fuel = f + 1 := ⟨fuel - 1, by simp at hf; omega⟩
      cases hd : decodeToken (b :: r) with
      | error e => rw [rleLoop_cut (by simp) hd, rleLoop_cut (by simp) hd]
      | ok p =>
        obtain ⟨t, rest⟩ := p
        have hs := decodeToken_shorter hd
        simp only [List.length_cons] at hs hf ⊢
        rw [rleLoop_token hd, rleLoop_token hd]
        by_cases hD : out.length + tokenCount t ≤ D
        · rw [if_pos hD, if_pos hD, ih f (by omega) rest _ (by omega)]
          exact (ih r.length (by omega) rest _ (by omega)).symm
        · rw [if_neg hD, if_neg hD]

/-- A successful expansion has the declared length. -/
theorem rleLoop_length {D : Nat} : ∀ {fuel : Nat} {I out res : List Byte}, rleLoop D fuel I out = some res →
    res.length = D := by
  intro fuel
  induction fuel with
  | zero =>
    intro I out res h
    cases I with
    | nil => rw [rleLoop_nil] at h; split at h <;> simp_all
    | cons b r => cases h
  | succ fuel ih =>
    intro I out res h
    cases I with
    | nil => rw [rleLoop_nil] at h; split at h <;> simp_all
    | cons b r =>
      cases hd : decodeToken (b :: r) with
      | error e => rw [rleLoop_cut (by simp) hd] at h; cases h
      | ok p =>
        obtain ⟨t, rest⟩ := p
        rw [rleLoop_token hd] at h
        split at h
        · exact ih h
        · cases h

theorem rleExpand_length {I out : List Byte} {D : Nat} (h : rleExpand I D = some out) : out.length = D :=
  rleLoop_length h

/-- What a StructuralError of a running expansion does (log entry 5). -/
theorem rleAbort_spec {s t : State} (h : rleAbort s = .next t) :
    s.dstInMem ∧ raiseInWindow (s.setRle none) (faultWord .rleExpand) .structural = .next t := by
  unfold rleAbort at h
  split at h
  · exact ⟨‹_›, h⟩
  · cases h

/-- All that a token can do. -/
theorem execToken_cases {k : RleToken} {s t : State} (h : execToken k s = .next t) :
    (s.x.dlen.toNat < s.rleCurrent.out.length + tokenCount k ∧ rleAbort s = .next t) ∨
    (s.rleCurrent.out.length + tokenCount k ≤ s.x.dlen.toNat ∧
      t = s.setRle (some { s.rleCurrent with out := s.rleCurrent.out ++ tokenOutput k })) := by
  unfold execToken at h
  by_cases hD : s.rleCurrent.out.length + tokenCount k ≤ s.x.dlen.toNat
  · rw [rleEmit_eq_some.mpr ⟨hD, rfl⟩] at h
    exact .inr ⟨hD, (Host.Outcome.next.inj h).symm⟩
  · rw [rleEmit_eq_none.mpr (by omega)] at h
    exact .inl ⟨by omega, h⟩

/-- All that the end of a running expansion can do. -/
theorem rleFinish_cases {r : RleRun} {s t : State} (h : rleFinish r s = .next t) :
    (r.out.length ≠ s.x.dlen.toNat ∧ rleAbort s = .next t) ∨
    (r.out.length = s.x.dlen.toNat ∧ s.dstInMem ∧
      t = ((s.setMem (s.mem.writeList s.x.dst.toNat r.out)).setRes0 s.x.dlen).setRle none) := by
  unfold rleFinish at h
  split at h
  · exact .inl ⟨‹_›, h⟩
  · split at h
    · cases h
    · exact .inr ⟨not_not.mp ‹_›, not_not.mp ‹_›, (Host.Outcome.next.inj h).symm⟩

/-- All that `RLE.EXPAND` can do. -/
theorem execRleExpand_cases {s t : State} (h : execRleExpand s = .next t) :
    (¬ s.windowsOk ∧ t = s.setErr (Cause.operand.latch (faultWord .rleExpand))) ∨
    (s.windowsOk ∧ rleExpand s.window s.x.dlen.toNat = none ∧
      raiseInWindow s (faultWord .rleExpand) .structural = .next t) ∨
    (s.windowsOk ∧ ∃ out : List Byte, rleExpand s.window s.x.dlen.toNat = some out ∧
      t = (s.setMem (s.mem.writeList s.x.dst.toNat out)).setRes0 s.x.dlen) := by
  unfold execRleExpand at h
  split at h
  · exact .inl ⟨‹_›, raise_cases h⟩
  · have hw : s.windowsOk := not_not.mp ‹_›
    cases ho : rleExpand s.window s.x.dlen.toNat with
    | none => rw [ho] at h; exact .inr (.inl ⟨hw, rfl, h⟩)
    | some out => rw [ho] at h; exact .inr (.inr ⟨hw, out, rfl, (Host.Outcome.next.inj h).symm⟩)
end Sys2Proof.Machine
end

