-- ==== Sys2Proof/Laws/Dms.lean ====
section
/-!
SUPPORT. The laws of the DMS track unpacker: when a record is found, and all that each command can do.
-/

namespace Sys2Proof.Machine

/-- A record is found exactly when it stands whole in the buffer. -/
theorem parseTrack_eq_some {B : Nat → Byte} {len off o : Nat} {t : Track} (hoff : 2 ≤ off) :
    parseTrack B len off o = .ok (some t) ↔
      B o = 0x54#8 ∧ B (o + 1) = 0x52#8 ∧ o + off + be16 B (o + 6) ≤ len ∧
        t = trackAt B o (o + off) (o + off + be16 B (o + 6)) := by
  unfold parseTrack
  split
  · constructor
    · intro h; cases h
    · rintro ⟨_, _, h, _⟩; omega
  · split
    · constructor
      · intro h; cases h
      · rintro ⟨h1, h2, _, _⟩; simp_all
    · rename_i hm
      simp only [not_or, not_not] at hm
      split
      · constructor
        · intro h; cases h
        · rintro ⟨_, _, h, _⟩; omega
      · split
        · constructor
          · intro h; cases h
          · rintro ⟨_, _, h, _⟩; omega
        · simp only [Except.ok.injEq, Option.some.injEq]
          constructor
          · rintro rfl; exact ⟨hm.1, hm.2, by omega, rfl⟩
          · rintro ⟨_, _, _, rfl⟩; rfl

/-- The only fault of the record parse is StructuralError. -/
theorem parseTrack_error {B : Nat → Byte} {len off o : Nat} {c : Cause} (h : parseTrack B len off o = .error c) :
    c = .structural := by
  unfold parseTrack at h
  repeat' split at h
  all_goals first | cases h; rfl | cases h

theorem payloadOff_range (p : Config.Params) : 20 ≤ p.payloadOff ∧ p.payloadOff ≤ 22 := by
  unfold Config.Params.payloadOff
  split <;> omega

/-- The two offsets of a parsed record, and its number. -/
theorem trackHere_some {s : State} {t : Track} (h : s.trackHere = .ok (some t)) :
    t.pay.toNat = s.x.aux.toNat + s.cfg.payloadOff ∧ t.next.toNat = t.pay.toNat + t.pklen.toNat ∧
      t.next.toNat ≤ s.x.slen.toNat ∧ t.valid = true ∧ t.num = sext16 (t.num.setWidth 16) := by
  obtain ⟨h20, h22⟩ := payloadOff_range s.cfg
  obtain ⟨_, _, hle, rfl⟩ := (parseTrack_eq_some (by omega)).mp h
  have hs := s.x.slen.isLt
  have hp := be16_lt s.srcByte (s.x.aux.toNat + 6)
  refine ⟨?_, ?_, ?_, rfl, ?_⟩
  · simp only [trackAt, BitVec.toNat_ofNat]; omega
  · simp only [trackAt, BitVec.toNat_ofNat]; omega
  · simp only [trackAt, BitVec.toNat_ofNat]; omega
  · simp only [trackAt, sext16]
    congr 1
    ext j hj
    have : j < 32 := by omega
    simp [BitVec.getElem_setWidth, BitVec.getElem_signExtend, hj, this]

/-- The unpacking without checks, on success: stored, or the expansion. -/
theorem unpackPlain_ok {t : Track} {p out : List Byte} (h : unpackPlain t p = .ok out) :
    (t.mode = 0#8 ∧ out = p) ∨ (t.mode = 1#8 ∧ rleExpand p t.ulenB.toNat = some out) := by
  unfold unpackPlain at h
  split at h
  · exact .inl ⟨‹_›, (Except.ok.inj h).symm⟩
  · split at h
    · cases ho : rleExpand p t.ulenB.toNat with
      | none => rw [ho] at h; cases h
      | some o => rw [ho] at h; cases h; exact .inr ⟨‹_›, rfl⟩
    · cases h

/-- Verification adds checks and changes no output. -/
theorem unpack_ok {t : Track} {p out : List Byte} {verify : Bool} (h : unpack t p verify = .ok out) :
    unpackPlain t p = .ok out ∧ (verify = true → crc16 p Config.crcInit = t.dcrc ∧ sum16 out 0#16 = t.usum) := by
  cases verify with
  | false => exact ⟨h, by simp⟩
  | true =>
    rw [unpack, if_pos rfl] at h
    split at h
    · cases h
    · rename_i hc
      cases hp : unpackPlain t p with
      | error e => rw [hp] at h; cases h
      | ok o =>
        rw [hp] at h
        simp only at h
        split at h
        · cases h
        · rename_i hu
          cases h
          exact ⟨rfl, fun _ => ⟨not_not.mp hc, not_not.mp hu⟩⟩

/-- What an unpacking delivers has the length that was checked against the destination. -/
theorem unpack_length {s : State} {t : Track} {out : List Byte} {verify : Bool}
    (h : unpack t (s.payloadOf t) verify = .ok out) : out.length = unpackLength t := by
  rcases unpackPlain_ok (unpack_ok h).1 with ⟨hm, rfl⟩ | ⟨hm, ho⟩
  · simp [unpackLength, hm, State.payloadOf, srcBytes_length]
  · simp [unpackLength, hm, rleExpand_length ho]

theorem unpackPlain_error {t : Track} {p : List Byte} {c : Cause} (h : unpackPlain t p = .error c) :
    c = .structural ∨ c = .unsupported := by
  unfold unpackPlain at h
  split at h
  · cases h
  · split at h
    · cases ho : rleExpand p t.ulenB.toNat with
      | none => rw [ho] at h; cases h; exact .inl rfl
      | some o => rw [ho] at h; cases h
    · cases h; exact .inr rfl

/-- No check of an unpacking is an operand check. -/
theorem unpack_error {t : Track} {p : List Byte} {verify : Bool} {c : Cause} (h : unpack t p verify = .error c) :
    c.spoilsWindow = true := by
  have plain : ∀ {c : Cause}, unpackPlain t p = .error c → c.spoilsWindow = true := by
    intro c hp
    rcases unpackPlain_error hp with rfl | rfl <;> rfl
  cases verify with
  | false => exact plain h
  | true =>
    rw [unpack, if_pos rfl] at h
    split at h
    · cases h; rfl
    · cases hp : unpackPlain t p with
      | error e => rw [hp] at h; cases h; exact plain hp
      | ok o =>
        rw [hp] at h
        simp only at h
        split at h
        · cases h; rfl
        · cases h

/-- All that `DMS.OPEN` can do. -/
theorem execDmsOpen_cases {s t : State} (h : execDmsOpen s = .next t) :
    (∃ c : Cause, (c = .operand ∨ c = .structural) ∧ t = s.setErr (c.latch (faultWord .dmsOpen))) ∨
    (s.srcInMem ∧ Config.dmsMinLen ≤ s.x.slen.toNat ∧ s.dmsMagic ∧
      t = s.setRes0 (BitVec.ofNat 32 Config.dmsFileHdr)) := by
  unfold execDmsOpen at h
  split at h
  · exact .inl ⟨_, .inl rfl, raise_cases h⟩
  · split at h
    · exact .inl ⟨_, .inr rfl, raise_cases h⟩
    · split at h
      · exact .inl ⟨_, .inr rfl, raise_cases h⟩
      · exact .inr ⟨not_not.mp ‹_›, by omega, not_not.mp ‹_›, (Host.Outcome.next.inj h).symm⟩

/-- All that `DMS.TRACK` can do. -/
theorem execDmsTrack_cases {s t : State} (h : execDmsTrack s = .next t) :
    (∃ c : Cause, (c = .operand ∨ c = .structural) ∧ t = s.setErr (c.latch (faultWord .dmsTrack))) ∨
    (s.srcInMem ∧ s.trackHere = .ok none ∧ t = (s.setTrk { s.trk with valid := false }).setRes0 0#32) ∨
    (s.srcInMem ∧ ∃ r : Track, s.trackHere = .ok (some r) ∧ t = (s.setTrk r).setRes012 1#32 r.next r.pay) := by
  unfold execDmsTrack at h
  split at h
  · exact .inl ⟨_, .inl rfl, raise_cases h⟩
  · have hs : s.srcInMem := not_not.mp ‹_›
    cases ht : s.trackHere with
    | error c => rw [ht] at h; exact .inl ⟨c, .inr (parseTrack_error ht), raise_cases h⟩
    | ok o =>
      rw [ht] at h
      cases o with
      | none => exact .inr (.inl ⟨hs, rfl, (Host.Outcome.next.inj h).symm⟩)
      | some r => exact .inr (.inr ⟨hs, r, rfl, (Host.Outcome.next.inj h).symm⟩)

/-- All that `DMS.UNPACK` can do. -/
theorem execDmsUnpack_cases {verify : Bool} {s t : State} (h : execDmsUnpack verify s = .next t) :
    t = s.setErr (Cause.operand.latch (faultWord (.dmsUnpack verify))) ∨
    (s.windowsOk ∧ ∃ c : Cause, c.spoilsWindow = true ∧
      raiseInWindow s (faultWord (.dmsUnpack verify)) c = .next t) ∨
    (s.windowsOk ∧ ∃ (r : Track) (out : List Byte), s.trackHere = .ok (some r) ∧
      unpack r (s.payloadOf r) verify = .ok out ∧ out.length ≤ s.x.dlen.toNat ∧
      t = ((s.setMem (s.mem.writeList s.x.dst.toNat out)).setTrk r).setRes012 (BitVec.ofNat 32 out.length) r.next r.pay) := by
  unfold execDmsUnpack at h
  split at h
  · exact .inl (raise_cases h)
  · have hw : s.windowsOk := not_not.mp ‹_›
    cases ht : s.trackHere with
    | error c => rw [ht] at h; exact .inr (.inl ⟨hw, c, by rw [parseTrack_error ht]; rfl, h⟩)
    | ok o =>
      rw [ht] at h
      cases o with
      | none => exact .inr (.inl ⟨hw, .structural, rfl, h⟩)
      | some r =>
        simp only at h
        split at h
        · exact .inl (raise_cases h)
        · cases hu : unpack r (s.payloadOf r) verify with
          | error c => rw [hu] at h; exact .inr (.inl ⟨hw, c, unpack_error hu, h⟩)
          | ok out =>
            rw [hu] at h
            refine .inr (.inr ⟨hw, r, out, rfl, hu, ?_, (Host.Outcome.next.inj h).symm⟩)
            rw [unpack_length hu]
            omega
end Sys2Proof.Machine
end

