-- ==== Sys2Proof/Laws/PerInstr.lean ====
section
/-!
SUPPORT. Laws stated of every instruction, one lemma per constructor.
-/

namespace Sys2Proof.Laws.EncodedLength

/-- How many bits an encoding takes: a command is one word (spec/30_encoding.md R80), a token its bytes. -/
def bitLength : CodeUnit → Nat
  | .command _ => 32
  | .token bytes => 8 * bytes.length

/-- How many bits the row of spec/opcode_table.json gives the instruction. -/
def tableBits : Instr → Nat
  | .brBind _ => 32
  | .brRdu _ => 32
  | .brRds _ => 32
  | .crcInit => 32
  | .crcUpd => 32
  | .crcRun => 32
  | .sumInit => 32
  | .sumUpd => 32
  | .sumRun => 32
  | .sum32Chk => 32
  | .rleExpand => 32
  | .dmsOpen => 32
  | .dmsTrack => 32
  | .dmsUnpack _ => 32
  | .lzhParse => 32
  | .lzhExt => 32
  | .lzhCrc => 32
  | .errClr => 32
  | .rleLit _ => 8
  | .rleEsc90 => 16
  | .rleRun8 _ _ => 24
  | .rleRun16 _ _ _ => 40

/-- The encoder writes as many bits as the table gives the instruction. -/
def Statement (i : Instr) : Prop := bitLength (encode i) = tableBits i

theorem brBind (order : BitOrder) : Statement (.brBind order) := by cases order <;> rfl
theorem brRdu (n : Byte) : Statement (.brRdu n) := rfl
theorem brRds (n : Byte) : Statement (.brRds n) := rfl
theorem crcInit : Statement .crcInit := rfl
theorem crcUpd : Statement .crcUpd := rfl
theorem crcRun : Statement .crcRun := rfl
theorem sumInit : Statement .sumInit := rfl
theorem sumUpd : Statement .sumUpd := rfl
theorem sumRun : Statement .sumRun := rfl
theorem sum32Chk : Statement .sum32Chk := rfl
theorem rleExpand : Statement .rleExpand := rfl
theorem dmsOpen : Statement .dmsOpen := rfl
theorem dmsTrack : Statement .dmsTrack := rfl
theorem dmsUnpack (verify : Bool) : Statement (.dmsUnpack verify) := by cases verify <;> rfl
theorem lzhParse : Statement .lzhParse := rfl
theorem lzhExt : Statement .lzhExt := rfl
theorem lzhCrc : Statement .lzhCrc := rfl
theorem errClr : Statement .errClr := rfl
theorem rleLit (b : Byte) : Statement (.rleLit b) := rfl
theorem rleEsc90 : Statement .rleEsc90 := rfl
theorem rleRun8 (c v : Byte) : Statement (.rleRun8 c v) := rfl
theorem rleRun16 (v hi lo : Byte) : Statement (.rleRun16 v hi lo) := rfl

end Sys2Proof.Laws.EncodedLength
end

