-- ==== Sys2Proof/Laws/Step.lean ====
section
/-!
SUPPORT. The laws of a step: how the host's action or the next token is run, and what no instruction changes.
-/

namespace Sys2Proof.Machine

theorem step_quiet {s : State} (h : s.rle = none) : step s = scriptStep s := by simp only [step, h]

theorem step_running {s : State} {r : RleRun} (h : s.rle = some r) : step s = rleStep r s := by simp only [step, h]

theorem scriptStep_nil {s : State} (h : s.script = []) : scriptStep s = .next s := by simp only [scriptStep, h]

theorem scriptStep_cons {s : State} {a : HostAction} {rest : List HostAction} (h : s.script = a :: rest) :
    scriptStep s = hostAct a (s.setScript rest) := by simp only [scriptStep, h]

theorem issue_ok {s : State} {w : Word} {i : Instr} (he : s.err.code = 0#4) (h : decodeWord w = .ok i) :
    issue w s = exec i s := by
  simp [issue, h, State.halted, he]

theorem issue_illegal {s : State} {w : Word} {e : DecodeError} (he : s.err.code = 0#4) (h : decodeWord w = .error e) :
    issue w s = raise s w .illegal := by
  simp [issue, h, State.halted, he]

/-- All that a command word can do: it is dropped, it is illegal, or its instruction runs. -/
theorem issue_cases {s t : State} {w : Word} (h : issue w s = .next t) :
    t = s ∨ t = s.setErr (Cause.illegal.latch w) ∨ ∃ i, decodeWord w = .ok i ∧ exec i s = .next t := by
  unfold issue at h
  split at h
  · split at h
    · exact .inl (Host.Outcome.next.inj h).symm
    · exact .inr (.inr ⟨_, ‹_›, h⟩)
  · split at h
    · exact .inl (Host.Outcome.next.inj h).symm
    · exact .inr (.inl (raise_cases h))

/-- What no instruction changes: the parameters and the host's own lists. -/
structure HostKept (s t : State) : Prop where
  cfg : t.cfg = s.cfg
  script : t.script = s.script
  replies : t.replies = s.replies

theorem raiseInWindow_hostKept {s t : State} {cmd : Word} {c : Cause} (h : raiseInWindow s cmd c = .next t) :
    HostKept s t := by
  obtain ⟨m, k, he, _⟩ := raiseInWindow_spec s cmd c
  rw [he] at h
  cases h
  exact ⟨rfl, rfl, rfl⟩

theorem rleAbort_hostKept {s t : State} (h : rleAbort s = .next t) : HostKept s t := by
  obtain ⟨_, h⟩ := rleAbort_spec h
  have := raiseInWindow_hostKept h
  exact ⟨this.cfg, this.script, this.replies⟩

theorem execToken_hostKept {k : RleToken} {s t : State} (h : execToken k s = .next t) : HostKept s t := by
  rcases execToken_cases h with ⟨_, h⟩ | ⟨_, rfl⟩
  · exact rleAbort_hostKept h
  · exact ⟨rfl, rfl, rfl⟩

theorem exec_hostKept {i : Instr} {s t : State} (h : exec i s = .next t) : HostKept s t := by
  cases i with
  | brBind o => rcases execBrBind_cases h with rfl | ⟨_, _, rfl⟩ <;> exact ⟨rfl, rfl, rfl⟩
  | brRdu n => rcases brRead_cases h with ⟨_, _, rfl⟩ | ⟨_, _, rfl⟩ <;> exact ⟨rfl, rfl, rfl⟩
  | brRds n => rcases brRead_cases h with ⟨_, _, rfl⟩ | ⟨_, _, rfl⟩ <;> exact ⟨rfl, rfl, rfl⟩
  | crcInit => cases h; exact ⟨rfl, rfl, rfl⟩
  | crcUpd => rcases crcOverWindow_cases h with ⟨_, rfl⟩ | ⟨_, rfl⟩ <;> exact ⟨rfl, rfl, rfl⟩
  | crcRun => rcases crcOverWindow_cases h with ⟨_, rfl⟩ | ⟨_, rfl⟩ <;> exact ⟨rfl, rfl, rfl⟩
  | sumInit => cases h; exact ⟨rfl, rfl, rfl⟩
  | sumUpd => rcases sumOverWindow_cases h with ⟨_, rfl⟩ | ⟨_, rfl⟩ <;> exact ⟨rfl, rfl, rfl⟩
  | sumRun => rcases sumOverWindow_cases h with ⟨_, rfl⟩ | ⟨_, rfl⟩ <;> exact ⟨rfl, rfl, rfl⟩
  | sum32Chk => rcases execSum32Chk_cases h with ⟨_, rfl, _⟩ | ⟨_, _, _, rfl⟩ <;> exact ⟨rfl, rfl, rfl⟩
  | rleExpand =>
    rcases execRleExpand_cases h with ⟨_, rfl⟩ | ⟨_, _, h⟩ | ⟨_, _, _, rfl⟩
    · exact ⟨rfl, rfl, rfl⟩
    · exact raiseInWindow_hostKept h
    · exact ⟨rfl, rfl, rfl⟩
  | dmsOpen => rcases execDmsOpen_cases h with ⟨_, _, rfl⟩ | ⟨_, _, _, rfl⟩ <;> exact ⟨rfl, rfl, rfl⟩
  | dmsTrack => rcases execDmsTrack_cases h with ⟨_, _, rfl⟩ | ⟨_, _, rfl⟩ | ⟨_, _, _, rfl⟩ <;> exact ⟨rfl, rfl, rfl⟩
  | dmsUnpack v =>
    rcases execDmsUnpack_cases h with rfl | ⟨_, _, _, h⟩ | ⟨_, _, _, _, _, _, rfl⟩
    · exact ⟨rfl, rfl, rfl⟩
    · exact raiseInWindow_hostKept h
    · exact ⟨rfl, rfl, rfl⟩
  | lzhParse => rcases execLzhParse_cases h with ⟨_, _, rfl⟩ | ⟨_, _, _, rfl⟩ <;> exact ⟨rfl, rfl, rfl⟩
  | lzhExt => rcases execLzhExt_cases h with ⟨_, _, rfl⟩ | ⟨_, _, _, rfl⟩ <;> exact ⟨rfl, rfl, rfl⟩
  | lzhCrc => rcases execLzhCrc_cases h with ⟨_, _, rfl⟩ | ⟨_, _, _, rfl⟩ <;> exact ⟨rfl, rfl, rfl⟩
  | errClr => cases h; exact ⟨rfl, rfl, rfl⟩
  | rleLit b => exact execToken_hostKept h
  | rleEsc90 => exact execToken_hostKept h
  | rleRun8 c v => exact execToken_hostKept h
  | rleRun16 v hi lo => exact execToken_hostKept h

/-- A host write of a register changes no other part of the state. -/
theorem regWrite_keeps (s : State) (num : BitVec 6) (v : Word) :
    (regWrite s num v).cfg = s.cfg ∧ (regWrite s num v).err = s.err ∧ (regWrite s num v).br = s.br ∧
      (regWrite s num v).trk = s.trk ∧ (regWrite s num v).lzh = s.lzh ∧ (regWrite s num v).mem = s.mem ∧
      (regWrite s num v).rle = s.rle ∧ (regWrite s num v).script = s.script ∧
      (regWrite s num v).replies = s.replies ∧ (regWrite s num v).freeCount = s.freeCount := by
  unfold regWrite
  split <;> exact ⟨rfl, rfl, rfl, rfl, rfl, rfl, rfl, rfl, rfl, rfl⟩

/-- All that a host action can do. -/
theorem hostAct_cases {a : HostAction} {s t : State} (h : hostAct a s = .next t) :
    (∃ r : Reply, t = s.pushReply r) ∨ (∃ w, a = .regWrite cmdNum w ∧ issue w s = .next t) ∨
    (∃ num v, t = regWrite s num v) ∨
    (∃ addr : Word, ∃ b : Byte, addr.toNat < s.cfg.memBytes ∧ t = s.setMem (s.mem.write addr.toNat b)) ∨
    t = s.blockReset := by
  cases a with
  | regRead num => cases h; exact .inl ⟨_, rfl⟩
  | regWrite num v =>
    simp only [hostAct] at h
    split at h
    · subst num; exact .inr (.inl ⟨v, rfl, h⟩)
    · cases h; exact .inr (.inr (.inl ⟨num, v, rfl⟩))
  | memRead addr =>
    simp only [hostAct] at h
    split at h
    · cases h
    · cases h; exact .inl ⟨_, rfl⟩
  | memWrite addr b =>
    simp only [hostAct] at h
    split at h
    · cases h
    · cases h; exact .inr (.inr (.inr (.inl ⟨addr, b, by omega, rfl⟩)))
  | reset => cases h; exact .inr (.inr (.inr (.inr rfl)))

/-- All that a pass of a running expansion can do: its end, its failure, or its next token. -/
theorem rleStep_cases {r : RleRun} {s t : State} (h : rleStep r s = .next t) :
    rleFinish r s = .next t ∨ rleAbort s = .next t ∨
    ∃ (k : RleToken) (rest : List Byte), decodeToken r.input = .ok (k, rest) ∧
      exec k.toInstr (s.setRle (some { r with input := rest })) = .next t := by
  unfold rleStep at h
  split at h
  · exact .inl h
  · rename_i b rest heq
    rw [heq]
    split at h
    · exact .inr (.inl h)
    · exact .inr (.inr ⟨_, _, ‹_›, h⟩)

/-- The meaning of a token's instruction is the token's. -/
theorem exec_token (k : RleToken) (s : State) : exec k.toInstr s = execToken k s := by cases k <;> rfl

/-- A run of one more step. -/
theorem run_succ (M : Host.Core) {s t : M.State} (k : Nat) (h : M.step s = .next t) : M.run (k + 1) s = M.run k t := by
  rw [Host.Core.run, h]

theorem run_next {s t : State} (k : Nat) (h : step s = .next t) :
    Sys2Proof.core.run (k + 1) s = Sys2Proof.core.run k t :=
  run_succ Sys2Proof.core k h

end Sys2Proof.Machine
end

