-- ==== Sys2Proof/Tests/Slice0.lean ====
section
/-!
SUPPORT. Tests: small states and single steps whose expected values are worked by hand from the vectors of
spec/95_test_vectors.md (named V<n>) or from the rule cited; and, for every statement of
Certificates/Slice0/Obligations.lean that has hypotheses, a witness that meets them.
-/

open Sys2Proof Sys2Proof.Machine

namespace Sys2Proof.Tests

/-! ### Small states -/

/-- The bytes `bs` at rising addresses from `a` on. -/
def cells : Nat → List Byte → Memory
  | _, [] => []
  | a, b :: bs => (a, b) :: cells (a + 1) bs

/-- The start of the spec's vectors: `MEM_BYTES` = 0x2000, the input at 0x1000, the destination at 0x1800. -/
def start (bs : List Byte) (dlen aux : Word := 0#32) : State :=
  { State.reset with
    cfg := { Config.defaults with memLast := 0x1FFF#32 }
    mem := cells 0x1000 bs
    x := { src := 0x1000#32, slen := BitVec.ofNat 32 bs.length, dst := 0x1800#32, dlen := dlen, aux := aux,
           res0 := 0x77#32, res1 := 0x78#32, res2 := 0x79#32 } }

/-- What is seen of the next state. -/
def seen {α : Type} (o : Answer) (f : State → α) : Option α :=
  match o with
  | .next s => some (f s)
  | .fault _ => none
  | .refused _ => none

/-- The next state, or `s` where there is none. -/
def after (i : Instr) (s : State) : State := (seen (exec i s) id).getD s

/-- The results and the fault latch. -/
def results (s : State) : Word × Word × Word := (s.x.res0, s.x.res1, s.x.res2)
def latch (s : State) : BitVec 4 × Word × Word × Word := (s.err.code, s.err.cmd, s.err.got, s.err.exp)

def digits : List Byte := [0x31#8, 0x32#8, 0x33#8, 0x34#8, 0x35#8, 0x36#8, 0x37#8, 0x38#8, 0x39#8]
def hello : List Byte := [0x48#8, 0x45#8, 0x4C#8, 0x4C#8, 0x4F#8]
/-- The buffer of V1 to V13. -/
def bitBuffer : List Byte := [0xB4#8, 0x6D#8, 0xF0#8, 0x01#8]
/-- The block of V36. -/
def block : List Byte :=
  [0x00#8, 0x00#8, 0x00#8, 0x02#8, 0xED#8, 0xCB#8, 0xA9#8, 0x85#8, 0x12#8, 0x34#8, 0x56#8, 0x78#8, 0x00#8, 0x00#8, 0x00#8, 0x01#8]
/-- The stream of V108. -/
def stream : List Byte := [0x41#8, 0x42#8, 0x90#8, 0x03#8, 0x43#8, 0x90#8, 0x00#8, 0x44#8]
/-- Record 1 of V60, at offset 0 of its window. -/
def record : List Byte :=
  [0x54#8, 0x52#8, 0xFF#8, 0xFF#8, 0x00#8, 0x00#8, 0x00#8, 0x08#8, 0x00#8, 0x08#8, 0x00#8, 0x07#8, 0x00#8, 0x01#8,
   0x02#8, 0x20#8, 0x32#8, 0xEB#8, 0x00#8, 0x00#8, 0x00#8, 0x00#8] ++ stream
/-- The level-0 entry of V70. -/
def entry0 : List Byte :=
  [0x1B#8, 0x00#8, 0x2D#8, 0x6C#8, 0x68#8, 0x30#8, 0x2D#8, 0x05#8, 0x00#8, 0x00#8, 0x00#8, 0x05#8, 0x00#8, 0x00#8,
   0x00#8, 0x00#8, 0x00#8, 0x00#8, 0x00#8, 0x20#8, 0x00#8, 0x05#8, 0x41#8, 0x2E#8, 0x54#8, 0x58#8, 0x54#8, 0x41#8,
   0xE1#8] ++ hello
/-- The level-1 entry of V71, alone. -/
def entry1 : List Byte :=
  [0x1E#8, 0x00#8, 0x2D#8, 0x6C#8, 0x68#8, 0x30#8, 0x2D#8, 0x0F#8, 0x00#8, 0x00#8, 0x00#8, 0x05#8, 0x00#8, 0x00#8,
   0x00#8, 0x00#8, 0x00#8, 0x00#8, 0x00#8, 0x20#8, 0x01#8, 0x05#8, 0x41#8, 0x2E#8, 0x54#8, 0x58#8, 0x54#8, 0x41#8,
   0xE1#8, 0x41#8, 0x05#8, 0x00#8] ++
  [0x40#8, 0x20#8, 0x00#8, 0x05#8, 0x00#8, 0x00#8, 0x34#8, 0x12#8, 0x00#8, 0x00#8] ++ hello
/-- The level-2 entry of V72, alone. -/
def entry2 : List Byte :=
  [0x33#8, 0x00#8, 0x2D#8, 0x6C#8, 0x68#8, 0x30#8, 0x2D#8, 0x05#8, 0x00#8, 0x00#8, 0x00#8, 0x05#8, 0x00#8, 0x00#8,
   0x00#8, 0x00#8, 0x00#8, 0x00#8, 0x00#8, 0x20#8, 0x02#8, 0x41#8, 0xE1#8, 0x41#8, 0x08#8, 0x00#8] ++
  [0x01#8, 0x41#8, 0x2E#8, 0x54#8, 0x58#8, 0x54#8, 0x0B#8, 0x00#8, 0x02#8, 0x44#8, 0x49#8, 0x52#8, 0xFF#8, 0x53#8,
   0x55#8, 0x42#8, 0xFF#8, 0x05#8, 0x00#8, 0x00#8, 0xCD#8, 0xAB#8, 0x00#8, 0x00#8, 0x00#8] ++ hello
/-- The level-3 entry of V73, alone. -/
def entry3 : List Byte :=
  [0x04#8, 0x00#8, 0x2D#8, 0x6C#8, 0x68#8, 0x30#8, 0x2D#8, 0x05#8, 0x00#8, 0x00#8, 0x00#8, 0x05#8, 0x00#8, 0x00#8,
   0x00#8, 0x00#8, 0x00#8, 0x00#8, 0x00#8, 0x20#8, 0x03#8, 0x41#8, 0xE1#8, 0x41#8, 0x00#8, 0x00#8, 0x00#8, 0x0A#8,
   0x00#8, 0x00#8, 0x00#8] ++
  [0x01#8, 0x41#8, 0x2E#8, 0x54#8, 0x58#8, 0x54#8, 0x00#8, 0x00#8, 0x00#8, 0x00#8] ++ hello

/-! ### Well-formedness: what each check refuses (R83, R100) -/

theorem test_wf_rdu : (Instr.brRdu 33#8).wf = false ∧ (Instr.brRdu 32#8).wf = true := by decide
theorem test_wf_rds : (Instr.brRds 33#8).wf = false ∧ (Instr.brRds 32#8).wf = true := by decide
theorem test_wf_lit : (Instr.rleLit 0x90#8).wf = false ∧ (Instr.rleLit 0x91#8).wf = true := by decide
theorem test_wf_run8_zero : (Instr.rleRun8 0#8 5#8).wf = false ∧ (Instr.rleRun8 1#8 5#8).wf = true := by decide
theorem test_wf_run8_long : (Instr.rleRun8 0xFF#8 5#8).wf = false ∧ (Instr.rleRun8 0xFE#8 0x90#8).wf = true := by decide

/-! ### Decoding of words written out from R81 to R84 and of token bytes from R100 -/

theorem test_decode_reader :
    decodeWord 0b00000000000000000000000000010000#32 = .ok (.brBind .msbFirst) ∧
    decodeWord 0b00000000000000000000000100010000#32 = .ok (.brBind .lsbFirst) ∧
    decodeWord 0b00000000000000000000010100010001#32 = .ok (.brRdu 5#8) ∧
    decodeWord 0b00000000000000000010000000010010#32 = .ok (.brRds 32#8) := ⟨rfl, rfl, rfl, rfl⟩
theorem test_decode_crc :
    decodeWord 0b00000000000000000000000000100000#32 = .ok .crcInit ∧
    decodeWord 0b00000000000000000000000000100001#32 = .ok .crcUpd ∧
    decodeWord 0b00000000000000000000000000100010#32 = .ok .crcRun := ⟨rfl, rfl, rfl⟩
theorem test_decode_sum :
    decodeWord 0b00000000000000000000000000110000#32 = .ok .sumInit ∧
    decodeWord 0b00000000000000000000000000110001#32 = .ok .sumUpd ∧
    decodeWord 0b00000000000000000000000000110010#32 = .ok .sumRun ∧
    decodeWord 0b00000000000000000000000000110011#32 = .ok .sum32Chk := ⟨rfl, rfl, rfl, rfl⟩
theorem test_decode_rle_dms :
    decodeWord 0b00000000000000000000000001000000#32 = .ok .rleExpand ∧
    decodeWord 0b00000000000000000000000001010000#32 = .ok .dmsOpen ∧
    decodeWord 0b00000000000000000000000001010001#32 = .ok .dmsTrack ∧
    decodeWord 0b00000000000000000000000001010010#32 = .ok (.dmsUnpack false) ∧
    decodeWord 0b00000000000000000000000101010010#32 = .ok (.dmsUnpack true) := ⟨rfl, rfl, rfl, rfl, rfl⟩
theorem test_decode_lzh_control :
    decodeWord 0b00000000000000000000000001100000#32 = .ok .lzhParse ∧
    decodeWord 0b00000000000000000000000001100001#32 = .ok .lzhExt ∧
    decodeWord 0b00000000000000000000000001100010#32 = .ok .lzhCrc ∧
    decodeWord 0b00000000000000000000000001110000#32 = .ok .errClr := ⟨rfl, rfl, rfl, rfl⟩
theorem test_decode_tokens :
    decode (.token [0b01000001#8]) = .ok (.rleLit 0x41#8) ∧
    decode (.token [0b10010000#8, 0b00000000#8]) = .ok .rleEsc90 ∧
    decode (.token [0b10010000#8, 0b11111110#8, 0b10010000#8]) = .ok (.rleRun8 0xFE#8 0x90#8) ∧
    decode (.token [0b10010000#8, 0b11111111#8, 0b01000001#8, 0b00000001#8, 0b00101100#8]) =
      .ok (.rleRun16 0x41#8 0x01#8 0x2C#8) := ⟨rfl, rfl, rfl, rfl⟩
/-- V80 to V87. -/
theorem test_decode_illegal :
    [0x00000000#32, 0xFFFFFFFF#32, 0x00002111#32, 0x00000170#32, 0x00010022#32, 0x00000252#32, 0x00000013#32,
      0x00000023#32, 0x00000034#32, 0x00000041#32, 0x00000053#32, 0x00000063#32, 0x00000071#32, 0x00000080#32,
      0x00000210#32].all (fun w => (decodeWord w).toOption.isNone) = true := by decide
/-- Words and tokens as spec/opcode_table.json numbers them (log entry 6). -/
theorem test_table_words :
    [decodeTableWord 32 0x2011, decodeTableWord 8 0x41, decodeTableWord 16 0x9000, decodeTableWord 24 0x900341,
      decodeTableWord 40 0x90FF41012C] =
    [some (.brRdu 32#8), some (.rleLit 0x41#8), some .rleEsc90, some (.rleRun8 3#8 0x41#8),
      some (.rleRun16 0x41#8 0x01#8 0x2C#8)] := by decide

/-! ### One step of each instruction; the expected values are the spec's vectors -/

/-- R111, its example with the mode bit, and V9. -/
theorem test_bind : seen (exec (.brBind .lsbFirst) (start bitBuffer)) (fun t => (t.br.base, t.br.len, t.br.pos, t.br.mode)) =
    some (0x1000#32, 4#29, 0#32, .lsbFirst) := by decide
theorem test_bind_outside : seen (exec (.brBind .msbFirst)
    { start bitBuffer with x := { (start bitBuffer).x with src := 0x1FFE#32 } }) latch =
    some (5#4, 0x10#32, 0#32, 0#32) := by decide
/-- V2: nine bits from bit 4 on, MSB-first. -/
theorem test_rdu : seen (exec (.brRdu 9#8)
    { start bitBuffer with br := { base := 0x1000#32, len := 4#29, pos := 4#32, mode := .msbFirst } })
    (fun t => (t.x.res0, t.br.pos)) = some (0x8D#32, 13#32) := by decide
/-- V5: the same bits LSB-first under `shift_left`. -/
theorem test_rdu_shift_left : seen (exec (.brRdu 9#8)
    { start bitBuffer with
      cfg := { Config.defaults with lsbAssembly := .shiftLeft }
      br := { base := 0x1000#32, len := 4#29, pos := 4#32, mode := .lsbFirst } })
    (fun t => (t.x.res0, t.br.pos)) = some (0x1B6#32, 13#32) := by decide
/-- V4: the sign bit is the last bit taken under `lsb_to_lsb`. -/
theorem test_rds : seen (exec (.brRds 3#8)
    { start bitBuffer with br := { base := 0x1000#32, len := 4#29, pos := 0#32, mode := .lsbFirst } })
    (fun t => (t.x.res0, t.br.pos)) = some (0xFFFFFFFC#32, 3#32) := by decide
/-- V2: `BR.RDU 2` at bit 31 is refused whole; here as the signed read. -/
theorem test_rds_overrun : seen (exec (.brRds 2#8)
    { start bitBuffer with br := { base := 0x1000#32, len := 4#29, pos := 31#32, mode := .msbFirst } })
    (fun t => (latch t, t.br.pos, t.x.res0)) = some ((6#4, 0x212#32, 0#32, 0#32), 31#32, 0x77#32) := by decide
theorem test_crc_init : seen (exec .crcInit { start digits with crc := 0xFFFF#16 }) (fun t => (t.crc, t.x.res0)) =
    some (0#16, 0x77#32) := by decide
/-- V27 (a). -/
theorem test_crc_upd : seen (exec .crcUpd { start digits with crc := 0xFFFF#16 }) (fun t => (t.crc, t.x.res0)) =
    some (0x4B37#16, 0x4B37#32) := by decide +kernel
/-- V23, V27 (d). -/
theorem test_crc_run : seen (exec .crcRun { start digits with crc := 0xFFFF#16 }) (fun t => (t.crc, t.x.res0)) =
    some (0xBB3D#16, 0xBB3D#32) := by decide +kernel
theorem test_sum_init : seen (exec .sumInit { start digits with sum := 0xFFFF#16 }) (fun t => (t.sum, t.x.res0)) =
    some (0#16, 0x77#32) := by decide
/-- The sum wraps: 0xFFFF and the byte 02. -/
theorem test_sum_upd : seen (exec .sumUpd { start [0x02#8] with sum := 0xFFFF#16 }) (fun t => (t.sum, t.x.res0)) =
    some (0x0001#16, 0x0001#32) := by decide
/-- V31. -/
theorem test_sum_run : seen (exec .sumRun { start digits with sum := 0xFFFF#16 }) (fun t => (t.sum, t.x.res0)) =
    some (0x01DD#16, 0x01DD#32) := by decide
/-- V36. -/
theorem test_sum32 : seen (exec .sum32Chk (start block 0#32 4#32)) results =
    some (0xEDCBA985#32, 0xEDCBA985#32, 0x79#32) := by decide
/-- V37. -/
theorem test_sum32_flipped : seen (exec .sum32Chk (start (block.set 9 0x24#8) 0#32 4#32)) (fun t => (latch t, t.x.res0)) =
    some ((2#4, 0x33#32, 0xEDDBA985#32, 0xEDCBA985#32), 0x77#32) := by decide
/-- V108. -/
theorem test_rle : seen (exec .rleExpand (start stream 7#32))
    (fun t => (t.x.res0, (List.range 7).map (fun j => t.mem.read (0x1800 + j)))) =
    some (7#32, [0x41#8, 0x42#8, 0x43#8, 0x43#8, 0x43#8, 0x90#8, 0x44#8]) := by decide
/-- V109. -/
theorem test_rle_too_long : seen (exec .rleExpand (start stream 6#32)) (fun t => (latch t, t.x.res0)) =
    some ((1#4, 0x40#32, 0#32, 0#32), 0x77#32) := by decide
/-- V60a and V120, on a window that starts with the four magic bytes. -/
theorem test_dms_open : seen (exec .dmsOpen (start ([0x44#8, 0x4D#8, 0x53#8, 0x21#8] ++ List.replicate 52 0#8)))
    (fun t => t.x.res0) = some 56#32 := by decide
theorem test_dms_open_magic : seen (exec .dmsOpen (start ([0x44#8, 0x4D#8, 0x53#8, 0x3F#8] ++ List.replicate 52 0#8)))
    latch = some (1#4, 0x50#32, 0#32, 0#32) := by decide
/-- V60c's number -1 in V60's first record, which stands at offset 0. -/
theorem test_dms_track : seen (exec .dmsTrack (start record)) (fun t => (results t, t.trk)) =
    some ((1#32, 30#32, 22#32),
      { valid := true, num := 0xFFFFFFFF#32, pklen := 8#16, ulenA := 8#16, ulenB := 7#16, flags := 0#8, mode := 1#8,
        usum := 0x0220#16, dcrc := 0x32EB#16, hcrc := 0#16, pay := 22#32, next := 30#32 }) := by decide
/-- V60d: none found. -/
theorem test_dms_track_none : seen (exec .dmsTrack { start record 0#32 30#32 with trk := { Track.zero with valid := true } })
    (fun t => (results t, t.trk.valid, t.err.code)) = some ((0#32, 0x78#32, 0x79#32), false, 0#4) := by decide
/-- V62. -/
theorem test_dms_unpack : seen (exec (.dmsUnpack true) (start record 16#32))
    (fun t => (results t, (List.range 7).map (fun j => t.mem.read (0x1800 + j)), t.crc)) =
    some ((7#32, 30#32, 22#32), [0x41#8, 0x42#8, 0x43#8, 0x43#8, 0x43#8, 0x90#8, 0x44#8], 0#16) := by decide +kernel
/-- V67: the CRC step comes before the mode dispatch. -/
theorem test_dms_unpack_order : seen (exec (.dmsUnpack true) (start ((record.set 13 2#8).set 22 0x40#8) 16#32)) latch =
    some (2#4, 0x152#32, 0xFE2A#32, 0x32EB#32) := by decide +kernel
/-- V71, at offset 0. -/
theorem test_lzh_parse : seen (exec .lzhParse (start entry1)) (fun t => (results t, t.lzh.values)) =
    some ((47#32, 42#32, 5#32),
      { level := 1, hdrlen := 42, packed := 5, pay := 42, last := 47, ucrc := 0xE141, hcrc := 0x1234, flags := 3,
        nameOff := 22, nameLen := 5, dirOff := 0, dirLen := 0, extCnt := 2, extBytes := 10, ext0 := 32, fwd0 := 5 }) := by
  decide
/-- V72, at offset 0. -/
theorem test_lzh_parse2 : seen (exec .lzhParse (start entry2)) (fun t => t.lzh.values) =
    some { level := 2, hdrlen := 51, packed := 5, pay := 51, last := 56, ucrc := 0xE141, hcrc := 0xABCD, flags := 7,
           nameOff := 27, nameLen := 5, dirOff := 35, dirLen := 8, extCnt := 3, extBytes := 24, ext0 := 26, fwd0 := 8 } := by
  decide
/-- V76, k = 1, at offset 0. -/
theorem test_lzh_ext : seen (exec .lzhExt
    { after .lzhParse (start entry2) with x := { (start entry2).x with aux := 1#32 } }) results =
    some (2#32, 35#32, 8#32) := by decide
/-- V77, k = 1: absent, no fault. -/
theorem test_lzh_ext_absent : seen (exec .lzhExt
    { after .lzhParse (start entry3) with x := { (start entry3).x with aux := 1#32 } }) results =
    some (0xFFFFFFFF#32, 0#32, 0#32) := by decide
/-- V78. -/
theorem test_lzh_crc : seen (exec .lzhCrc (after .lzhParse (start entry0))) (fun t => (t.x.res0, t.crc)) =
    some (0xE141#32, 0#16) := by decide +kernel
/-- V79: the first payload byte is 49. -/
theorem test_lzh_crc_mismatch : seen (exec .lzhCrc (after .lzhParse (start (entry0.set 29 0x49#8)))) latch =
    some (2#4, 0x62#32, 0x217C#32, 0xE141#32) := by decide +kernel
/-- V91. -/
theorem test_err_clr : seen (exec .errClr { start [] with err := { code := 2#4, cmd := 1#32, got := 2#32, exp := 3#32 } })
    latch = some (0#4, 0#32, 0#32, 0#32) := by decide
/-- R100, one token each, on an expansion with no output yet. -/
theorem test_token_lit : seen (exec (.rleLit 0x41#8) { start [] 1#32 with rle := some { input := [], out := [] } })
    (fun t => t.rle) = some (some { input := [], out := [0x41#8] }) := by decide
theorem test_token_esc90 : seen (exec .rleEsc90 { start [] 1#32 with rle := some { input := [], out := [] } })
    (fun t => t.rle) = some (some { input := [], out := [0x90#8] }) := by decide
theorem test_token_run8 : seen (exec (.rleRun8 3#8 0x41#8) { start [] 3#32 with rle := some { input := [], out := [] } })
    (fun t => t.rle) = some (some { input := [], out := [0x41#8, 0x41#8, 0x41#8] }) := by decide
/-- The long count is big-endian: 0x0102 = 258 copies. -/
theorem test_token_run16 : seen (exec (.rleRun16 0x41#8 0x01#8 0x02#8) { start [] 300#32 with rle := some { input := [], out := [] } })
    (fun t => t.rle.map (fun r => r.out.length)) = some (some 258) := by decide +kernel

/-! ### The step (V88, V93, V94, and the fetch) -/

/-- V88: a halted block drops `CRC.RUN`. -/
theorem test_halted : seen (step { start digits with script := [.regWrite 8#6 0x22#32], err := { code := 4#4, cmd := 0#32, got := 0#32, exp := 0#32 } })
    (fun t => (latch t, t.crc, t.x.res0)) = some ((4#4, 0#32, 0#32, 0#32), 0#16, 0x77#32) := by decide
/-- V93, V27 (e): `BR_POS` is read only; `CRC` takes 16 bits. -/
theorem test_reg_write : seen (step { start digits with script := [.regWrite 15#6 7#32] }) (fun t => t.br.pos) = some 0#32 ∧
    seen (step { start digits with script := [.regWrite 17#6 0x12345678#32] }) (fun t => t.crc) = some 0x5678#16 := by decide
theorem test_fetch_command : seen (step (State.reset.withFetchWord 32 0x70)) (fun t => (t.script, latch t)) =
    some ([], (0#4, 0#32, 0#32, 0#32)) := by decide
theorem test_fetch_token : seen (step ((start [] 3#32).withFetchWord 24 0x900341)) (fun t => t.rle) =
    some (some { input := [], out := [0x41#8, 0x41#8, 0x41#8] }) := by decide

end Sys2Proof.Tests

namespace Sys2Proof.Tests

/-! ### Witnesses: for every statement with hypotheses, a concrete state and operands that meet them all -/

/-- `start` with every address of 32 bits in memory. -/
def wide (s : State) : State := { s with cfg := Config.defaults }

theorem witness_DecodeOfEncodeIsTheInstruction :
    (Instr.brRdu 32#8).wf = true ∧ (Instr.brRds 0#8).wf = true ∧ (Instr.rleLit 0xFF#8).wf = true ∧
      (Instr.rleRun8 0xFE#8 0x90#8).wf = true ∧ (Instr.rleRun8 1#8 0#8).wf = true := by decide
theorem witness_DecodedWordIsTheEncodingOfItsCommand : decodeWord 0x2011#32 = .ok (.brRdu 32#8) := rfl
theorem witness_IllegalWordsRaiseIllegalCommand :
    (∃ e, decodeWord 0x00000000#32 = .error e) ∧ (∃ e, decodeWord 0x00010022#32 = .error e) ∧
      (∃ e, decodeWord 0x00000122#32 = .error e) ∧ (∃ e, decodeWord 0x00000210#32 = .error e) ∧
      (∃ e, decodeWord 0x00002111#32 = .error e) ∧ State.reset.err.code = 0#4 :=
  ⟨⟨_, rfl⟩, ⟨_, rfl⟩, ⟨_, rfl⟩, ⟨_, rfl⟩, ⟨_, rfl⟩, rfl⟩
theorem witness_TokenDecodesFromItsBytesOnly :
    (RleToken.run8 0xFE#8 0x90#8).wf = true ∧ decodeToken [0x90#8, 0x01#8, 0x90#8, 0x00#8] = .ok (.run8 1#8 0x90#8, [0x00#8]) :=
  ⟨rfl, rfl⟩
theorem witness_StepRunsTheIssuedCommand :
    let s := { start digits with script := [.regWrite 8#6 0x22#32] }
    s.rle = none ∧ s.script = [.regWrite 8#6 0x22#32] ∧ s.err.code = 0#4 ∧ decodeWord 0x22#32 = .ok .crcRun :=
  ⟨rfl, rfl, rfl, rfl⟩
theorem witness_StepRunsTheNextToken :
    (RleToken.run8 3#8 0x41#8).wf = true ∧ [0x90#8, 0x03#8, 0x41#8, 0x44#8] = (RleToken.run8 3#8 0x41#8).bytes ++ [0x44#8] :=
  ⟨rfl, rfl⟩
theorem witness_HaltedBlockTakesOnlyErrClr :
    let s := { start digits with script := [.regWrite 8#6 0x170#32], err := Cause.illegal.latch 0#32 }
    s.rle = none ∧ s.script = [.regWrite 8#6 0x170#32] ∧ s.err.code ≠ 0#4 ∧ (0x170#32 : Word) ≠ 0x70#32 ∧
      ({ s with script := [.regWrite 8#6 0x70#32] } : State).rle = none := by decide
theorem witness_RegReadFollowsTheRegisterMap :
    let s := { start digits with script := [.regRead 63#6] }
    s.rle = none ∧ s.script = [.regRead 63#6] := ⟨rfl, rfl⟩
theorem witness_RegWriteReachesOnlyHostWritableRegisters :
    (0#6 : BitVec 6) ≠ 8#6 ∧ (7#6 : BitVec 6) ≠ 8#6 ∧ (9#6 : BitVec 6) ≠ 8#6 ∧ (17#6 : BitVec 6) ≠ 8#6 ∧
      (18#6 : BitVec 6) ≠ 8#6 ∧ (63#6 : BitVec 6) ≠ 8#6 ∧
      ({ State.reset with script := [.regWrite 63#6 1#32] } : State).rle = none := by decide
theorem witness_HostReadsBackTheByteItStored :
    let s := { start [] with script := [.memWrite 0x1FFF#32 5#8, .memRead 0#32] }
    s.rle = none ∧ (0x1FFF#32 : Word).toNat < s.cfg.memBytes ∧ (0#32 : Word).toNat < s.cfg.memBytes := by decide
theorem witness_ResetEventClearsRegistersAndKeepsMemory :
    let s := { start digits with script := [.reset] }
    s.rle = none ∧ s.script = [.reset] := ⟨rfl, rfl⟩
/-- R111 at its bounds: the window that ends where memory ends, the longest buffer, and one more of each. -/
theorem witness_BindRecordsTheWindowAndRewinds :
    (let s := { start [] with x := { Regs.zero with src := 0x2000#32 } }
     s.x.src.toNat + s.x.slen.toNat ≤ s.cfg.memBytes ∧ s.x.slen.toNat ≤ 0x1FFFFFFF) ∧
    (let s := wide { start [] with x := { Regs.zero with slen := 0x1FFFFFFF#32 } }
     s.x.src.toNat + s.x.slen.toNat ≤ s.cfg.memBytes ∧ s.x.slen.toNat ≤ 0x1FFFFFFF) ∧
    (let s := { start [] with x := { Regs.zero with src := 0x2000#32, slen := 1#32 } }
     s.cfg.memBytes < s.x.src.toNat + s.x.slen.toNat) ∧
    (let s := wide { start [] with x := { Regs.zero with slen := 0x20000000#32 } }
     0x1FFFFFFF < s.x.slen.toNat) := by decide
/-- A reader bound to the four bytes of V1, at bit `pos`. -/
def bound (pos : Word) : State :=
  { start bitBuffer with br := { base := 0x1000#32, len := 4#29, pos := pos, mode := .lsbFirst } }
/-- R115 at its bounds: the whole buffer, no bit at the end of the buffer, the last bit. -/
theorem witness_BitReadsReturnTheFieldAndAdvance :
    (bound 0#32).br.base.toNat + (bound 0#32).br.len.toNat ≤ (bound 0#32).cfg.memBytes ∧
    ((32#8 : Byte).toNat ≤ 32 ∧ (bound 0#32).br.pos.toNat + (32#8 : Byte).toNat ≤ 8 * (bound 0#32).br.len.toNat) ∧
    ((0#8 : Byte).toNat ≤ 32 ∧ (bound 32#32).br.pos.toNat + (0#8 : Byte).toNat ≤ 8 * (bound 32#32).br.len.toNat) ∧
    ((1#8 : Byte).toNat ≤ 32 ∧ (bound 31#32).br.pos.toNat + (1#8 : Byte).toNat ≤ 8 * (bound 31#32).br.len.toNat) := by decide
theorem witness_ReadPastTheEndRaisesBrOverrun :
    ((2#8 : Byte).toNat ≤ 32 ∧ 8 * (bound 31#32).br.len.toNat < (bound 31#32).br.pos.toNat + (2#8 : Byte).toNat) ∧
    ((32#8 : Byte).toNat ≤ 32 ∧ 8 * State.reset.br.len.toNat < State.reset.br.pos.toNat + (32#8 : Byte).toNat) := by decide
theorem witness_BitsAreNumberedByTheMode :
    (bound 0#32).br.mode = .lsbFirst ∧ State.reset.br.mode = .msbFirst := by decide
theorem witness_SplitReadsGiveTheSameBits :
    (8#8 : Byte).toNat = (3#8 : Byte).toNat + (5#8 : Byte).toNat ∧ (8#8 : Byte).toNat ≤ 32 ∧
      (bound 0#32).br.pos.toNat + (8#8 : Byte).toNat ≤ 8 * (bound 0#32).br.len.toNat ∧
      exec (.brRdu 3#8) (bound 0#32) = .next (after (.brRdu 3#8) (bound 0#32)) ∧
      exec (.brRdu 5#8) (after (.brRdu 3#8) (bound 0#32)) = .next (after (.brRdu 5#8) (after (.brRdu 3#8) (bound 0#32))) ∧
      exec (.brRdu 8#8) (bound 0#32) = .next (after (.brRdu 8#8) (bound 0#32)) :=
  ⟨by decide, by decide, by decide, rfl, rfl, rfl⟩
theorem witness_AlignedByteReadReturnsTheByteInMemory :
    (bound 24#32).br.pos.toNat % 8 = 0 ∧ (bound 24#32).br.pos.toNat + 8 ≤ 8 * (bound 24#32).br.len.toNat ∧
      (bound 24#32).br.base.toNat + (bound 24#32).br.len.toNat ≤ (bound 24#32).cfg.memBytes ∧
      (bound 24#32).cfg.lsbAssembly = .lsbToLsb := by decide
/-- `SRC` and `SLEN` only. -/
def windowed (src slen : Word) : State := { start [] with x := { Regs.zero with src := src, slen := slen } }
/-- R62 at its bound. -/
theorem witness_CrcCommandsFoldTheSourceWindow :
    (windowed 0x1FFF#32 1#32).x.src.toNat + (windowed 0x1FFF#32 1#32).x.slen.toNat ≤ (windowed 0x1FFF#32 1#32).cfg.memBytes ∧
    (windowed 0x1FFF#32 2#32).cfg.memBytes < (windowed 0x1FFF#32 2#32).x.src.toNat + (windowed 0x1FFF#32 2#32).x.slen.toNat := by decide
theorem witness_SumCommandsAddTheSourceWindow :
    (windowed 0x1FFF#32 1#32).x.src.toNat + (windowed 0x1FFF#32 1#32).x.slen.toNat ≤ (windowed 0x1FFF#32 1#32).cfg.memBytes ∧
    (windowed 0x1FFF#32 2#32).cfg.memBytes < (windowed 0x1FFF#32 2#32).x.src.toNat + (windowed 0x1FFF#32 2#32).x.slen.toNat := witness_CrcCommandsFoldTheSourceWindow
theorem witness_CrcConcatenatesAndIsLinear : [1#8, 2#8].length = [3#8, 4#8].length := by decide
theorem witness_SumIsTheByteSumModulo65536 : [1#8, 2#8].Perm [2#8, 1#8] := by decide
theorem witness_AdjacentUpdatesEqualOneUpdate :
    let s := start digits
    s.x.slen.toNat = (5#32 : Word).toNat + (4#32 : Word).toNat ∧ s.x.src.toNat + s.x.slen.toNat ≤ s.cfg.memBytes ∧
      (∃ t, exec .crcUpd s = .next t) ∧
      (∃ s1 s2, exec .crcUpd { s with x := { s.x with slen := 5#32 } } = .next s1 ∧
        exec .crcUpd { s1 with x := { s1.x with src := s.x.src + 5#32, slen := 4#32 } } = .next s2) :=
  ⟨by decide, by decide, ⟨_, rfl⟩, ⟨_, _, rfl, rfl⟩⟩
/-- R141: the valid block of V36, its flipped form V37, and each OperandFault. -/
theorem witness_Sum32ChkComparesTheTwoChecksums :
    (let s := start block 0#32 4#32
     (0xEDCBA985#32 : Word) = sum32Neg s.srcByte s.x.slen.toNat s.x.aux.toNat ∧
       (0xEDCBA985#32 : Word).toNat = be32 s.srcByte s.x.aux.toNat ∧ s.x.slen ≠ 0#32 ∧ s.x.slen.toNat % 4 = 0 ∧
       s.x.aux.toNat % 4 = 0 ∧ s.x.aux.toNat < s.x.slen.toNat ∧ s.x.src.toNat + s.x.slen.toNat ≤ s.cfg.memBytes) ∧
    (let s := start (block.set 9 0x24#8) 0#32 4#32
     (0xEDDBA985#32 : Word) = sum32Neg s.srcByte s.x.slen.toNat s.x.aux.toNat ∧
       (0xEDCBA985#32 : Word).toNat = be32 s.srcByte s.x.aux.toNat ∧ (0xEDDBA985#32 : Word) ≠ 0xEDCBA985#32) ∧
    (start [] 0#32 0#32).x.slen = 0#32 ∧ (start hello 0#32 0#32).x.slen.toNat % 4 ≠ 0 ∧
    (start block 0#32 2#32).x.aux.toNat % 4 ≠ 0 ∧
    (start block 0#32 16#32).x.slen.toNat ≤ (start block 0#32 16#32).x.aux.toNat := by decide
theorem witness_ValidBlockWordsSumToZero : (3 : Nat) < 4 := by decide
theorem witness_SingleBitFlipIsRejected :
    let s := start block 0#32 4#32
    s.x.src.toNat + s.x.slen.toNat ≤ s.cfg.memBytes ∧ s.x.slen.toNat % 4 = 0 ∧ s.x.aux.toNat % 4 = 0 ∧
      s.x.aux.toNat < s.x.slen.toNat ∧
      (sum32Neg s.srcByte s.x.slen.toNat s.x.aux.toNat).toNat = be32 s.srcByte s.x.aux.toNat ∧
      s.x.src.toNat ≤ 0x100F ∧ 0x100F < s.x.src.toNat + s.x.slen.toNat ∧ 7 < 8 := by decide
/-- An expansion with room for exactly one byte, and for none. -/
def running (dlen : Word) : State := { start [] dlen with rle := some { input := [], out := [] } }
theorem witness_EachTokenEmitsItsBytes :
    (running 1#32).rle = some { input := [], out := [] } ∧ ([] : List Byte).length + 1 ≤ (running 1#32).x.dlen.toNat ∧
      ([] : List Byte).length + (0xFE#8 : Byte).toNat ≤ (running 254#32).x.dlen.toNat ∧
      ([] : List Byte).length + (256 * (0#8 : Byte).toNat + (0#8 : Byte).toNat) ≤ (running 0#32).x.dlen.toNat := by decide
theorem witness_TokenPastTheDeclaredLengthIsStructural :
    let s := running 2#32
    s.x.dst.toNat + s.x.dlen.toNat ≤ s.cfg.memBytes ∧
      s.x.dlen.toNat < s.rleCurrent.out.length + (tokenOutput (.run8 3#8 0x41#8)).length := by decide
/-- The tokens of V108. -/
def streamTokens : List RleToken := [.lit 0x41#8, .lit 0x42#8, .run8 3#8 0x43#8, .esc90, .lit 0x44#8]
theorem witness_RleExpandWritesTheExpansion :
    let s := start stream 7#32
    s.x.src.toNat + s.x.slen.toNat ≤ s.cfg.memBytes ∧ s.x.dst.toNat + s.x.dlen.toNat ≤ s.cfg.memBytes ∧
      ¬ s.windowsOverlap ∧ (∀ t ∈ streamTokens, t.wf = true) ∧ s.window = streamTokens.flatMap RleToken.bytes ∧
      (streamTokens.flatMap tokenOutput).length = s.x.dlen.toNat := by decide
/-- R153: a window that overlaps (V111), and an input of no token for a declared length of 1 (V47). -/
theorem witness_RleExpandFaults :
    ({ start stream 7#32 with x := { (start stream 7#32).x with dst := 0x1004#32 } } : State).windowsOverlap ∧
    (let s := start [] 1#32
     s.x.src.toNat + s.x.slen.toNat ≤ s.cfg.memBytes ∧ s.x.dst.toNat + s.x.dlen.toNat ≤ s.cfg.memBytes ∧
       ¬ s.windowsOverlap ∧
       ∀ ts : List RleToken, (∀ t ∈ ts, t.wf = true) → s.window = ts.flatMap RleToken.bytes →
         (ts.flatMap tokenOutput).length ≠ s.x.dlen.toNat) := by
  refine ⟨by decide, by decide, by decide, by decide, ?_⟩
  intro ts _ h
  cases ts with
  | nil => decide
  | cons t ts => cases t <;> simp [start, State.window, State.srcBytes, RleToken.bytes] at h
theorem witness_TokenByTokenRunEqualsRleExpand :
    let s := start stream 7#32
    s.rle = none ∧ s.x.src.toNat + s.x.slen.toNat ≤ s.cfg.memBytes ∧
      s.x.dst.toNat + s.x.dlen.toNat ≤ s.cfg.memBytes ∧ ¬ s.windowsOverlap := by decide
theorem witness_DecompressorHoldsNoStateBetweenCommands : State.reset.rle = none ∧ step State.reset = .next State.reset :=
  ⟨rfl, rfl⟩
/-- R166 at its bound: 56 bytes with the magic, 55 bytes, and a wrong magic. -/
theorem witness_DmsOpenChecksLengthAndMagic :
    (let s := start ([0x44#8, 0x4D#8, 0x53#8, 0x21#8] ++ List.replicate 52 0#8)
     s.x.src.toNat + s.x.slen.toNat ≤ s.cfg.memBytes ∧ 56 ≤ s.x.slen.toNat ∧
       s.srcBytes 0 4 = [0x44#8, 0x4D#8, 0x53#8, 0x21#8]) ∧
    (start (List.replicate 55 0#8)).x.slen.toNat < 56 ∧
    (start (List.replicate 56 0#8)).srcBytes 0 4 ≠ [0x44#8, 0x4D#8, 0x53#8, 0x21#8] := by decide
/-- A record that ends where its window ends, for both values of `TRK_PAYLOAD_OFF`. -/
theorem witness_DmsTrackLatchesTheRecord :
    (let s := start record
     s.x.src.toNat + s.x.slen.toNat ≤ s.cfg.memBytes ∧ s.srcByte s.x.aux.toNat = 0x54#8 ∧
       s.srcByte (s.x.aux.toNat + 1) = 0x52#8 ∧
       s.x.aux.toNat + s.cfg.payloadOff + be16 s.srcByte (s.x.aux.toNat + 6) ≤ s.x.slen.toNat) ∧
    (let s := { start record with cfg := { Config.defaults with trackLayout := .payloadAt20 } }
     s.x.aux.toNat + s.cfg.payloadOff + be16 s.srcByte (s.x.aux.toNat + 6) ≤ s.x.slen.toNat) := by decide
/-- A window outside memory; one byte left; bytes that are no signature; a record one byte short. -/
theorem witness_DmsTrackReportsNoneOrCutShort :
    (windowed 0x1FFF#32 2#32).cfg.memBytes < (windowed 0x1FFF#32 2#32).x.src.toNat + (windowed 0x1FFF#32 2#32).x.slen.toNat ∧
    (start record 0#32 29#32).x.slen.toNat < (start record 0#32 29#32).x.aux.toNat + 2 ∧
    (start record 0#32 1#32).srcByte 1 ≠ 0x54#8 ∧
    (let s := start (record.take 29)
     s.x.src.toNat + s.x.slen.toNat ≤ s.cfg.memBytes ∧ s.x.aux.toNat + 2 ≤ s.x.slen.toNat ∧
       s.srcByte s.x.aux.toNat = 0x54#8 ∧ s.srcByte (s.x.aux.toNat + 1) = 0x52#8 ∧
       s.x.slen.toNat < s.x.aux.toNat + s.cfg.payloadOff + be16 s.srcByte (s.x.aux.toNat + 6)) := by decide
/-- The parsed record of `record`. -/
def parsed (mode : Byte) : Track :=
  { valid := true, num := 0xFFFFFFFF#32, pklen := 8#16, ulenA := 8#16, ulenB := 7#16, flags := 0#8, mode := mode,
    usum := 0x0220#16, dcrc := 0x32EB#16, hcrc := 0#16, pay := 22#32, next := 30#32 }
/-- V62 at its bound: the capacity is exactly the output's length. -/
theorem witness_DmsUnpackDeliversTheTrack :
    let s := start record 7#32
    s.x.src.toNat + s.x.slen.toNat ≤ s.cfg.memBytes ∧ s.x.dst.toNat + s.x.dlen.toNat ≤ s.cfg.memBytes ∧
      ¬ s.windowsOverlap ∧ s.trackHere.toOption = some (some (parsed 1#8)) ∧ (∀ k ∈ streamTokens, k.wf = true) ∧
      s.srcBytes (parsed 1#8).pay.toNat (parsed 1#8).pklen.toNat = streamTokens.flatMap RleToken.bytes ∧
      (streamTokens.flatMap tokenOutput).length = (parsed 1#8).ulenB.toNat ∧
      (streamTokens.flatMap tokenOutput).length ≤ s.x.dlen.toNat ∧
      crc16 (s.srcBytes (parsed 1#8).pay.toNat (parsed 1#8).pklen.toNat) 0#16 = (parsed 1#8).dcrc ∧
      sum16 (streamTokens.flatMap tokenOutput) 0#16 = (parsed 1#8).usum := by decide +kernel
/-- V64, V66, V117 and V65: what each clause asks of the record. -/
theorem witness_DmsUnpackFaultOrder :
    (let s := start (record.set 22 0x40#8) 7#32
     ¬ s.windowsOverlap ∧ s.trackHere.toOption = some (some (parsed 1#8)) ∧ unpackLength (parsed 1#8) ≤ s.x.dlen.toNat ∧
       crc16 (s.srcBytes 22 8) 0#16 ≠ (parsed 1#8).dcrc) ∧
    ((start (record.set 13 2#8) 7#32).trackHere.toOption = some (some (parsed 2#8)) ∧ unpackLength (parsed 2#8) ≤ 0 ∧
       (parsed 2#8).mode ≠ 0#8 ∧ (parsed 2#8).mode ≠ 1#8) ∧
    ((parsed 1#8).mode = 1#8 ∧ rleExpand (streamTokens.flatMap RleToken.bytes) 8 = none) ∧
    (unpackPlain (parsed 1#8) (streamTokens.flatMap RleToken.bytes)).toOption = some (streamTokens.flatMap tokenOutput) ∧
    sum16 (streamTokens.flatMap tokenOutput) 0#16 ≠ 0x0221#16 := by decide +kernel
/-- Overlapping windows; no record; a record cut short; a capacity of one byte less than the output. -/
theorem witness_DmsUnpackEarlyFaults :
    ({ start record 7#32 with x := { (start record 7#32).x with dst := 0x1004#32 } } : State).windowsOverlap ∧
    (start record 7#32 1#32).srcByte 1 ≠ 0x54#8 ∧ ¬ (start record 7#32 1#32).windowsOverlap ∧
    (let s := start (record.take 29) 7#32
     s.x.slen.toNat < s.x.aux.toNat + s.cfg.payloadOff + be16 s.srcByte (s.x.aux.toNat + 6)) ∧
    (let s := start record 6#32
     s.x.src.toNat + s.x.slen.toNat ≤ s.cfg.memBytes ∧ s.x.dst.toNat + s.x.dlen.toNat ≤ s.cfg.memBytes ∧
       ¬ s.windowsOverlap ∧ s.trackHere.toOption = some (some (parsed 1#8)) ∧
       s.x.dlen.toNat < (parsed 1#8).ulenB.toNat) := by decide
theorem witness_TrackScanMovesForwardInsideTheFile :
    exec .dmsTrack (start record) = .next (after .dmsTrack (start record)) ∧ (start record).err.code = 0#4 ∧
      (after .dmsTrack (start record)).err.code = 0#4 ∧ (after .dmsTrack (start record)).x.res0 = 1#32 :=
  ⟨rfl, rfl, by decide, by decide⟩
/-- The level-0 entry of V70, whose payload ends where the window ends. -/
theorem witness_ParseLevelZeroEntry :
    let s := start entry0
    s.x.src.toNat + s.x.slen.toNat ≤ s.cfg.memBytes ∧ s.srcByte 20 = 0#8 ∧ 24 + (s.srcByte 21).toNat ≤ 2 + (s.srcByte 0).toNat ∧
      0 + (2 + (s.srcByte 0).toNat) + le32 s.srcByte 7 ≤ s.x.slen.toNat := by decide
/-- The chain of V71. -/
def chain1 : List ExtBlock := [⟨0x40#8, [0x20#8, 0x00#8]⟩, ⟨0#8, [0x34#8, 0x12#8]⟩]
/-- The chain of V72. -/
def chain2 : List ExtBlock :=
  [⟨1#8, [0x41#8, 0x2E#8, 0x54#8, 0x58#8, 0x54#8]⟩,
   ⟨2#8, [0x44#8, 0x49#8, 0x52#8, 0xFF#8, 0x53#8, 0x55#8, 0x42#8, 0xFF#8]⟩, ⟨0#8, [0xCD#8, 0xAB#8]⟩]
/-- The chain of V73. -/
def chain3 : List ExtBlock := [⟨1#8, [0x41#8, 0x2E#8, 0x54#8, 0x58#8, 0x54#8]⟩]
theorem chainAt1 : ChainAt (start entry1).srcByte 2 32 (le16 (start entry1).srcByte 30) chain1 := by
  simp only [chain1, ChainAt]
  decide
theorem chainAt2 : ChainAt (start entry2).srcByte 2 26 (le16 (start entry2).srcByte 24) chain2 := by
  simp only [chain2, ChainAt]
  decide
theorem chainAt3 : ChainAt (start entry3).srcByte 4 31 (le32 (start entry3).srcByte 27) chain3 := by
  simp only [chain3, ChainAt]
  decide
theorem witness_ParseLevelOneEntry :
    let s := start entry1
    s.x.src.toNat + s.x.slen.toNat ≤ s.cfg.memBytes ∧ s.srcByte 20 = 1#8 ∧ 26 + (s.srcByte 21).toNat ≤ 2 + (s.srcByte 0).toNat ∧
      2 + (s.srcByte 0).toNat = 32 ∧ ChainAt s.srcByte 2 32 (le16 s.srcByte 30) chain1 ∧
      (∀ b ∈ chain1, b.tag = 0#8 → 2 ≤ b.data.length) ∧ chainSize 2 chain1 ≤ le32 s.srcByte 7 ∧
      0 + 32 + le32 s.srcByte 7 ≤ s.x.slen.toNat :=
  ⟨by decide, by decide, by decide, by decide, chainAt1, by decide, by decide, by decide⟩
theorem witness_ParseLevelTwoEntry :
    let s := start entry2
    s.x.src.toNat + s.x.slen.toNat ≤ s.cfg.memBytes ∧ s.srcByte 20 = 2#8 ∧
      ChainAt s.srcByte 2 26 (le16 s.srcByte 24) chain2 ∧ (∀ b ∈ chain2, b.tag = 0#8 → 2 ≤ b.data.length) ∧
      26 + chainSize 2 chain2 ≤ le16 s.srcByte 0 ∧ 0 + le16 s.srcByte 0 + le32 s.srcByte 7 ≤ s.x.slen.toNat :=
  ⟨by decide, by decide, chainAt2, by decide, by decide, by decide⟩
theorem witness_ParseLevelThreeEntry :
    let s := start entry3
    s.cfg.l3Fixed = 31 ∧ s.x.src.toNat + s.x.slen.toNat ≤ s.cfg.memBytes ∧ s.srcByte 20 = 3#8 ∧
      ChainAt s.srcByte 4 31 (le32 s.srcByte 27) chain3 ∧ (∀ b ∈ chain3, b.tag = 0#8 → 2 ≤ b.data.length) ∧
      0 + 31 + chainSize 4 chain3 + le32 s.srcByte 7 ≤ s.x.slen.toNat :=
  ⟨by decide, by decide, by decide, chainAt3, by decide, by decide⟩
/-- V126, V124 and a window outside memory. -/
theorem witness_ParseRejectsShortAndUnknownLevels :
    (start (entry0.take 20)).x.slen.toNat < (start (entry0.take 20)).x.aux.toNat + 21 ∧
    3 < ((start (entry0.set 20 4#8)).srcByte 20).toNat ∧
    (windowed 0x1FFF#32 2#32).cfg.memBytes < (windowed 0x1FFF#32 2#32).x.src.toNat + (windowed 0x1FFF#32 2#32).x.slen.toNat := by
  decide
/-- At level 0: a base header of 23 bytes, one cut short, a name one byte too long, a payload one byte short. -/
theorem witness_ParseRejects_level0 :
    2 + ((start (entry0.set 0 21#8)).srcByte 0).toNat < 24 ∧
    (start (entry0.take 28)).x.slen.toNat < 2 + ((start (entry0.take 28)).srcByte 0).toNat ∧
    2 + ((start (entry0.set 21 6#8)).srcByte 0).toNat < 24 + ((start (entry0.set 21 6#8)).srcByte 21).toNat ∧
    (start (entry0.take 33)).x.slen.toNat <
      2 + ((start (entry0.take 33)).srcByte 0).toNat + le32 (start (entry0.take 33)).srcByte 7 ∧
    (start (entry0.take 33)).srcByte 20 = 0#8 := by decide
/-- At level 1: a base header of 25 bytes, one cut short, a name one byte too long; a first block of two
bytes, one that runs past the window, a tag-0 block with one byte of data; a stored size one less than the
extended headers, a payload one byte short. -/
theorem witness_ParseRejects_level1 :
    2 + ((start (entry1.set 0 23#8)).srcByte 0).toNat < 26 ∧
    (start (entry1.take 31)).x.slen.toNat < 2 + ((start (entry1.take 31)).srcByte 0).toNat ∧
    2 + ((start (entry1.set 21 7#8)).srcByte 0).toNat < 26 + ((start (entry1.set 21 7#8)).srcByte 21).toNat ∧
    ChainBroken (start (entry1.set 30 2#8)).srcByte 47 2 32 (le16 (start (entry1.set 30 2#8)).srcByte 30) ∧
    ChainBroken (start (entry1.set 30 16#8)).srcByte 47 2 32 (le16 (start (entry1.set 30 16#8)).srcByte 30) ∧
    ChainBroken (start (entry1.set 35 4#8)).srcByte 47 2 32 (le16 (start (entry1.set 35 4#8)).srcByte 30) ∧
    (ChainAt (start (entry1.set 7 9#8)).srcByte 2 32 (le16 (start (entry1.set 7 9#8)).srcByte 30) chain1 ∧
      le32 (start (entry1.set 7 9#8)).srcByte 7 < chainSize 2 chain1) ∧
    (ChainAt (start (entry1.take 46)).srcByte 2 32 (le16 (start (entry1.take 46)).srcByte 30) chain1 ∧
      (start (entry1.take 46)).x.slen.toNat < 0 + 32 + le32 (start (entry1.take 46)).srcByte 7) := by
  refine ⟨by decide, by decide, by decide, ⟨0, by decide, by decide⟩, ⟨0, by decide, by decide⟩, ⟨1, by decide, by decide⟩,
    ⟨?_, by decide⟩, ?_, by decide⟩ <;> (simp only [chain1, ChainAt]; decide)
/-- At level 2: a fixed part cut short, a declared length of 25, a header cut short, a first block of two
bytes, a declared length one less than the chain needs, a payload one byte short. -/
theorem witness_ParseRejects_level2 :
    (start (entry2.take 25)).x.slen.toNat < 26 ∧ le16 (start (entry2.set 0 25#8)).srcByte 0 < 26 ∧
    (start (entry2.take 50)).x.slen.toNat < le16 (start (entry2.take 50)).srcByte 0 ∧
    ChainBroken (start (entry2.set 24 2#8)).srcByte 56 2 26 (le16 (start (entry2.set 24 2#8)).srcByte 24) ∧
    (ChainAt (start (entry2.set 0 49#8)).srcByte 2 26 (le16 (start (entry2.set 0 49#8)).srcByte 24) chain2 ∧
      le16 (start (entry2.set 0 49#8)).srcByte 0 < 26 + chainSize 2 chain2) ∧
    (start (entry2.take 55)).x.slen.toNat <
      0 + le16 (start (entry2.take 55)).srcByte 0 + le32 (start (entry2.take 55)).srcByte 7 := by
  refine ⟨by decide, by decide, by decide, ⟨0, by decide, by decide⟩, ⟨?_, by decide⟩, by decide⟩
  simp only [chain2, ChainAt]
  decide
/-- At level 3: a fixed part cut short, a first block of four bytes, a payload one byte short. -/
theorem witness_ParseRejects_level3 :
    (start (entry3.take 30)).x.slen.toNat < 0 + (start entry3).cfg.l3Fixed ∧
    ChainBroken (start (entry3.set 27 4#8)).srcByte 46 4 31 (le32 (start (entry3.set 27 4#8)).srcByte 27) ∧
    (ChainAt (start (entry3.take 45)).srcByte 4 31 (le32 (start (entry3.take 45)).srcByte 27) chain3 ∧
      (start (entry3.take 45)).x.slen.toNat < 0 + 31 + chainSize 4 chain3 + le32 (start (entry3.take 45)).srcByte 7) := by
  refine ⟨by decide, ⟨0, by decide, by decide⟩, ?_, by decide⟩
  simp only [chain3, ChainAt]
  decide
theorem witness_EndOffsetIsOffsetPlusHeaderPlusPacked :
    exec .lzhParse (start entry2) = .next (after .lzhParse (start entry2)) ∧ (start entry2).err.code = 0#4 ∧
      (after .lzhParse (start entry2)).err.code = 0#4 := ⟨rfl, rfl, by decide⟩
/-- Before any parse; one past the last block; the last block. -/
theorem witness_LzhExtReturnsTheBlock :
    State.reset.lzh.valid = false ∧
    (let s := { after .lzhParse (start entry2) with x := { (start entry2).x with aux := 3#32 } }
     s.lzh.valid = true ∧ s.x.src.toNat + s.x.slen.toNat ≤ s.cfg.memBytes ∧ s.lzh.extCnt.toNat ≤ s.x.aux.toNat) ∧
    (let s := { after .lzhParse (start entry2) with x := { (start entry2).x with aux := 2#32 } }
     s.lzh.valid = true ∧ s.x.aux.toNat < chain2.length ∧ s.x.aux.toNat < s.lzh.extCnt.toNat ∧
       ChainAt s.srcByte 2 s.lzh.ext0.toNat s.lzh.fwd0.toNat chain2 ∧
       s.lzh.ext0.toNat + chainSize 2 chain2 ≤ s.x.slen.toNat) :=
  ⟨by decide, by decide, by decide, by decide, by decide, chainAt2, by decide⟩
/-- The state after the parse of V72's entry with byte 32, the low byte of the forward length of its first
block, replaced by `b`, and `AUX` = 1. -/
def rechained (b : Byte) : State :=
  let s := after .lzhParse (start entry2)
  { s with mem := s.mem.write 0x1020 b, x := { s.x with aux := 1#32 } }
/-- A window outside memory after a parse; block 1 of two bytes, and of a length past the window; the blocks
0 and 1 as they were. -/
theorem witness_LzhExtReturnsTheBlock_faults :
    (let s := { after .lzhParse (start entry2) with x := { Regs.zero with src := 0x1FFF#32, slen := 2#32 } }
     s.lzh.valid = true ∧ s.cfg.memBytes < s.x.src.toNat + s.x.slen.toNat) ∧
    (rechained 2#8).lzh.valid = true ∧ (rechained 2#8).x.aux.toNat < (rechained 2#8).lzh.extCnt.toNat ∧
    (chainBlock (rechained 2#8).srcByte 2 26 8 1).2 < 1 + 2 ∧
    (rechained 23#8).x.slen.toNat <
      (chainBlock (rechained 23#8).srcByte 2 26 8 1).1 + (chainBlock (rechained 23#8).srcByte 2 26 8 1).2 ∧
    (∀ j, j ≤ 1 → 1 + 2 ≤ (chainBlock (rechained 11#8).srcByte 2 26 8 j).2 ∧
      (chainBlock (rechained 11#8).srcByte 2 26 8 j).1 + (chainBlock (rechained 11#8).srcByte 2 26 8 j).2 ≤ 56) := by decide
theorem witness_ChainWalksAgainAfterTheParse :
    exec .lzhParse (start entry2) = .next (after .lzhParse (start entry2)) ∧
      (after .lzhParse (start entry2)).err.code = 0#4 ∧
      (2#32 : Word).toNat < (after .lzhParse (start entry2)).lzh.extCnt.toNat := ⟨rfl, by decide, by decide⟩
/-- V78, V79, V122 and before any parse. -/
theorem witness_LzhCrcComparesThePayload :
    (let s := after .lzhParse (start entry0)
     s.lzh.valid = true ∧ s.x.src.toNat + s.x.slen.toNat ≤ s.cfg.memBytes ∧
       s.lzh.pay.toNat + s.lzh.packed.toNat ≤ s.x.slen.toNat ∧
       crc16 (s.srcBytes s.lzh.pay.toNat s.lzh.packed.toNat) 0#16 = s.lzh.ucrc) ∧
    (let s := after .lzhParse (start (entry0.set 29 0x49#8))
     crc16 (s.srcBytes s.lzh.pay.toNat s.lzh.packed.toNat) 0#16 ≠ s.lzh.ucrc) ∧
    (33 : Nat) < (after .lzhParse (start entry0)).lzh.pay.toNat + (after .lzhParse (start entry0)).lzh.packed.toNat ∧
    State.reset.lzh.valid = false := by decide +kernel
theorem witness_FaultingCommandChangesOnlyTheLatch :
    encode .rleExpand = .command 0x40#32 ∧ (start stream 6#32).err.code = 0#4 ∧
      exec .rleExpand (start stream 6#32) = .next (after .rleExpand (start stream 6#32)) ∧
      (after .rleExpand (start stream 6#32)).err.code ≠ 0#4 := ⟨rfl, rfl, rfl, by decide⟩
/-- A command that answers a next state answers `after`. -/
theorem exec_after {i : Instr} {s : State} (h : (seen (exec i s) id).isSome = true) : exec i s = .next (after i s) := by
  cases h' : exec i s with
  | next t => simp [after, seen, h']
  | fault r => rw [h'] at h; cases h
  | refused r => rw [h'] at h; cases h
theorem witness_RegistersHaveOnlyTheirWriters :
    exec (.dmsUnpack true) (start record 16#32) = .next (after (.dmsUnpack true) (start record 16#32)) :=
  exec_after (by decide +kernel)
theorem witness_MemoryIsWrittenOnlyInTheDestinationWindow :
    exec .lzhParse (start entry2) = .next (after .lzhParse (start entry2)) ∧ Instr.lzhParse.writesWindow = false ∧
      exec .rleExpand (start stream 7#32) = .next (after .rleExpand (start stream 7#32)) ∧ Instr.rleExpand.isCommand = true :=
  ⟨exec_after (by decide), rfl, exec_after (by decide), rfl⟩
/-- A state with a bound buffer, a latched entry with a chain of three blocks, and a host access to the
last byte of memory waiting. -/
def busy : State :=
  { after .lzhParse (start entry2) with
    br := { base := 0x1000#32, len := 4#29, pos := 32#32, mode := .lsbFirst }, script := [.memRead 0x1FFF#32] }
theorem busy_inv : busy.Inv where
  memory := ⟨by decide, by decide⟩
  reader := ⟨by decide, by decide⟩
  latch := ⟨by decide, by decide, by decide⟩
  track := ⟨by decide, by decide⟩
  entry := by constructor <;> decide
theorem witness_EveryStepKeepsTheInvariant : busy.Inv ∧ ∃ t, step busy = .next t := ⟨busy_inv, ⟨_, rfl⟩⟩
theorem witness_BlockNeverStopsByItself :
    busy.Inv ∧ busy.rle = none ∧
      (∀ (a : Word) (rest : List HostAction), busy.script = .memRead a :: rest → a.toNat < busy.cfg.memBytes) ∧
      (∀ (a : Word) (b : Byte) (rest : List HostAction), busy.script = .memWrite a b :: rest → a.toNat < busy.cfg.memBytes) ∧
      State.reset.rle = none ∧ State.reset.script = [] := by
  refine ⟨busy_inv, rfl, ?_, ?_, rfl, rfl⟩
  · intro a rest h
    cases h
    decide
  · intro a b rest h
    cases h
theorem witness_ParametersNeverChange : ∃ t, step busy = .next t := ⟨_, rfl⟩

end Sys2Proof.Tests
end

/-!
PROOFS. The statements about the state as a whole: reset (spec/10_state.md R37, spec/70_reset_and_hazards.md R260,
R261), the writers of each register (R21 to R23), the parameters (R38) and the invariant. The frame of an
instruction and the invariant each have one rule per operation on the state; an instruction's proof applies the
rules in the order in which the model applies the operations.
-/

namespace Sys2Proof.Machine

/-! ### Reset -/

/-- The reset event puts every register at its reset value, whatever the state was (R37, R260). -/
@[simp] theorem regRead_blockReset (s : State) (num : BitVec 6) : regRead s.blockReset num = 0#32 := by
  unfold regRead
  split <;> rfl

theorem step_reset {s : State} {rest : List HostAction} (hq : s.rle = none) (hs : s.script = .reset :: rest) :
    step s = .next (s.setScript rest).blockReset := by
  rw [step_quiet hq, scriptStep_cons hs]
  rfl

/-- Settles O12: power-on reset is the reset event on an empty memory. -/
theorem resetEventClearsRegistersAndKeepsMemory : Obligations.ResetEventClearsRegistersAndKeepsMemory := by
  refine ⟨fun s rest hq hs => ?_, regRead_blockReset State.reset, rfl⟩
  exact ⟨_, step_reset hq hs, regRead_blockReset _, rfl, rfl, rfl, rfl⟩

/-! ### The writers of each register (R21 to R23): one rule per operation -/

namespace RegistersKept

theorem refl (i : Instr) (s : State) : RegistersKept i s s where
  operands := ⟨rfl, rfl, rfl, rfl, rfl⟩
  res0 _ := rfl
  res1 _ := rfl
  res2 _ := rfl
  binding _ := ⟨rfl, rfl, rfl⟩
  cursor _ _ _ := rfl
  crc _ _ _ := rfl
  sum _ _ _ := rfl
  track _ _ := rfl
  entry _ := rfl

variable {i : Instr} {s t : State}

theorem setErr (h : RegistersKept i s t) (v : FaultLatch) : RegistersKept i s (t.setErr v) := { h with }

theorem setMem (h : RegistersKept i s t) (v : Memory) : RegistersKept i s (t.setMem v) := { h with }

theorem setRle (h : RegistersKept i s t) (v : Option RleRun) : RegistersKept i s (t.setRle v) := { h with }

theorem setRes0 (h : RegistersKept i s t) (hi : i.writesRes0 = true) (a : Word) :
    RegistersKept i s (t.setRes0 a) :=
  { h with res0 := fun hn => absurd hi (by simp [hn]) }

theorem setRes01 (h : RegistersKept i s t) (h0 : i.writesRes0 = true) (h1 : i.writesRes1 = true) (a b : Word) :
    RegistersKept i s (t.setRes01 a b) :=
  { h with res0 := fun hn => absurd h0 (by simp [hn]), res1 := fun hn => absurd h1 (by simp [hn]) }

theorem setRes012 (h : RegistersKept i s t) (h0 : i.writesRes0 = true) (h1 : i.writesRes1 = true)
    (h2 : i.writesRes2 = true) (a b c : Word) : RegistersKept i s (t.setRes012 a b c) :=
  { h with
    res0 := fun hn => absurd h0 (by simp [hn])
    res1 := fun hn => absurd h1 (by simp [hn])
    res2 := fun hn => absurd h2 (by simp [hn]) }

theorem setCrc (h : RegistersKept i s t) (hi : i = .crcInit ∨ i = .crcUpd ∨ i = .crcRun) (v : Half) :
    RegistersKept i s (t.setCrc v) :=
  { h with crc := fun h1 h2 h3 => by simp [h1, h2, h3] at hi }

theorem setSum (h : RegistersKept i s t) (hi : i = .sumInit ∨ i = .sumUpd ∨ i = .sumRun) (v : Half) :
    RegistersKept i s (t.setSum v) :=
  { h with sum := fun h1 h2 h3 => by simp [h1, h2, h3] at hi }

theorem setTrk (h : RegistersKept i s t) (hi : i = .dmsTrack ∨ ∃ v, i = .dmsUnpack v) (v : Track) :
    RegistersKept i s (t.setTrk v) :=
  { h with track := fun h1 h2 => by simp [h1, h2] at hi }

theorem setLzh (h : RegistersKept .lzhParse s t) (v : Entry) : RegistersKept .lzhParse s (t.setLzh v) :=
  { h with entry := fun hn => absurd rfl hn }

/-- `BR.BIND` writes the whole binding. -/
theorem setBr {o : BitOrder} (h : RegistersKept (.brBind o) s t) (v : BitReader) :
    RegistersKept (.brBind o) s (t.setBr v) :=
  { h with binding := fun hn => absurd rfl (hn o), cursor := fun hn => absurd rfl (hn o) }

/-- A bit read moves the cursor and leaves the binding. -/
theorem setPos (h : RegistersKept i s t) (hi : (∃ n, i = .brRdu n) ∨ ∃ n, i = .brRds n) (p : Word) :
    RegistersKept i s (t.setBr { t.br with pos := p }) :=
  { h with cursor := fun _ h1 h2 => by simp [h1, h2] at hi }

theorem raiseInWindow {cmd : Word} {c : Cause} {u : State} (h : RegistersKept i s t)
    (hr : raiseInWindow t cmd c = .next u) : RegistersKept i s u := by
  obtain ⟨m, k, he, -⟩ := raiseInWindow_spec t cmd c
  cases he.symm.trans hr
  exact { h with }

end RegistersKept

theorem execToken_registersKept {i : Instr} {k : RleToken} {s t : State} (h : execToken k s = .next t) :
    RegistersKept i s t := by
  rcases execToken_cases h with ⟨-, h⟩ | ⟨-, rfl⟩
  · exact ((RegistersKept.refl i s).setRle none).raiseInWindow (rleAbort_spec h).2
  · exact (RegistersKept.refl i s).setRle _

theorem brRead_registersKept {i : Instr} {cmd : Word} {n : Nat} {value : Nat → Word} {s t : State}
    (hi : (∃ n, i = .brRdu n) ∨ ∃ n, i = .brRds n) (h0 : i.writesRes0 = true) (h : brRead cmd n value s = .next t) :
    RegistersKept i s t := by
  have r := RegistersKept.refl i s
  rcases brRead_cases h with ⟨c, -, rfl⟩ | ⟨-, -, rfl⟩
  · exact r.setErr _
  · exact (r.setPos hi _).setRes0 h0 _

theorem crcOverWindow_registersKept {i : Instr} {cmd : Word} {c0 : Half} {s t : State}
    (hi : i = .crcInit ∨ i = .crcUpd ∨ i = .crcRun) (h0 : i.writesRes0 = true)
    (h : crcOverWindow cmd c0 s = .next t) : RegistersKept i s t := by
  have r := RegistersKept.refl i s
  rcases crcOverWindow_cases h with ⟨-, rfl⟩ | ⟨-, rfl⟩
  · exact r.setErr _
  · exact (r.setCrc hi _).setRes0 h0 _

theorem sumOverWindow_registersKept {i : Instr} {cmd : Word} {s0 : Half} {s t : State}
    (hi : i = .sumInit ∨ i = .sumUpd ∨ i = .sumRun) (h0 : i.writesRes0 = true)
    (h : sumOverWindow cmd s0 s = .next t) : RegistersKept i s t := by
  have r := RegistersKept.refl i s
  rcases sumOverWindow_cases h with ⟨-, rfl⟩ | ⟨-, rfl⟩
  · exact r.setErr _
  · exact (r.setSum hi _).setRes0 h0 _

theorem exec_registersKept {i : Instr} {s t : State} (h : exec i s = .next t) : RegistersKept i s t := by
  have r := RegistersKept.refl i s
  cases i with
  | brBind o =>
    rcases execBrBind_cases h with rfl | ⟨-, -, rfl⟩
    · exact r.setErr _
    · exact r.setBr _
  | brRdu n => exact brRead_registersKept (.inl ⟨n, rfl⟩) rfl h
  | brRds n => exact brRead_registersKept (.inr ⟨n, rfl⟩) rfl h
  | crcInit => cases h; exact r.setCrc (.inl rfl) _
  | crcUpd => exact crcOverWindow_registersKept (.inr (.inl rfl)) rfl h
  | crcRun => exact crcOverWindow_registersKept (.inr (.inr rfl)) rfl h
  | sumInit => cases h; exact r.setSum (.inl rfl) _
  | sumUpd => exact sumOverWindow_registersKept (.inr (.inl rfl)) rfl h
  | sumRun => exact sumOverWindow_registersKept (.inr (.inr rfl)) rfl h
  | sum32Chk =>
    rcases execSum32Chk_cases h with ⟨c, rfl, -⟩ | ⟨-, -, -, rfl⟩
    · exact r.setErr _
    · exact r.setRes01 rfl rfl _ _
  | rleExpand =>
    rcases execRleExpand_cases h with ⟨-, rfl⟩ | ⟨-, -, h⟩ | ⟨-, out, -, rfl⟩
    · exact r.setErr _
    · exact r.raiseInWindow h
    · exact (r.setMem _).setRes0 rfl _
  | dmsOpen =>
    rcases execDmsOpen_cases h with ⟨c, -, rfl⟩ | ⟨-, -, -, rfl⟩
    · exact r.setErr _
    · exact r.setRes0 rfl _
  | dmsTrack =>
    rcases execDmsTrack_cases h with ⟨c, -, rfl⟩ | ⟨-, -, rfl⟩ | ⟨-, trk, -, rfl⟩
    · exact r.setErr _
    · exact (r.setTrk (.inl rfl) _).setRes0 rfl _
    · exact (r.setTrk (.inl rfl) _).setRes012 rfl rfl rfl _ _ _
  | dmsUnpack verify =>
    rcases execDmsUnpack_cases h with rfl | ⟨-, c, -, h⟩ | ⟨-, trk, out, -, -, -, rfl⟩
    · exact r.setErr _
    · exact r.raiseInWindow h
    · exact ((r.setMem _).setTrk (.inr ⟨verify, rfl⟩) _).setRes012 rfl rfl rfl _ _ _
  | lzhParse =>
    rcases execLzhParse_cases h with ⟨c, -, rfl⟩ | ⟨-, e, -, rfl⟩
    · exact r.setErr _
    · exact (r.setLzh _).setRes012 rfl rfl rfl _ _ _
  | lzhExt =>
    rcases execLzhExt_cases h with ⟨c, -, rfl⟩ | ⟨tag, off, len, rfl⟩
    · exact r.setErr _
    · exact r.setRes012 rfl rfl rfl _ _ _
  | lzhCrc =>
    rcases execLzhCrc_cases h with ⟨c, -, rfl⟩ | ⟨-, -, -, rfl⟩
    · exact r.setErr _
    · exact r.setRes0 rfl _
  | errClr => cases h; exact r.setErr _
  | rleLit b => exact execToken_registersKept h
  | rleEsc90 => exact execToken_registersKept h
  | rleRun8 c v => exact execToken_registersKept h
  | rleRun16 v hi lo => exact execToken_registersKept h

/-- Settles O55: the model's operations on the state, in the order each instruction applies them. -/
theorem registersHaveOnlyTheirWriters : Obligations.RegistersHaveOnlyTheirWriters :=
  fun _ _ _ h => exec_registersKept h

/-! ### All that a step can do -/

/-- All that a step can do: nothing, a host action, or the end, the failure or the next token of a running
expansion. -/
theorem step_cases {s t : State} (h : step s = .next t) :
    t = s ∨ (∃ a rest, hostAct a (s.setScript rest) = .next t) ∨ (∃ r, rleFinish r s = .next t) ∨
    rleAbort s = .next t ∨
    ∃ (i : Instr) (r : RleRun), exec i (s.setRle (some r)) = .next t := by
  cases hr : s.rle with
  | some r =>
    rw [step_running hr] at h
    rcases rleStep_cases h with h | h | ⟨k, rest, -, h⟩
    · exact .inr (.inr (.inl ⟨r, h⟩))
    · exact .inr (.inr (.inr (.inl h)))
    · exact .inr (.inr (.inr (.inr ⟨_, _, h⟩)))
  | none =>
    rw [step_quiet hr] at h
    cases hs : s.script with
    | nil =>
      rw [scriptStep_nil hs] at h
      exact .inl (Host.Outcome.next.inj h).symm
    | cons a rest =>
      rw [scriptStep_cons hs] at h
      exact .inr (.inl ⟨a, rest, h⟩)

/-! ### The parameters (R38) -/

theorem issue_cfg {s t : State} {w : Word} (h : issue w s = .next t) : t.cfg = s.cfg := by
  rcases issue_cases h with rfl | rfl | ⟨i, -, h⟩
  · rfl
  · rfl
  · exact (exec_hostKept h).cfg

theorem hostAct_cfg {a : HostAction} {s t : State} (h : hostAct a s = .next t) : t.cfg = s.cfg := by
  rcases hostAct_cases h with ⟨r, rfl⟩ | ⟨w, -, h⟩ | ⟨num, v, rfl⟩ | ⟨addr, b, -, rfl⟩ | rfl
  · rfl
  · exact issue_cfg h
  · exact (regWrite_keeps s num v).1
  · rfl
  · rfl

theorem rleFinish_cfg {r : RleRun} {s t : State} (h : rleFinish r s = .next t) : t.cfg = s.cfg := by
  rcases rleFinish_cases h with ⟨-, h⟩ | ⟨-, -, rfl⟩
  · exact (rleAbort_hostKept h).cfg
  · rfl

theorem step_cfg {s t : State} (h : step s = .next t) : t.cfg = s.cfg := by
  rcases step_cases h with rfl | ⟨a, rest, h⟩ | ⟨r, h⟩ | h | ⟨i, r, h⟩
  · rfl
  · exact hostAct_cfg (s := s.setScript rest) h
  · exact rleFinish_cfg h
  · exact (rleAbort_hostKept h).cfg
  · exact (exec_hostKept h).cfg

/-- Settles O60, over all that a step can do. -/
theorem parametersNeverChange : Obligations.ParametersNeverChange := fun _ _ h => step_cfg h

/-! ### The invariant: one rule per operation -/

/-- The entry invariant speaks of the entry registers only. -/
theorem State.EntryInv.congr {s t : State} (h : s.EntryInv) (hl : t.lzh = s.lzh) : t.EntryInv := by
  constructor <;> rw [hl]
  exacts [h.ends, h.header, h.longest, h.unlatched, h.noHcrc, h.noName, h.noDir, h.noChain, h.blocks, h.level0]

/-- Every code that is latched is a cause's, with the two values that cause records (R231). -/
theorem latchInv_of_cause {s : State} {c : Cause} {cmd : Word} (h : s.err = c.latch cmd) : s.LatchInv := by
  unfold State.LatchInv
  rw [h]
  exact ⟨c.code_range.2, c.got_exp_zero, fun h0 => absurd h0 c.code_ne_zero⟩

theorem latchInv_of_clear {s : State} (h : s.err = FaultLatch.clear) : s.LatchInv := by
  unfold State.LatchInv
  rw [h]
  exact ⟨by decide, fun _ => ⟨rfl, rfl⟩, fun _ => rfl⟩

/-- Memory keeps its form under a list of writes inside it. -/
theorem State.MemInv.writeList {s : State} (h : s.MemInv) {a : Nat} {bs : List Byte}
    (ha : a + bs.length ≤ s.cfg.memBytes) : (s.setMem (s.mem.writeList a bs)).MemInv := by
  obtain ⟨hwf, hin⟩ := h
  refine ⟨Memory.wf_writeList bs _ _ hwf, fun c hc => ?_⟩
  rcases Memory.mem_writeList bs _ _ _ hc with hc | hc
  · exact lt_of_lt_of_le hc.2 ha
  · exact hin c hc

namespace State.Inv

/-- The invariant speaks of memory, the parameters, the binding, the latch, and the two latched records. -/
theorem congr {s t : State} (h : s.Inv) (hm : t.mem = s.mem) (hc : t.cfg = s.cfg) (hb : t.br = s.br)
    (he : t.err = s.err) (ht : t.trk = s.trk) (hl : t.lzh = s.lzh) : t.Inv where
  memory := by unfold MemInv; rw [hm, hc]; exact h.memory
  reader := by unfold ReaderInv; rw [hb, hc]; exact h.reader
  latch := by unfold LatchInv; rw [he]; exact h.latch
  track := by unfold TrackInv; rw [ht]; exact h.track
  entry := h.entry.congr hl

variable {s t : State}

theorem setX (h : s.Inv) (v : Regs) : (s.setX v).Inv := h.congr rfl rfl rfl rfl rfl rfl
theorem setRes0 (h : s.Inv) (a : Word) : (s.setRes0 a).Inv := h.setX _
theorem setRes01 (h : s.Inv) (a b : Word) : (s.setRes01 a b).Inv := h.setX _
theorem setRes012 (h : s.Inv) (a b c : Word) : (s.setRes012 a b c).Inv := h.setX _
theorem setCrc (h : s.Inv) (v : Half) : (s.setCrc v).Inv := h.congr rfl rfl rfl rfl rfl rfl
theorem setSum (h : s.Inv) (v : Half) : (s.setSum v).Inv := h.congr rfl rfl rfl rfl rfl rfl
theorem setRle (h : s.Inv) (v : Option RleRun) : (s.setRle v).Inv := h.congr rfl rfl rfl rfl rfl rfl
theorem setScript (h : s.Inv) (v : List HostAction) : (s.setScript v).Inv := h.congr rfl rfl rfl rfl rfl rfl
theorem pushReply (h : s.Inv) (v : Reply) : (s.pushReply v).Inv := h.congr rfl rfl rfl rfl rfl rfl

theorem setMem (h : s.Inv) {v : Memory} (hv : (s.setMem v).MemInv) : (s.setMem v).Inv :=
  { h with memory := hv, entry := h.entry.congr rfl }

theorem setErr (h : s.Inv) {v : FaultLatch} (hv : (s.setErr v).LatchInv) : (s.setErr v).Inv :=
  { h with latch := hv, entry := h.entry.congr rfl }

theorem setBr (h : s.Inv) {v : BitReader} (hv : (s.setBr v).ReaderInv) : (s.setBr v).Inv :=
  { h with reader := hv, entry := h.entry.congr rfl }

theorem setTrk (h : s.Inv) {v : Track} (hv : (s.setTrk v).TrackInv) : (s.setTrk v).Inv :=
  { h with track := hv, entry := h.entry.congr rfl }

theorem setLzh (h : s.Inv) {v : Entry} (hv : (s.setLzh v).EntryInv) : (s.setLzh v).Inv :=
  { h with entry := hv }

/-- Fault entry keeps the invariant (R240). -/
theorem latched (h : s.Inv) (c : Cause) (cmd : Word) : (s.setErr (c.latch cmd)).Inv :=
  h.setErr (latchInv_of_cause rfl)

/-- A list of bytes written to the destination window. -/
theorem writeWindow (h : s.Inv) (hd : s.dstInMem) {out : List Byte} (ho : out.length ≤ s.x.dlen.toNat) :
    (s.setMem (s.mem.writeList s.x.dst.toNat out)).Inv :=
  h.setMem (h.memory.writeList (le_trans (Nat.add_le_add_left ho _) hd))

theorem raiseInWindow {cmd : Word} {c : Cause} (h : s.Inv) (hd : s.dstInMem)
    (hr : raiseInWindow s cmd c = .next t) : t.Inv := by
  obtain ⟨m, k, he, -, -, hwf, hin⟩ := raiseInWindow_spec s cmd c
  cases he.symm.trans hr
  have hm : (s.setMem m).MemInv := by
    refine ⟨hwf h.memory.1, fun d hdm => ?_⟩
    rcases hin d hdm with hdw | hdm
    · exact lt_of_lt_of_le hdw.2 hd
    · exact h.memory.2 d hdm
  exact ((h.setMem hm).latched c cmd).congr rfl rfl rfl rfl rfl rfl

theorem rleAbort (h : s.Inv) (hr : rleAbort s = .next t) : t.Inv := by
  obtain ⟨hd, hr⟩ := rleAbort_spec hr
  exact (h.setRle none).raiseInWindow hd hr

theorem rleFinish {r : RleRun} (h : s.Inv) (hr : rleFinish r s = .next t) : t.Inv := by
  rcases rleFinish_cases hr with ⟨-, hr⟩ | ⟨ho, hd, rfl⟩
  · exact h.rleAbort hr
  · exact ((h.writeWindow hd ho.le).setRes0 _).setRle none

theorem execToken {k : RleToken} (h : s.Inv) (hr : execToken k s = .next t) : t.Inv := by
  rcases execToken_cases hr with ⟨-, hr⟩ | ⟨-, rfl⟩
  · exact h.rleAbort hr
  · exact h.setRle _

end State.Inv

/-! ### The invariant: what the commands record -/

/-- A bound window lies in memory and its length fits in `BR_LEN` (R111, R118). -/
theorem readerInv_bind {s : State} {o : BitOrder} (hs : s.srcInMem) (hl : s.x.slen.toNat ≤ Config.brLenMax) :
    (s.setBr { base := s.x.src, len := s.x.slen.setWidth 29, pos := 0#32, mode := o }).ReaderInv := by
  have hmax : Config.brLenMax = 0x1FFFFFFF := rfl
  have hlen : (s.x.slen.setWidth 29).toNat = s.x.slen.toNat := by
    rw [BitVec.toNat_setWidth]
    omega
  exact ⟨by simpa [hlen] using hs, Nat.zero_le _⟩

/-- A read that fits leaves the cursor in the buffer (R113). -/
theorem readerInv_advance {s : State} {n : Nat} (h : s.ReaderInv) (hf : s.brFits n) :
    (s.setBr { s.br with pos := BitVec.ofNat 32 (s.br.pos.toNat + n) }).ReaderInv := by
  obtain ⟨hb, -⟩ := h
  refine ⟨hb, ?_⟩
  simp only [State.setBr_br, BitVec.toNat_ofNat]
  exact le_trans (Nat.mod_le _ _) hf

theorem trackInv_of_trackHere {s : State} {r : Track} (h : s.trackHere = .ok (some r)) (t : State) :
    (t.setTrk r).TrackInv := by
  obtain ⟨-, hnext, -, -, hnum⟩ := trackHere_some h
  exact ⟨hnum, hnext⟩

/-- The presence bits of `LZH_FLAGS` (R32, R204). -/
theorem lzhFlags_getLsbD (dir name hcrc : Bool) :
    (lzhFlags dir name hcrc).getLsbD 0 = hcrc ∧ (lzhFlags dir name hcrc).getLsbD 1 = name ∧
      (lzhFlags dir name hcrc).getLsbD 2 = dir := by
  revert dir name hcrc
  decide

/-- The registers that latch a checked header agree among themselves when its payload ends inside a 32-bit window. -/
theorem entryInv_of_header {s : State} {B : Nat → Byte} {len X e : Nat} {hd : Header} (ok : hd.Ok B len X e)
    (hin : e + hd.hdr + hd.packed < 2 ^ 32) : (s.setLzh (entryOf e (B (e + 20)) hd)).EntryInv := by
  obtain ⟨hcrcFlag, nameFlag, dirFlag⟩ :=
    lzhFlags_getLsbD hd.chain.dir.isSome hd.chain.name.isSome hd.chain.hcrc.isSome
  have hchain := ok.chainIn
  have hblocks := ok.blocks
  have hcnt : BitVec.ofNat 32 hd.chain.cnt = 0#32 → hd.chain.cnt = 0 := by
    intro h
    have hmod := congrArg BitVec.toNat h
    simp only [BitVec.toNat_ofNat] at hmod
    omega
  constructor <;> simp only [State.setLzh_lzh, entryOf, BitVec.toNat_ofNat, hcrcFlag, nameFlag, dirFlag,
    Option.isSome_eq_false_iff, Option.isNone_iff_eq_none]
  case ends => omega
  case header => omega
  case longest =>
    have hlongest := ok.longest
    omega
  case unlatched => exact fun h => nomatch h
  case noHcrc =>
    intro h
    rw [h]
    rfl
  case noName =>
    intro h
    rw [h]
    exact ⟨rfl, rfl⟩
  case noDir =>
    intro h
    rw [h]
    exact ⟨rfl, rfl⟩
  case noChain =>
    intro h
    obtain ⟨hext, hoff, hfwd⟩ := ok.noChain (hcnt h)
    rw [hext, hoff, hfwd]
    exact ⟨rfl, rfl, rfl⟩
  case blocks => omega
  case level0 =>
    intro h
    have hl := congrArg BitVec.toNat h
    have hlevel := ok.level
    simp only [BitVec.toNat_setWidth, BitVec.toNat_ofNat] at hl
    rw [ok.level0 (by omega)]

theorem entryInv_of_entryHere {s : State} {r : Entry} (h : s.entryHere = .ok r) : (s.setLzh r).EntryInv := by
  obtain ⟨hd, ok, hin, rfl⟩ := entryHere_ok h
  exact entryInv_of_header ok (lt_of_le_of_lt hin s.x.slen.isLt)

/-! ### The invariant: instructions, host actions, steps -/

theorem brRead_inv {cmd : Word} {n : Nat} {value : Nat → Word} {s t : State} (h : s.Inv)
    (hx : brRead cmd n value s = .next t) : t.Inv := by
  rcases brRead_cases hx with ⟨c, -, rfl⟩ | ⟨-, hf, rfl⟩
  · exact h.latched _ _
  · exact (h.setBr (readerInv_advance h.reader hf)).setRes0 _

theorem crcOverWindow_inv {cmd : Word} {c0 : Half} {s t : State} (h : s.Inv)
    (hx : crcOverWindow cmd c0 s = .next t) : t.Inv := by
  rcases crcOverWindow_cases hx with ⟨-, rfl⟩ | ⟨-, rfl⟩
  · exact h.latched _ _
  · exact (h.setCrc _).setRes0 _

theorem sumOverWindow_inv {cmd : Word} {s0 : Half} {s t : State} (h : s.Inv)
    (hx : sumOverWindow cmd s0 s = .next t) : t.Inv := by
  rcases sumOverWindow_cases hx with ⟨-, rfl⟩ | ⟨-, rfl⟩
  · exact h.latched _ _
  · exact (h.setSum _).setRes0 _

theorem exec_inv {i : Instr} {s t : State} (h : s.Inv) (hx : exec i s = .next t) : t.Inv := by
  cases i with
  | brBind o =>
    rcases execBrBind_cases hx with rfl | ⟨hs, hl, rfl⟩
    · exact h.latched _ _
    · exact h.setBr (readerInv_bind hs hl)
  | brRdu n => exact brRead_inv h hx
  | brRds n => exact brRead_inv h hx
  | crcInit => cases hx; exact h.setCrc _
  | crcUpd => exact crcOverWindow_inv h hx
  | crcRun => exact crcOverWindow_inv h hx
  | sumInit => cases hx; exact h.setSum _
  | sumUpd => exact sumOverWindow_inv h hx
  | sumRun => exact sumOverWindow_inv h hx
  | sum32Chk =>
    rcases execSum32Chk_cases hx with ⟨c, rfl, -⟩ | ⟨-, -, -, rfl⟩
    · exact h.latched _ _
    · exact h.setRes01 _ _
  | rleExpand =>
    rcases execRleExpand_cases hx with ⟨-, rfl⟩ | ⟨⟨-, hd, -⟩, -, hr⟩ | ⟨⟨-, hd, -⟩, out, ho, rfl⟩
    · exact h.latched _ _
    · exact h.raiseInWindow hd hr
    · exact (h.writeWindow hd (rleExpand_length ho).le).setRes0 _
  | dmsOpen =>
    rcases execDmsOpen_cases hx with ⟨c, -, rfl⟩ | ⟨-, -, -, rfl⟩
    · exact h.latched _ _
    · exact h.setRes0 _
  | dmsTrack =>
    rcases execDmsTrack_cases hx with ⟨c, -, rfl⟩ | ⟨-, -, rfl⟩ | ⟨-, r, hr, rfl⟩
    · exact h.latched _ _
    · exact (h.setTrk (v := { s.trk with valid := false }) h.track).setRes0 _
    · exact (h.setTrk (trackInv_of_trackHere hr s)).setRes012 _ _ _
  | dmsUnpack verify =>
    rcases execDmsUnpack_cases hx with rfl | ⟨⟨-, hd, -⟩, c, -, hr⟩ | ⟨⟨-, hd, -⟩, r, out, hr, -, ho, rfl⟩
    · exact h.latched _ _
    · exact h.raiseInWindow hd hr
    · exact ((h.writeWindow hd ho).setTrk (trackInv_of_trackHere hr _)).setRes012 _ _ _
  | lzhParse =>
    rcases execLzhParse_cases hx with ⟨c, -, rfl⟩ | ⟨-, r, hr, rfl⟩
    · exact h.latched _ _
    · exact (h.setLzh (entryInv_of_entryHere hr)).setRes012 _ _ _
  | lzhExt =>
    rcases execLzhExt_cases hx with ⟨c, -, rfl⟩ | ⟨tag, off, len, rfl⟩
    · exact h.latched _ _
    · exact h.setRes012 _ _ _
  | lzhCrc =>
    rcases execLzhCrc_cases hx with ⟨c, -, rfl⟩ | ⟨-, -, -, rfl⟩
    · exact h.latched _ _
    · exact h.setRes0 _
  | errClr => cases hx; exact h.setErr (latchInv_of_clear rfl)
  | rleLit b => exact h.execToken hx
  | rleEsc90 => exact h.execToken hx
  | rleRun8 c v => exact h.execToken hx
  | rleRun16 v hi lo => exact h.execToken hx

/-- Reset meets the invariant whatever the registers held: memory and the parameters are all that it keeps. -/
theorem blockReset_inv {s : State} (h : s.MemInv) : s.blockReset.Inv where
  memory := h
  reader := ⟨Nat.zero_le _, Nat.zero_le _⟩
  latch := latchInv_of_clear rfl
  track := ⟨rfl, rfl⟩
  entry := by
    have hl : s.blockReset.lzh = Entry.zero := rfl
    constructor <;> rw [hl] <;> decide

theorem issue_inv {w : Word} {s t : State} (h : s.Inv) (hx : issue w s = .next t) : t.Inv := by
  rcases issue_cases hx with rfl | rfl | ⟨i, -, hx⟩
  · exact h
  · exact h.latched _ _
  · exact exec_inv h hx

theorem hostAct_inv {a : HostAction} {s t : State} (h : s.Inv) (hx : hostAct a s = .next t) : t.Inv := by
  rcases hostAct_cases hx with ⟨r, rfl⟩ | ⟨w, -, hx⟩ | ⟨num, v, rfl⟩ | ⟨addr, b, ha, rfl⟩ | rfl
  · exact h.pushReply r
  · exact issue_inv h hx
  · obtain ⟨hcfg, herr, hbr, htrk, hlzh, hmem, -⟩ := regWrite_keeps s num v
    exact h.congr hmem hcfg hbr herr htrk hlzh
  · exact h.setMem (h.memory.writeList (bs := [b]) ha)
  · exact blockReset_inv h.memory

theorem step_inv {s t : State} (h : s.Inv) (hx : step s = .next t) : t.Inv := by
  rcases step_cases hx with rfl | ⟨a, rest, hx⟩ | ⟨r, hx⟩ | hx | ⟨i, r, hx⟩
  · exact h
  · exact hostAct_inv (h.setScript rest) hx
  · exact h.rleFinish hx
  · exact h.rleAbort hx
  · exact exec_inv (h.setRle (some r)) hx

/-- Settles O57: power-on reset is the reset event on an empty memory. -/
theorem invariantHoldsAtReset : Obligations.InvariantHoldsAtReset :=
  blockReset_inv (s := State.reset) ⟨List.Pairwise.nil, fun _ hc => nomatch hc⟩

/-- Settles O58, over all that a step can do. -/
theorem everyStepKeepsTheInvariant : Obligations.EveryStepKeepsTheInvariant := fun _ _ h hx => step_inv h hx

end Sys2Proof.Machine

/-!
PROOFS. The statements about memory and the source window (spec/20_memory.md): what the host reads back (R60, R72),
what an instruction may write (R61, R63), and the commands that report a window they cannot use or a record, an entry
or a block that does not stand whole in it (`DMS.TRACK`, `LZH.PARSE`, `LZH.EXT`).
-/

namespace Sys2Proof.Machine

/-! ### The host's accesses to memory (R60, R72) -/

theorem Memory.read_write (m : Memory) (a b : Nat) (v : Byte) :
    (m.write a v).read b = if b = a then v else m.read b := by
  split
  · subst b; exact read_write_same m a v
  · exact read_write_other m a b v ‹_›

theorem step_memWrite {s : State} {a : Word} {b : Byte} {rest : List HostAction} (hq : s.rle = none)
    (hs : s.script = .memWrite a b :: rest) (ha : a.toNat < s.cfg.memBytes) :
    step s = .next ((s.setScript rest).setMem (s.mem.write a.toNat b)) := by
  rw [step_quiet hq, scriptStep_cons hs]
  exact if_neg (Nat.not_le.mpr ha)

theorem step_memRead {s : State} {a : Word} {rest : List HostAction} (hq : s.rle = none)
    (hs : s.script = .memRead a :: rest) (ha : a.toNat < s.cfg.memBytes) :
    step s = .next ((s.setScript rest).pushReply (.byte (s.mem.read a.toNat))) := by
  rw [step_quiet hq, scriptStep_cons hs]
  exact if_neg (Nat.not_le.mpr ha)

/-- Settles O11: a store step and a read step, and the law of a read after a write. -/
theorem hostReadsBackTheByteItStored : Obligations.HostReadsBackTheByteItStored := by
  intro s a c b rest hq hs ha hc
  have hwrite := step_memWrite hq hs ha
  have hread := step_memRead (s := (s.setScript (.memRead c :: rest)).setMem (s.mem.write a.toNat b)) hq rfl hc
  refine ⟨_, (run_next 1 hwrite).trans (run_next 0 hread), ?_, fun d => s.mem.read_write a.toNat d b, rfl⟩
  simp [Memory.read_write, BitVec.toNat_inj]

/-! ### What an instruction does to memory (R61, R63) -/

/-- Going from `s` to `t`, no byte outside the destination window of `s` changed. -/
def State.KeptOutsideWindow (s t : State) : Prop :=
  ∀ a : Nat, ¬ (s.x.dst.toNat ≤ a ∧ a < s.x.dst.toNat + s.x.dlen.toNat) → t.mem.read a = s.mem.read a

theorem raiseInWindow_keptOutsideWindow {s t : State} {cmd : Word} {c : Cause} (h : raiseInWindow s cmd c = .next t) :
    s.KeptOutsideWindow t := by
  obtain ⟨m, k, he, hout, -⟩ := raiseInWindow_spec s cmd c
  cases he.symm.trans h
  exact hout

theorem writeList_keptOutsideWindow {s : State} {out : List Byte} (ho : out.length ≤ s.x.dlen.toNat) :
    s.KeptOutsideWindow (s.setMem (s.mem.writeList s.x.dst.toNat out)) := by
  intro a ha
  rw [State.setMem_mem, Memory.read_writeList, if_neg (by omega)]

/-- All that an instruction can do to memory: nothing, or, if it has a destination window, a change inside it; and
a command then has a destination window apart from its source window (R63). -/
def MemoryEffect (i : Instr) (s t : State) : Prop :=
  t.mem = s.mem ∨
    (i.writesWindow = true ∧ (i.isCommand = true → ¬ s.windowsOverlap) ∧ s.KeptOutsideWindow t)

theorem execToken_memoryEffect {i : Instr} {k : RleToken} {s t : State} (hi : i.writesWindow = true)
    (hc : i.isCommand = false) (h : execToken k s = .next t) : MemoryEffect i s t := by
  rcases execToken_cases h with ⟨-, h⟩ | ⟨-, rfl⟩
  · exact .inr ⟨hi, by simp [hc], raiseInWindow_keptOutsideWindow (s := s.setRle none) (rleAbort_spec h).2⟩
  · exact .inl rfl

theorem exec_memoryEffect {i : Instr} {s t : State} (h : exec i s = .next t) : MemoryEffect i s t := by
  cases i with
  | rleExpand =>
    rcases execRleExpand_cases h with ⟨-, rfl⟩ | ⟨⟨-, -, hapart⟩, -, h⟩ | ⟨⟨-, -, hapart⟩, out, ho, rfl⟩
    · exact .inl rfl
    · exact .inr ⟨rfl, fun _ => hapart, raiseInWindow_keptOutsideWindow h⟩
    · exact .inr ⟨rfl, fun _ => hapart, writeList_keptOutsideWindow (rleExpand_length ho).le⟩
  | dmsUnpack verify =>
    rcases execDmsUnpack_cases h with rfl | ⟨⟨-, -, hapart⟩, c, -, h⟩ | ⟨⟨-, -, hapart⟩, r, out, -, -, ho, rfl⟩
    · exact .inl rfl
    · exact .inr ⟨rfl, fun _ => hapart, raiseInWindow_keptOutsideWindow h⟩
    · exact .inr ⟨rfl, fun _ => hapart, writeList_keptOutsideWindow ho⟩
  | rleLit b => exact execToken_memoryEffect rfl rfl h
  | rleEsc90 => exact execToken_memoryEffect rfl rfl h
  | rleRun8 c v => exact execToken_memoryEffect rfl rfl h
  | rleRun16 v hi lo => exact execToken_memoryEffect rfl rfl h
  | brBind o => rcases execBrBind_cases h with rfl | ⟨-, -, rfl⟩ <;> exact .inl rfl
  | brRdu n => rcases brRead_cases h with ⟨c, -, rfl⟩ | ⟨-, -, rfl⟩ <;> exact .inl rfl
  | brRds n => rcases brRead_cases h with ⟨c, -, rfl⟩ | ⟨-, -, rfl⟩ <;> exact .inl rfl
  | crcInit => cases h; exact .inl rfl
  | crcUpd => rcases crcOverWindow_cases h with ⟨-, rfl⟩ | ⟨-, rfl⟩ <;> exact .inl rfl
  | crcRun => rcases crcOverWindow_cases h with ⟨-, rfl⟩ | ⟨-, rfl⟩ <;> exact .inl rfl
  | sumInit => cases h; exact .inl rfl
  | sumUpd => rcases sumOverWindow_cases h with ⟨-, rfl⟩ | ⟨-, rfl⟩ <;> exact .inl rfl
  | sumRun => rcases sumOverWindow_cases h with ⟨-, rfl⟩ | ⟨-, rfl⟩ <;> exact .inl rfl
  | sum32Chk => rcases execSum32Chk_cases h with ⟨c, rfl, -⟩ | ⟨-, -, -, rfl⟩ <;> exact .inl rfl
  | dmsOpen => rcases execDmsOpen_cases h with ⟨c, -, rfl⟩ | ⟨-, -, -, rfl⟩ <;> exact .inl rfl
  | dmsTrack => rcases execDmsTrack_cases h with ⟨c, -, rfl⟩ | ⟨-, -, rfl⟩ | ⟨-, r, -, rfl⟩ <;> exact .inl rfl
  | lzhParse => rcases execLzhParse_cases h with ⟨c, -, rfl⟩ | ⟨-, r, -, rfl⟩ <;> exact .inl rfl
  | lzhExt => rcases execLzhExt_cases h with ⟨c, -, rfl⟩ | ⟨tag, off, len, rfl⟩ <;> exact .inl rfl
  | lzhCrc => rcases execLzhCrc_cases h with ⟨c, -, rfl⟩ | ⟨-, -, -, rfl⟩ <;> exact .inl rfl
  | errClr => cases h; exact .inl rfl

/-- A byte of the source window is no byte of a destination window apart from it (R63). -/
theorem not_mem_dst_of_mem_src {s : State} (hapart : ¬ s.windowsOverlap) {a : Nat} (hlo : s.x.src.toNat ≤ a)
    (hhi : a < s.x.src.toNat + s.x.slen.toNat) :
    ¬ (s.x.dst.toNat ≤ a ∧ a < s.x.dst.toNat + s.x.dlen.toNat) := by
  rintro ⟨hdlo, hdhi⟩
  refine hapart ⟨fun h0 => ?_, fun h0 => ?_, by omega, by omega⟩
  · rw [h0] at hhi
    exact absurd hhi (Nat.not_lt.mpr hlo)
  · rw [h0] at hdhi
    exact absurd hdhi (Nat.not_lt.mpr hdlo)

/-- Settles O56, over all that an instruction can do to memory. -/
theorem memoryIsWrittenOnlyInTheDestinationWindow : Obligations.MemoryIsWrittenOnlyInTheDestinationWindow := by
  intro i s t h
  rcases exec_memoryEffect h with hmem | ⟨hi, hapart, hout⟩
  · exact ⟨fun _ => hmem, fun a _ => by rw [hmem], fun _ a _ _ => by rw [hmem]⟩
  · exact ⟨fun hn => absurd hi (by simp [hn]), hout,
      fun hc a hlo hhi => hout a (not_mem_dst_of_mem_src (hapart hc) hlo hhi)⟩

/-! ### `DMS.TRACK` without a whole record (R169, R170) -/

theorem parseTrack_eq_none {B : Nat → Byte} {len off o : Nat} (h : len < o + 2 ∨ B o ≠ 0x54#8 ∨ B (o + 1) ≠ 0x52#8) :
    parseTrack B len off o = .ok none := by
  unfold parseTrack
  split
  · rfl
  · exact if_pos (h.resolve_left ‹_›)

theorem parseTrack_cutShort {B : Nat → Byte} {len off o : Nat} (hlen : o + 2 ≤ len) (h0 : B o = 0x54#8)
    (h1 : B (o + 1) = 0x52#8) (h : len < o + off + be16 B (o + 6)) :
    parseTrack B len off o = .error .structural := by
  rw [parseTrack, if_neg (by omega), if_neg (by simp [h0, h1]), if_pos h, ite_self]

theorem execDmsTrack_none {s : State} (hs : s.srcInMem) (h : s.trackHere = .ok none) :
    execDmsTrack s = .next ((s.setTrk { s.trk with valid := false }).setRes0 0#32) := by
  rw [execDmsTrack, if_neg (not_not.mpr hs), h]

theorem execDmsTrack_error {s : State} {c : Cause} (hs : s.srcInMem) (h : s.trackHere = .error c) :
    execDmsTrack s = raise s (faultWord .dmsTrack) c := by
  rw [execDmsTrack, if_neg (not_not.mpr hs), h]

/-- Settles O40: the three ways in which `DMS.TRACK` finds no whole record. -/
theorem dmsTrackReportsNoneOrCutShort : Obligations.DmsTrackReportsNoneOrCutShort := by
  refine fun s => ⟨fun hs => if_pos (Nat.not_le.mpr hs), fun hs => ⟨fun hnone => ?_, fun hlen h0 h1 hcut => ?_⟩⟩
  · exact execDmsTrack_none hs (parseTrack_eq_none hnone)
  · exact execDmsTrack_error hs (parseTrack_cutShort hlen h0 h1 hcut)

/-! ### `LZH.EXT` (R205) -/

theorem execLzhExt_operand {s : State} (h : s.lzh.valid = false ∨ ¬ s.srcInMem) :
    execLzhExt s = raise s (faultWord .lzhExt) .operand := by
  unfold execLzhExt
  split
  · rfl
  · exact if_pos (h.resolve_left ‹_›)

section
variable {s : State} (hv : s.lzh.valid = true) (hs : s.srcInMem)
include hv hs

theorem execLzhExt_absent (hk : s.lzh.extCnt.toNat ≤ s.x.aux.toNat) :
    execLzhExt s = .next (s.setRes012 0xFFFFFFFF#32 0#32 0#32) := by
  rw [execLzhExt, if_neg (by simp [hv]), if_neg (not_not.mpr hs), if_pos hk]

variable (hk : s.x.aux.toNat < s.lzh.extCnt.toNat)
include hk

theorem execLzhExt_found {tag off len : Word}
    (h : extElement s.srcByte s.x.slen.toNat s.extWidth s.x.aux.toNat s.lzh.ext0.toNat s.lzh.fwd0.toNat =
      .ok (tag, off, len)) :
    execLzhExt s = .next (s.setRes012 tag off len) := by
  rw [execLzhExt, if_neg (by simp [hv]), if_neg (not_not.mpr hs), if_neg (Nat.not_le.mpr hk), h]

theorem execLzhExt_broken {c : Cause}
    (h : extElement s.srcByte s.x.slen.toNat s.extWidth s.x.aux.toNat s.lzh.ext0.toNat s.lzh.fwd0.toNat = .error c) :
    execLzhExt s = raise s (faultWord .lzhExt) c := by
  rw [execLzhExt, if_neg (by simp [hv]), if_neg (not_not.mpr hs), if_neg (Nat.not_le.mpr hk), h]

end

/-- A number in a 32-bit window keeps its value as a word. -/
theorem toNat_ofNat_of_le_slen {s : State} {n : Nat} (h : n ≤ s.x.slen.toNat) : (BitVec.ofNat 32 n).toNat = n :=
  (BitVec.toNat_ofNat n 32).trans (Nat.mod_eq_of_lt (lt_of_le_of_lt h s.x.slen.isLt))

/-- Element `k` of a chain laid out as data ends before the chain does. -/
theorem chainSize_take_add_size_le {W k : Nat} {bs : List ExtBlock} (hk : k < bs.length) :
    chainSize W (bs.take k) + bs[k].size W ≤ chainSize W bs := by
  have hsplit : chainSize W bs = chainSize W (bs.take k) + chainSize W (bs.drop k) := by
    simp only [chainSize, ← List.sum_append, ← List.map_append, List.take_append_drop]
  rw [hsplit, List.drop_eq_getElem_cons hk, chainSize_cons]
  omega

/-- Settles O51: what `LZH.EXT` finds at element `x[4]`, over a chain as data and over forward lengths as they stand. -/
theorem lzhExtReturnsTheBlock : Obligations.LzhExtReturnsTheBlock := by
  refine fun s => ⟨fun h => ?_, execLzhExt_absent, ?_, ?_⟩
  · exact execLzhExt_operand (h.imp_right Nat.not_le.mpr)
  · intro bs W hk hv hs hcnt hW hchain hin
    have hfound := extElement_chain bs _ _ _ hk hchain hin
    have hsize : bs[s.x.aux.toNat].size W = 1 + bs[s.x.aux.toNat].data.length + W := rfl
    have hblock := chainSize_take_add_size_le (W := W) hk
    subst hW
    exact ⟨_, _, toNat_ofNat_of_le_slen (s := s) (by omega), toNat_ofNat_of_le_slen (s := s) (by omega),
      execLzhExt_found hv hs hcnt hfound⟩
  · intro W block hv hs hcnt hW hblock
    obtain ⟨herror, hok⟩ :=
      extElement_chainBlock s.srcByte s.x.slen.toNat W s.x.aux.toNat s.lzh.ext0.toNat s.lzh.fwd0.toNat
    subst hW hblock
    refine ⟨fun ⟨j, hj, hbad⟩ => ?_, fun hfit => ?_⟩
    · exact execLzhExt_broken hv hs hcnt (herror ⟨j, hj, by unfold blockFits; omega⟩)
    · have hlast := hfit _ le_rfl
      exact ⟨_, _, toNat_ofNat_of_le_slen (s := s) (by omega), toNat_ofNat_of_le_slen (s := s) (by omega),
        execLzhExt_found hv hs hcnt (hok hfit)⟩

/-! ### `LZH.PARSE`: what a parse that succeeds has found (R192 to R200) -/

/-- A parsed entry has a parsed header, and its payload ends in the window (R200, R203). -/
theorem entryHere_header {s : State} {r : Entry} (h : s.entryHere = .ok r) :
    ∃ hd : Header, parseHeader s.srcByte s.x.slen.toNat s.cfg.l3Fixed s.x.aux.toNat = .ok hd ∧
      s.x.aux.toNat + hd.hdr + hd.packed ≤ s.x.slen.toNat := by
  unfold State.entryHere parseEntry at h
  split at h
  · cases h
  · split at h
    · cases h
    · exact ⟨_, ‹_›, by omega⟩

/-- An entry whose header cannot be parsed with a payload that ends in the window is a StructuralError. -/
theorem execLzhParse_malformed {s : State} (hs : s.srcInMem)
    (h : ∀ hd, parseHeader s.srcByte s.x.slen.toNat s.cfg.l3Fixed s.x.aux.toNat = .ok hd →
      s.x.slen.toNat < s.x.aux.toNat + hd.hdr + hd.packed) :
    execLzhParse s = raise s (faultWord .lzhParse) .structural := by
  cases hr : s.entryHere with
  | ok r =>
    obtain ⟨hd, hp, hin⟩ := entryHere_header hr
    exact absurd hin (Nat.not_le.mpr (h hd hp))
  | error c =>
    rw [execLzhParse, if_neg (not_not.mpr hs), hr, entryHere_error hr]

/-- The level byte of a parsed header lies in the window and selects the parse (R191, R192). -/
theorem parseHeader_level {B : Nat → Byte} {len X e : Nat} {hd : Header} (h : parseHeader B len X e = .ok hd) :
    e + 21 ≤ len ∧ (B (e + 20)).toNat ≤ 3 ∧
      (B (e + 20) = 0#8 → parseLevel0 B len e = .ok hd) ∧ (B (e + 20) = 1#8 → parseLevel1 B len e = .ok hd) ∧
      (B (e + 20) = 2#8 → parseLevel2 B len e = .ok hd) ∧ (B (e + 20) = 3#8 → parseLevel3 B len X e = .ok hd) := by
  have hoff : Config.lzhLevelOff = 20 := rfl
  unfold parseHeader at h
  rw [hoff] at h
  split at h
  · cases h
  · refine ⟨by omega, ?_, fun hl => ?_, fun hl => ?_, fun hl => ?_, fun hl => ?_⟩
    · split at h
      case h_5 => cases h
      all_goals omega
    all_goals simpa [hl] using h

/-- A walk that succeeds has met no block that R198 rejects, and has gone over the whole chain. -/
theorem walkExt_sound {B : Nat → Byte} {len p F W : Nat} {names : Bool} {ch : Chain}
    (h : walkExt B len p F W names = .ok ch) :
    ¬ ChainBroken B len W p F ∧ ∀ bs, ChainAt B W p F bs → ch.ext = chainSize W bs := by
  refine ⟨fun hb => ?_, fun bs hb => (walkLoop_ext h hb).trans (Nat.zero_add _)⟩
  cases (walkLoop_broken hb).symm.trans h

theorem parseLevel0_bounds {B : Nat → Byte} {len e : Nat} {hd : Header} (h : parseLevel0 B len e = .ok hd) :
    24 ≤ baseLength B e ∧ e + baseLength B e ≤ len ∧ 24 + nameLength B e ≤ baseLength B e ∧
      hd.hdr = baseLength B e ∧ hd.packed = storedSize B e := by
  unfold parseLevel0 at h
  repeat' split at h
  all_goals cases h
  exact ⟨by omega, by omega, by omega, rfl, rfl⟩

theorem parseLevel1_bounds {B : Nat → Byte} {len e : Nat} {hd : Header} (h : parseLevel1 B len e = .ok hd) :
    26 ≤ baseLength B e ∧ e + baseLength B e ≤ len ∧ 26 + nameLength B e ≤ baseLength B e ∧
      ∃ ch, walkExt B len (e + baseLength B e) (le16 B (e + baseLength B e - 2)) 2 false = .ok ch ∧
        ch.ext ≤ storedSize B e ∧ hd.hdr = baseLength B e + ch.ext ∧ hd.packed = storedSize B e - ch.ext := by
  unfold parseLevel1 at h
  repeat' split at h
  all_goals cases h
  exact ⟨by omega, by omega, by omega, _, ‹_›, by omega, rfl, rfl⟩

theorem parseLevel2_bounds {B : Nat → Byte} {len e : Nat} {hd : Header} (h : parseLevel2 B len e = .ok hd) :
    e + 26 ≤ len ∧ 26 ≤ le16 B e ∧ e + le16 B e ≤ len ∧
      ∃ ch, walkExt B len (e + 26) (le16 B (e + 24)) 2 true = .ok ch ∧
        26 + ch.ext ≤ le16 B e ∧ hd.hdr = le16 B e ∧ hd.packed = storedSize B e := by
  have hfix : Config.lzhL2Fixed = 26 := rfl
  unfold parseLevel2 at h
  rw [hfix] at h
  repeat' split at h
  all_goals cases h
  exact ⟨by omega, by omega, by omega, _, ‹_›, by omega, rfl, rfl⟩

theorem parseLevel3_bounds {B : Nat → Byte} {len X e : Nat} {hd : Header} (h : parseLevel3 B len X e = .ok hd) :
    e + X ≤ len ∧ ∃ ch, walkExt B len (e + X) (le32 B (e + X - 4)) 4 true = .ok ch ∧
      hd.hdr = X + ch.ext ∧ hd.packed = storedSize B e := by
  unfold parseLevel3 at h
  repeat' split at h
  all_goals cases h
  exact ⟨by omega, _, ‹_›, rfl, rfl⟩

/-- Settles O49: each listed flaw contradicts what a parse that succeeds has found at that level. -/
theorem parseRejectsShortAndUnknownLevels : Obligations.ParseRejectsShortAndUnknownLevels := by
  rintro s malformed e len stored rfl rfl (rfl : stored = storedSize s.srcByte s.x.aux.toNat) rfl
  refine ⟨fun hs => if_pos (Nat.not_le.mpr hs), fun hs => ⟨fun hbad => ?_, ?_, ?_, ?_⟩⟩
  · refine execLzhParse_malformed hs fun hd hp => ?_
    obtain ⟨hlen, hlevel, -⟩ := parseHeader_level hp
    omega
  · rintro base N (rfl : base = baseLength s.srcByte s.x.aux.toNat) (rfl : N = nameLength s.srcByte s.x.aux.toNat)
    refine ⟨fun h0 hbad => ?_, fun h1 hbad => ?_⟩
    · refine execLzhParse_malformed hs fun hd hp => ?_
      obtain ⟨-, -, hp0, -⟩ := parseHeader_level hp
      obtain ⟨hmin, hbase, hname, hhdr, hpacked⟩ := parseLevel0_bounds (hp0 h0)
      omega
    · refine execLzhParse_malformed hs fun hd hp => ?_
      obtain ⟨-, -, -, hp1, -⟩ := parseHeader_level hp
      obtain ⟨hmin, hbase, hname, ch, hwalk, hext, hhdr, hpacked⟩ := parseLevel1_bounds (hp1 h1)
      obtain ⟨hwhole, hsize⟩ := walkExt_sound hwalk
      rcases hbad with hbad | hbad | hbad | hbad | ⟨bs, hbs, hbad⟩
      · omega
      · omega
      · omega
      · exact absurd hbad hwhole
      · have := hsize bs hbs
        omega
  · rintro HL rfl h2 hbad
    refine execLzhParse_malformed hs fun hd hp => ?_
    obtain ⟨-, -, -, -, hp2, -⟩ := parseHeader_level hp
    obtain ⟨hfixed, hmin, hin, ch, hwalk, hext, hhdr, hpacked⟩ := parseLevel2_bounds (hp2 h2)
    obtain ⟨hwhole, hsize⟩ := walkExt_sound hwalk
    rcases hbad with hbad | hbad | hbad | hbad | ⟨bs, hbs, hbad⟩ | hbad
    · omega
    · omega
    · omega
    · exact absurd hbad hwhole
    · have := hsize bs hbs
      omega
    · omega
  · rintro X rfl h3 hbad
    refine execLzhParse_malformed hs fun hd hp => ?_
    obtain ⟨-, -, -, -, -, hp3⟩ := parseHeader_level hp
    obtain ⟨hfixed, ch, hwalk, hhdr, hpacked⟩ := parseLevel3_bounds (hp3 h3)
    obtain ⟨hwhole, hsize⟩ := walkExt_sound hwalk
    rcases hbad with hbad | hbad | ⟨bs, hbs, hbad⟩
    · omega
    · exact absurd hbad hwhole
    · have := hsize bs hbs
      omega

end Sys2Proof.Machine

/-!
PROOFS. The statements about the encoding (spec/30_encoding.md): the opcode map and its immediates (R83, R84), the
illegal words (R85), the tokens of the RLE stream and what each of them emits (R100, spec/42_rle.md R152).
-/

namespace Sys2Proof

/-! ### The opcode map (R83, R84) -/

/-- The largest legal immediate of an opcode, none for an opcode that is not in the map (R83, R84): 0 is the
N-format. -/
def immLimit : Nat → Option Nat
  | 0x10 | 0x52 => some 1
  | 0x11 | 0x12 => some Config.brNMax
  | 0x20 | 0x21 | 0x22 | 0x30 | 0x31 | 0x32 | 0x33 | 0x40 | 0x50 | 0x51 | 0x60 | 0x61 | 0x62 | 0x70 => some 0
  | _ => none

theorem formatN_eq_formatI (imm : Byte) (i : Instr) : formatN imm i = formatI imm 0 i := by
  have h : imm = 0#8 ↔ imm.toNat ≤ 0 := by rw [Nat.le_zero, BitVec.toNat_eq]; rfl
  simp only [formatN, formatI, h]

theorem formatI_eq_ok {imm : Byte} {limit : Nat} {i j : Instr} :
    formatI imm limit i = .ok j ↔ imm.toNat ≤ limit ∧ i = j := by
  unfold formatI
  split <;> simp [*]

theorem formatI_eq_error {imm : Byte} {limit : Nat} {i : Instr} :
    (∃ e, formatI imm limit i = .error e) ↔ limit < imm.toNat := by
  unfold formatI
  split <;> simp <;> omega

/-- A word whose upper bits are 0 is its two fields (R81, R82). -/
theorem commandBits_fields {w : Word} (hz : zeroField w = 0#16) : commandBits (opcodeField w) (immField w) = w := by
  apply BitVec.eq_of_toNat_eq
  have hz' := zeroField_toNat w
  rw [hz, BitVec.toNat_ofNat, Nat.zero_mod] at hz'
  rw [commandBits_toNat, opcodeField_toNat, immField_toNat]
  omega

theorem decodeWord_upperBits {w : Word} (hz : zeroField w ≠ 0#16) : decodeWord w = .error .upperBitsNotZero :=
  if_pos hz

theorem decodeWord_unknown {op : Byte} (imm : Byte) (h : immLimit op.toNat = none) :
    decodeWord (commandBits op imm) = .error .unknownOpcode := by
  simp only [decodeWord, zeroField_commandBits, opcodeField_commandBits, immField_commandBits, ne_eq, not_true_eq_false,
    if_false]
  revert h
  generalize op.toNat = k
  fun_cases immLimit k <;> simp

/-- The answer `d` is what a row of the map gives the word of `op` and `imm`: an instruction, subject to the check of
`imm` against the row's limit, whose encoding is that word when `imm` passes (R83, R84). -/
def DecodesByRow (op imm : Byte) (limit : Nat) (d : Except DecodeError Instr) : Prop :=
  ∃ i, d = formatI imm limit i ∧ (imm.toNat ≤ limit → i.wf = true ∧ encode i = .command (commandBits op imm))

theorem decodesByRow_formatN {op imm : Byte} {i : Instr} (hi : i.wf = true)
    (he : encode i = .command (commandBits op 0#8)) : DecodesByRow op imm 0 (formatN imm i) := by
  refine ⟨i, formatN_eq_formatI imm i, fun h => ?_⟩
  obtain rfl : imm = 0#8 := BitVec.eq_of_toNat_eq (Nat.le_zero.mp h)
  exact ⟨hi, he⟩

theorem byte_eq_zero_or_one {imm : Byte} (h : imm.toNat ≤ 1) : imm = 0#8 ∨ imm = 1#8 := by bv_omega

/-- The decoder answers by the map's rows: two with a one-bit immediate, two with a bit count, and the N-format. -/
theorem decodeWord_row {op : Byte} (imm : Byte) {limit : Nat} (h : immLimit op.toNat = some limit) :
    DecodesByRow op imm limit (decodeWord (commandBits op imm)) := by
  simp only [decodeWord, zeroField_commandBits, opcodeField_commandBits, immField_commandBits, ne_eq, not_true_eq_false,
    if_false]
  revert h
  generalize hk : op.toNat = k
  obtain rfl : op = BitVec.ofNat 8 k := by rw [← hk, BitVec.ofNat_toNat, BitVec.setWidth_eq]
  clear hk
  fun_cases immLimit k <;> rintro ⟨⟩
  case case1 | case2 =>
    refine ⟨_, rfl, fun h => ?_⟩
    obtain rfl | rfl := byte_eq_zero_or_one h <;> exact ⟨rfl, rfl⟩
  case case3 | case4 => exact ⟨_, rfl, fun h => ⟨decide_eq_true h, rfl⟩⟩
  all_goals exact decodesByRow_formatN rfl rfl

/-- Settles O2: the word is its two fields, and they stand in a row of the opcode map. -/
theorem decodedWordIsTheEncodingOfItsCommand : Obligations.DecodedWordIsTheEncodingOfItsCommand := by
  intro w i h
  by_cases hz : zeroField w = 0#16
  · rw [← commandBits_fields hz] at h ⊢
    cases hop : immLimit (opcodeField w).toNat with
    | none =>
      rw [decodeWord_unknown _ hop] at h
      cases h
    | some limit =>
      obtain ⟨j, hj, hlegal⟩ := decodeWord_row (immField w) hop
      rw [hj, formatI_eq_ok] at h
      obtain ⟨himm, rfl⟩ := h
      exact hlegal himm
  · rw [decodeWord_upperBits hz] at h
    cases h

/-- R85 over the map: a word is illegal by its upper bits, its opcode or its immediate. -/
theorem decodeWord_error_iff (w : Word) : (∃ e, decodeWord w = .error e) ↔
    zeroField w ≠ 0#16 ∨ ∀ limit, immLimit (opcodeField w).toNat = some limit → limit < (immField w).toNat := by
  by_cases hz : zeroField w = 0#16
  · rw [← commandBits_fields hz, opcodeField_commandBits, immField_commandBits, zeroField_commandBits]
    cases hop : immLimit (opcodeField w).toNat with
    | none => simp [decodeWord_unknown _ hop]
    | some limit =>
      obtain ⟨j, hj, -⟩ := decodeWord_row (immField w) hop
      rw [hj, formatI_eq_error]
      simp
  · simp [decodeWord_upperBits hz, hz]

/-- The immediates of R83 as R85 lists them, by opcode. -/
theorem immLimit_exceeded_iff (op imm : Nat) : (∀ limit, immLimit op = some limit → limit < imm) ↔
    op ∉ [0x10, 0x11, 0x12, 0x20, 0x21, 0x22, 0x30, 0x31, 0x32, 0x33, 0x40, 0x50, 0x51, 0x52, 0x60, 0x61, 0x62, 0x70] ∨
      (op ∉ [0x10, 0x11, 0x12, 0x52] ∧ imm ≠ 0) ∨ (op ∈ [0x10, 0x52] ∧ 1 < imm) ∨ (op ∈ [0x11, 0x12] ∧ 32 < imm) := by
  fun_cases immLimit op
  case case19 =>
    simp only [imp_false] at *
    simp [*]
  all_goals simp [Config.brNMax, Nat.pos_iff_ne_zero]

/-- Settles O3: the opcode map read as R85 lists the illegal words, and the fault entry of an illegal word. -/
theorem illegalWordsRaiseIllegalCommand : Obligations.IllegalWordsRaiseIllegalCommand := by
  intro w
  constructor
  · rw [decodeWord_error_iff, immLimit_exceeded_iff, ← zeroField_toNat, ← opcodeField_toNat, ← immField_toNat,
      ne_eq, BitVec.toNat_eq]
    exact or_left_comm
  · rintro ⟨e, he⟩ s hs
    rw [Machine.issue_illegal hs he]
    rfl

/-! ### The tokens of the RLE stream (R100) -/

theorem decodeToken_bytes_append (t : RleToken) (rest : List Byte) (h : t.wf = true) :
    decodeToken (t.bytes ++ rest) = .ok (t, rest) := by
  cases t with
  | lit b => exact decodeToken_not_esc b rest (bne_iff_ne.mp h)
  | esc90 => rfl
  | run8 c v =>
    obtain ⟨hc, hl⟩ : c ≠ 0#8 ∧ c ≠ Config.rleLong := by simpa [RleToken.wf] using h
    simp [RleToken.bytes, decodeToken, hc, hl]
  | run16 v hi lo => rfl

theorem decodeToken_sound {bs rest : List Byte} {t : RleToken} (h : decodeToken bs = .ok (t, rest)) :
    t.wf = true ∧ bs = t.bytes ++ rest := by
  revert h
  fun_cases decodeToken bs <;> rintro ⟨⟩
  case case2 b hb => exact ⟨bne_iff_ne.mpr hb, rfl⟩
  case case4 b hb =>
    obtain rfl := not_not.mp hb
    exact ⟨rfl, rfl⟩
  case case6 b hb v hi lo hl =>
    obtain rfl := not_not.mp hb
    exact ⟨rfl, rfl⟩
  case case8 b hb c hc v hl =>
    obtain rfl := not_not.mp hb
    exact ⟨by simp [RleToken.wf, hc, hl], rfl⟩

/-- Settles O5: one equation per token, and the decoder's cases read backwards. -/
theorem tokenDecodesFromItsBytesOnly : Obligations.TokenDecodesFromItsBytesOnly :=
  ⟨decodeToken_bytes_append, fun _ _ _ h => decodeToken_sound h⟩

/-- A token's unit decodes to the token's instruction. -/
theorem decode_token_bytes {t : RleToken} (h : t.wf = true) : decode (.token t.bytes) = .ok t.toInstr := by
  have hd := decodeToken_bytes_append t [] h
  rw [List.append_nil] at hd
  simp only [decode, hd]

/-! ### The round trip -/

/-- A bit read with a legal count is decoded field by field. -/
theorem decodeWord_bitRead {n : Byte} (h : n.toNat ≤ Config.brNMax) :
    decodeWord (commandBits 0x11#8 n) = .ok (.brRdu n) ∧ decodeWord (commandBits 0x12#8 n) = .ok (.brRds n) := by
  constructor <;>
    simp [decodeWord, zeroField_commandBits, opcodeField_commandBits, immField_commandBits, formatI_eq_ok, h]

/-- Settles O1: a command without a free operand is one word, a bit read is decoded field by field, a token by its
bytes. -/
theorem decodeOfEncodeIsTheInstruction : Obligations.DecodeOfEncodeIsTheInstruction := by
  intro i h
  cases i with
  | brBind order => cases order <;> rfl
  | brRdu n => exact (decodeWord_bitRead (of_decide_eq_true h)).1
  | brRds n => exact (decodeWord_bitRead (of_decide_eq_true h)).2
  | dmsUnpack verify => cases verify <;> rfl
  | crcInit | crcUpd | crcRun | sumInit | sumUpd | sumRun | sum32Chk | rleExpand | dmsOpen | dmsTrack | lzhParse | lzhExt
  | lzhCrc | errClr => rfl
  | rleLit b => exact decode_token_bytes (t := .lit b) h
  | rleEsc90 => exact decode_token_bytes (t := .esc90) h
  | rleRun8 c v => exact decode_token_bytes (t := .run8 c v) h
  | rleRun16 v hi lo => exact decode_token_bytes (t := .run16 v hi lo) h

/-- Settles O4: each word and each token is evaluated by the decoder. -/
theorem writtenOutWordsDecode : Obligations.WrittenOutWordsDecode :=
  ⟨rfl, rfl, rfl, rfl, rfl, rfl, rfl, rfl, rfl, rfl⟩

end Sys2Proof

namespace Sys2Proof.Machine

/-! ### What a token emits (R100, R152) -/

/-- A token with room for its output appends it and changes nothing else. -/
theorem execToken_fits {s : State} {r : RleRun} (t : RleToken) (hr : s.rle = some r)
    (hroom : r.out.length + tokenCount t ≤ s.x.dlen.toNat) :
    execToken t s = .next (s.setRle (some { r with out := r.out ++ tokenOutput t })) := by
  have hcur : s.rleCurrent = r := by rw [State.rleCurrent, hr]; rfl
  rw [execToken, hcur, rleEmit_eq_some.mpr ⟨hroom, rfl⟩]
  rfl

/-- Settles O31: the output of each token, with its count and its value. -/
theorem eachTokenEmitsItsBytes : Obligations.EachTokenEmitsItsBytes := fun _ _ hr =>
  ⟨fun b => execToken_fits (.lit b) hr, execToken_fits .esc90 hr, fun c v => execToken_fits (.run8 c v) hr,
    fun v hi lo => execToken_fits (.run16 v hi lo) hr⟩

end Sys2Proof.Machine

/-!
PROOFS. The statements about the bit-stream reader (spec/40_bit_reader.md): the bit of an offset (R112), the assembly
of a value bit by bit and in two parts (R114, R119), the binding (R111), and what a bit read answers (R113, R115,
R116).
-/

namespace Sys2Proof.Machine

/-! ### Bits of the bound buffer (R112) -/

theorem brBit_msbFirst {s : State} (h : s.br.mode = .msbFirst) (p : Nat) :
    s.brBit p = (s.mem.read (s.br.base.toNat + p / 8)).getLsbD (7 - p % 8) := by
  simp only [State.brBit, h]

theorem brBit_lsbFirst {s : State} (h : s.br.mode = .lsbFirst) (p : Nat) :
    s.brBit p = (s.mem.read (s.br.base.toNat + p / 8)).getLsbD (p % 8) := by
  simp only [State.brBit, h]

/-- Settles O17: one equation per mode. -/
theorem bitsAreNumberedByTheMode : Obligations.BitsAreNumberedByTheMode := fun _ p =>
  ⟨fun h => brBit_msbFirst h p, fun h => brBit_lsbFirst h p⟩

/-- The bits after a read of `m` are those that a reader advanced by `m` takes first. -/
theorem brBits_add_of_advanced {s t : State} {m : Nat} (hb : t.br.base = s.br.base) (hmode : t.br.mode = s.br.mode)
    (hmem : t.mem = s.mem) (hp : t.br.pos.toNat = s.br.pos.toNat + m) (n : Nat) :
    s.brBits (m + n) = s.brBits m ++ t.brBits n := by
  rw [brBits_add, ← hp]
  simp only [State.brBits, brBit_congr hb hmode hmem]

/-! ### Assembly (R114) -/

/-- Two of the three arms of R114 are one assembly. -/
theorem assemble_eq (o : BitOrder) (asm : Config.LsbAssembly) (bs : List Bool) : assemble o asm bs =
    if o = .lsbFirst ∧ asm = .lsbToLsb then weighBits bs else shiftIn bs := by
  cases o with
  | msbFirst => rfl
  | lsbFirst => cases asm <;> rfl

/-- The splitting law on lists of bits (R119). -/
theorem assemble_append (o : BitOrder) (asm : Config.LsbAssembly) (as bs : List Bool) :
    assemble o asm (as ++ bs) =
      if o = .lsbFirst ∧ asm = .lsbToLsb
      then assemble o asm as + assemble o asm bs * 2 ^ as.length
      else assemble o asm as * 2 ^ bs.length + assemble o asm bs := by
  simp only [assemble_eq]
  split
  · rw [weighBits_append, mul_comm]
  · rw [shiftIn_append, mul_comm]

theorem assemble_singleton (o : BitOrder) (asm : Config.LsbAssembly) (b : Bool) : assemble o asm [b] = b.toNat := by
  rw [assemble_eq]
  split
  · rfl
  · exact Nat.zero_add _

theorem readUnsigned_lt (s : State) (n : Nat) : s.readUnsigned n < 2 ^ n := by
  rw [State.readUnsigned]
  simpa using assemble_lt s.br.mode s.cfg.lsbAssembly (s.brBits n)

theorem readUnsigned_zero (s : State) : s.readUnsigned 0 = 0 :=
  Nat.lt_one_iff.mp (readUnsigned_lt s 0)

theorem readUnsigned_succ (s : State) (n : Nat) : s.readUnsigned (n + 1) =
    if s.br.mode = .lsbFirst ∧ s.cfg.lsbAssembly = .lsbToLsb
    then s.readUnsigned n + (s.brBit (s.br.pos.toNat + n)).toNat * 2 ^ n
    else 2 * s.readUnsigned n + (s.brBit (s.br.pos.toNat + n)).toNat := by
  have hbits : s.brBits (n + 1) = s.brBits n ++ [s.brBit (s.br.pos.toNat + n)] := brBits_add s n 1
  rw [State.readUnsigned, hbits, assemble_append, assemble_singleton, brBits_length, List.length_singleton, pow_one,
    mul_comm _ 2]
  rfl

/-- Settles O16: a singleton is the second part of the splitting law. -/
theorem unsignedValueIsAssembledBitByBit : Obligations.UnsignedValueIsAssembledBitByBit := fun s =>
  ⟨readUnsigned_zero s, readUnsigned_succ s, readUnsigned_lt s⟩

/-- The value of up to 32 bits fits in a register. -/
theorem toNat_ofNat_readUnsigned (s : State) {n : Nat} (hn : n ≤ 32) :
    (BitVec.ofNat 32 (s.readUnsigned n)).toNat = s.readUnsigned n := by
  have hlt : s.readUnsigned n < 2 ^ 32 := lt_of_lt_of_le (readUnsigned_lt s n) (Nat.pow_le_pow_right (by decide) hn)
  rw [BitVec.toNat_ofNat, Nat.mod_eq_of_lt hlt]

/-- The splitting law (R119): the second value is read by a reader advanced by `m`. -/
theorem readUnsigned_add_of_advanced {s t : State} {m : Nat} (hb : t.br.base = s.br.base)
    (hmode : t.br.mode = s.br.mode) (hmem : t.mem = s.mem) (hcfg : t.cfg = s.cfg)
    (hp : t.br.pos.toNat = s.br.pos.toNat + m) (n : Nat) :
    s.readUnsigned (m + n) =
      if s.br.mode = .lsbFirst ∧ s.cfg.lsbAssembly = .lsbToLsb
      then s.readUnsigned m + t.readUnsigned n * 2 ^ m
      else s.readUnsigned m * 2 ^ n + t.readUnsigned n := by
  simp only [State.readUnsigned, brBits_add_of_advanced hb hmode hmem hp, assemble_append, brBits_length, hmode, hcfg]

/-! ### The words of the three commands (R84) -/

theorem faultWord_brBind (o : BitOrder) :
    faultWord (.brBind o) = if o = .lsbFirst then 0x00000110#32 else 0x00000010#32 := by
  cases o <;> rfl

theorem commandBits_eq_ofNat (op imm : Byte) : commandBits op imm = BitVec.ofNat 32 (op.toNat + 256 * imm.toNat) := by
  rw [Nat.add_comm, ← commandBits_toNat, BitVec.ofNat_toNat, BitVec.setWidth_eq]

theorem faultWord_brRdu (n : Byte) : faultWord (.brRdu n) = BitVec.ofNat 32 (0x11 + 256 * n.toNat) :=
  commandBits_eq_ofNat 0x11#8 n

theorem faultWord_brRds (n : Byte) : faultWord (.brRds n) = BitVec.ofNat 32 (0x12 + 256 * n.toNat) :=
  commandBits_eq_ofNat 0x12#8 n

/-! ### The binding (R111) -/

theorem execBrBind_binds {s : State} {o : BitOrder} (hs : s.srcInMem) (hl : s.x.slen.toNat ≤ Config.brLenMax) :
    execBrBind o s = .next (s.setBr { base := s.x.src, len := s.x.slen.setWidth 29, pos := 0#32, mode := o }) := by
  rw [execBrBind, if_neg (not_not.mpr hs), if_neg (Nat.not_lt.mpr hl)]

theorem execBrBind_operand {s : State} {o : BitOrder} (h : ¬ s.srcInMem ∨ Config.brLenMax < s.x.slen.toNat) :
    execBrBind o s = raise s (faultWord (.brBind o)) .operand := by
  unfold execBrBind
  split
  · rfl
  · rw [if_pos (h.resolve_left ‹_›)]

/-- Settles O13: the binding and its fault. -/
theorem bindRecordsTheWindowAndRewinds : Obligations.BindRecordsTheWindowAndRewinds := by
  intro s o
  refine ⟨fun hs hl => ⟨s.x.slen.setWidth 29, ?_, execBrBind_binds hs hl⟩, fun h => ?_⟩
  · rw [BitVec.toNat_setWidth]
    omega
  · rw [← faultWord_brBind]
    exact execBrBind_operand (h.imp_left Nat.not_le.mpr)

/-! ### A bit read past the end of the buffer (R113) -/

theorem brRead_overrun {cmd : Word} {n : Nat} {value : Nat → Word} {s : State} (hn : n ≤ Config.brNMax)
    (hf : ¬ s.brFits n) : brRead cmd n value s = raise s cmd .overrun := by
  rw [brRead, if_neg (Nat.not_lt.mpr hn), if_pos hf]

/-- Settles O15: the one fault of `brRead`, with the words of the two commands. -/
theorem readPastTheEndRaisesBrOverrun : Obligations.ReadPastTheEndRaisesBrOverrun := by
  intro s n hn hend
  rw [← faultWord_brRdu, ← faultWord_brRds]
  exact ⟨brRead_overrun hn (Nat.not_le.mpr hend), brRead_overrun hn (Nat.not_le.mpr hend)⟩

/-! ### A bit read that fits (R115, R116) -/

/-- `BR_POS` does not wrap: `BR_LEN` has 29 bits (R111). -/
theorem advance_toNat {s : State} {n : Nat} (hf : s.brFits n) :
    (BitVec.ofNat 32 (s.br.pos.toNat + n)).toNat = s.br.pos.toNat + n := by
  have hlen := s.br.len.isLt
  unfold State.brFits at hf
  rw [BitVec.toNat_ofNat, Nat.mod_eq_of_lt (by omega)]

/-- The two's-complement reading of `n` bits as a 32-bit pattern (R116). -/
theorem signedWord_toInt {n u : Nat} (hn : n ≤ 32) (hu : u < 2 ^ n) :
    (signedWord n u).toInt = if 1 ≤ n ∧ u.testBit (n - 1) then (u : Int) - 2 ^ n else u := by
  cases n with
  | zero =>
    obtain rfl : u = 0 := Nat.lt_one_iff.mp hu
    rfl
  | succ k =>
    have hk : 2 ^ k ≤ 2 ^ 31 := Nat.pow_le_pow_right (by decide) (by omega)
    have hpow : (2 : Int) ^ (k + 1) = 2 * (2 ^ k : Nat) := by push_cast; ring
    have htop : u.testBit k ↔ 2 ^ k ≤ u :=
      ⟨Nat.ge_two_pow_of_testBit, fun h => Nat.testBit_of_two_pow_le_and_two_pow_add_one_gt h hu⟩
    rw [pow_succ] at hu
    simp only [signedWord, Nat.add_sub_cancel, htop, hpow]
    generalize 2 ^ k = q at *
    split
    · exact BitVec.toInt_ofInt_eq_self (by decide) (by omega) (by omega)
    · rw [← BitVec.ofInt_natCast]
      exact BitVec.toInt_ofInt_eq_self (by decide) (by omega) (by omega)

/-- Settles O14: the answer of a read that fits, and the reading of the word in `RES0`. -/
theorem bitReadsReturnTheFieldAndAdvance : Obligations.BitReadsReturnTheFieldAndAdvance := by
  intro s n hn hf hb
  have hne : n ≠ 0#8 ↔ 1 ≤ n.toNat := by bv_omega
  refine ⟨⟨_, _, advance_toNat hf, toNat_ofNat_readUnsigned s hn, brRead_fits hn hf hb⟩,
    ⟨_, _, advance_toNat hf, ?_, brRead_fits hn hf hb⟩⟩
  simp only [hne, signedWord_toInt hn (readUnsigned_lt s _)]

/-! ### Two reads and one (R119) -/

/-- A bit read that fits and does not stop the machine advances and returns its value. -/
theorem execBrRdu_of_fits {n : Byte} {s t : State} (hn : n.toNat ≤ 32) (hf : s.brFits n.toNat)
    (h : execBrRdu n s = .next t) : ∃ p v : Word, p.toNat = s.br.pos.toNat + n.toNat ∧ v.toNat = s.readUnsigned n.toNat ∧
      t = (s.setBr { s.br with pos := p }).setRes0 v := by
  refine ⟨_, _, advance_toNat hf, toNat_ofNat_readUnsigned s hn, ?_⟩
  rw [execBrRdu, brRead, if_neg (show ¬ Config.brNMax < n.toNat from not_lt_of_ge hn),
    if_neg (not_not.mpr hf)] at h
  split at h
  · cases h
  · exact (Host.Outcome.next.inj h).symm

/-- Settles O18: the second read starts where the first one ended. -/
theorem splitReadsGiveTheSameBits : Obligations.SplitReadsGiveTheSameBits := by
  intro s s1 s2 t n1 n2 n hsum hn hf h1 h2 ht
  have hf1 : s.brFits n1.toNat := by unfold State.brFits; omega
  obtain ⟨p1, v1, hp1, hv1, rfl⟩ := execBrRdu_of_fits (by omega) hf1 h1
  have hf2 : p1.toNat + n2.toNat ≤ 8 * s.br.len.toNat := by omega
  obtain ⟨p2, v2, hp2, hv2, rfl⟩ := execBrRdu_of_fits (by omega) hf2 h2
  obtain ⟨p, v, hp, hv, rfl⟩ := execBrRdu_of_fits hn hf ht
  have hvalue := readUnsigned_add_of_advanced (s := s) (t := (s.setBr { s.br with pos := p1 }).setRes0 v1)
    rfl rfl rfl rfl hp1 n2.toNat
  rw [State.setRes0_br, State.setBr_br, hp1] at hp2
  obtain rfl : p2 = p := BitVec.eq_of_toNat_eq (by omega)
  refine ⟨rfl, ?_⟩
  simpa only [State.setRes0_x, hv, hv1, hv2, hsum] using hvalue

/-! ### An aligned byte (R114, R118) -/

theorem shiftIn_reverse (bs : List Bool) : shiftIn bs.reverse = weighBits bs := by
  induction bs with
  | nil => rfl
  | cons b bs ih => rw [List.reverse_cons, shiftIn_snoc, ih, weighBits, Nat.add_comm]

/-- The bits of a number from bit 0 on, weighed, are the number. -/
theorem weighBits_testBit (x n : Nat) : weighBits ((List.range n).map x.testBit) = x % 2 ^ n := by
  induction n with
  | zero => simp [weighBits, Nat.mod_one]
  | succ n ih => simp [List.range_succ, weighBits_append, ih, weighBits, Nat.mod_pow_succ, Nat.toNat_testBit]

theorem weighBits_byte (b : Byte) : weighBits ((List.range 8).map b.getLsbD) = b.toNat :=
  (weighBits_testBit b.toNat 8).trans (Nat.mod_eq_of_lt b.isLt)

/-- In LSB-first mode the bits of an aligned byte are taken from bit 0 on, in MSB-first mode from bit 7 down (R112). -/
theorem brBits_aligned_byte {s : State} (hp : s.br.pos.toNat % 8 = 0) {b : Byte}
    (hb : s.mem.read (s.br.base.toNat + s.br.pos.toNat / 8) = b) :
    s.brBits 8 =
      if s.br.mode = .lsbFirst then (List.range 8).map b.getLsbD else ((List.range 8).map b.getLsbD).reverse := by
  have hdiv : ∀ i < 8, (s.br.pos.toNat + i) / 8 = s.br.pos.toNat / 8 := by omega
  have hmod : ∀ i < 8, (s.br.pos.toNat + i) % 8 = i := by omega
  cases hm : s.br.mode with
  | msbFirst =>
    have hdown : ((List.range 8).map b.getLsbD).reverse = (List.range 8).map fun i => b.getLsbD (7 - i) := rfl
    refine Eq.trans (List.map_congr_left fun i hi => ?_) hdown.symm
    rw [List.mem_range] at hi
    rw [brBit_msbFirst hm, hdiv i hi, hmod i hi, hb]
  | lsbFirst =>
    refine List.map_congr_left fun i hi => ?_
    rw [List.mem_range] at hi
    rw [brBit_lsbFirst hm, hdiv i hi, hmod i hi, hb]

/-- An aligned read of eight bits, in the two assemblies that return the byte itself (R114). -/
theorem readUnsigned_aligned_byte {s : State} (hp : s.br.pos.toNat % 8 = 0)
    (h : s.br.mode = .msbFirst ∨ s.cfg.lsbAssembly = .lsbToLsb) :
    s.readUnsigned 8 = (s.mem.read (s.br.base.toNat + s.br.pos.toNat / 8)).toNat := by
  rw [State.readUnsigned, brBits_aligned_byte hp rfl]
  cases hm : s.br.mode with
  | msbFirst => exact (shiftIn_reverse _).trans (weighBits_byte _)
  | lsbFirst =>
    rw [h.resolve_left (by simp [hm])]
    exact weighBits_byte _

/-- Settles O19: the read completes and its eight bits are the byte's. -/
theorem alignedByteReadReturnsTheByteInMemory : Obligations.AlignedByteReadReturnsTheByteInMemory := by
  intro s hp hf hb hmode
  refine ⟨_, brRead_fits (by decide) hf hb, ?_⟩
  rw [State.setRes0_x]
  change BitVec.ofNat 32 (s.readUnsigned 8) = _
  rw [readUnsigned_aligned_byte hp hmode, BitVec.ofNat_toNat]

end Sys2Proof.Machine

/-!
PROOFS. The statements about the CRC and the checksums (spec/41_crc_checksum.md): the CRC of a list of bytes (R130 to
R132), the sum of a list of bytes (R136), the commands over the source window (R133 to R135, R137 to R139), and the
checksum of a block of big-endian words (R140, R141).
-/

namespace Sys2Proof

/-- A command without an immediate has one word: by the opcode map, any other word with its opcode has an upper bit or
an illegal immediate (R84, R85). -/
theorem Instr.HasOnlyWord.of_nFormat {i : Instr} {w : Word} (hd : decodeWord w = .ok i) (hw : w.toNat < 256)
    (hrow : immLimit w.toNat = some 0) : i.HasOnlyWord w := by
  refine ⟨(decodedWordIsTheEncodingOfItsCommand w i hd).2, hd, fun v hop hne => (decodeWord_error_iff v).mpr ?_⟩
  rw [or_iff_not_imp_left, not_not]
  intro hz limit hlimit
  have hupper := zeroField_toNat v
  rw [hz, BitVec.toNat_ofNat, Nat.zero_mod] at hupper
  rw [opcodeField_toNat, hop, Nat.mod_eq_of_lt hw, hrow, Option.some.injEq] at hlimit
  rw [immField_toNat]
  have hv : v.toNat ≠ w.toNat := fun h => hne (BitVec.eq_of_toNat_eq h)
  omega

end Sys2Proof

namespace Sys2Proof.Machine

/-! ### The CRC of a list of bytes (R130 to R132) -/

theorem crcByte_eq_iterate (c : Half) (b : Byte) : crcByte c b = crcShift^[8] (c ^^^ b.setWidth 16) := rfl

/-- Settles O22: each of the eight passes is the step on numbers. -/
theorem crcByteIsEightShiftsOfTheReflectedRegister : Obligations.CrcByteIsEightShiftsOfTheReflectedRegister := by
  intro c b
  have hpass : Function.Semiconj BitVec.toNat crcShift
      (fun r : Nat => if r % 2 = 1 then (r / 2) ^^^ 0xA001 else r / 2) := crcShift_toNat
  have hb : b.toNat < 2 ^ 16 := lt_trans b.isLt (by decide)
  rw [crcByte_eq_iterate, hpass.iterate_right 8, BitVec.toNat_xor, BitVec.toNat_setWidth, Nat.mod_eq_of_lt hb]

/-- Settles O23: the three values are computed. -/
theorem crcReferenceValues : Obligations.CrcReferenceValues := by
  refine ⟨?_, ?_, ?_⟩ <;> simp [crc16, crcByte, crcShift, Config.crcPoly]

theorem crcByte_xor (c d : Half) (x y : Byte) : crcByte (c ^^^ d) (x ^^^ y) = crcByte c x ^^^ crcByte d y := by
  have hentry : c ^^^ d ^^^ (x ^^^ y).setWidth 16 = (c ^^^ x.setWidth 16) ^^^ (d ^^^ y.setWidth 16) := by
    rw [BitVec.setWidth_xor]
    ac_rfl
  simp only [crcByte, hentry, crcShift_xor]

@[simp] theorem crc16_nil (c : Half) : crc16 [] c = c := rfl

@[simp] theorem crc16_cons (b : Byte) (bs : List Byte) (c : Half) : crc16 (b :: bs) c = crc16 bs (crcByte c b) := rfl

theorem crc16_append (a b : List Byte) (c : Half) : crc16 (a ++ b) c = crc16 b (crc16 a c) := List.foldl_append

/-- Zero bytes keep the register at 0. -/
theorem crc16_replicate_zero (k : Nat) : crc16 (List.replicate k 0#8) 0#16 = 0#16 := by
  induction k with
  | zero => rfl
  | succ k ih =>
    have hbyte : crcByte 0#16 0#8 = 0#16 := by decide
    rw [List.replicate_succ, crc16_cons, hbyte, ih]

theorem crc16_xor (a b : List Byte) (c d : Half) (hl : a.length = b.length) :
    crc16 (List.zipWith (fun x y => x ^^^ y) a b) (c ^^^ d) = crc16 a c ^^^ crc16 b d := by
  induction a generalizing b c d with
  | nil =>
    obtain rfl := List.length_eq_zero_iff.mp hl.symm
    rfl
  | cons x a ih =>
    cases b with
    | nil => cases hl
    | cons y b =>
      rw [List.zipWith_cons_cons, crc16_cons, crcByte_xor, ih b _ _ (Nat.succ.inj hl)]
      rfl

/-- Settles O24: the laws of the fold. -/
theorem crcConcatenatesAndIsLinear : Obligations.CrcConcatenatesAndIsLinear :=
  ⟨crc16_nil, fun _ _ => rfl, crc16_append, fun k a => by rw [crc16_append, crc16_replicate_zero], crc16_xor⟩

/-! ### The sum of a list of bytes (R136) -/

theorem sum16_cons (b : Byte) (bs : List Byte) (s0 : Half) : sum16 (b :: bs) s0 = sum16 bs (s0 + b.setWidth 16) := rfl

theorem sum16_append (a b : List Byte) (s0 : Half) : sum16 (a ++ b) s0 = sum16 b (sum16 a s0) := List.foldl_append

theorem sum16_toNat (bs : List Byte) (s0 : Half) :
    (sum16 bs s0).toNat = (s0.toNat + (bs.map BitVec.toNat).sum) % 65536 := by
  induction bs generalizing s0 with
  | nil => exact (Nat.mod_eq_of_lt s0.isLt).symm
  | cons b bs ih =>
    rw [sum16_cons, ih, List.map_cons, List.sum_cons, BitVec.toNat_add, BitVec.toNat_setWidth]
    omega

theorem sum16_perm {a b : List Byte} (h : a.Perm b) (s0 : Half) : sum16 a s0 = sum16 b s0 := by
  apply BitVec.eq_of_toNat_eq
  rw [sum16_toNat, sum16_toNat, (h.map BitVec.toNat).sum_eq]

/-- Settles O26: the laws of the fold, and the sum as a number. -/
theorem sumIsTheByteSumModulo65536 : Obligations.SumIsTheByteSumModulo65536 :=
  ⟨sum16_toNat, rfl, fun a b => sum16_append a b 0#16, fun _ _ s0 h => sum16_perm h s0⟩

/-! ### The commands over the source window (R133 to R135, R137 to R139) -/

/-- Settles O20: two words of the opcode map, and one register each. -/
theorem initCommandsClearTheRunningValue : Obligations.InitCommandsClearTheRunningValue :=
  ⟨.of_nFormat rfl (by decide) rfl, .of_nFormat rfl (by decide) rfl, fun _ => ⟨rfl, rfl⟩⟩

theorem crcOverWindow_inMem {s : State} (h : s.srcInMem) (cmd : Word) (c0 : Half) : crcOverWindow cmd c0 s =
    .next ((s.setCrc (crc16 s.window c0)).setRes0 ((crc16 s.window c0).setWidth 32)) :=
  if_neg (not_not.mpr h)

theorem crcOverWindow_operand {s : State} (h : ¬ s.srcInMem) (cmd : Word) (c0 : Half) :
    crcOverWindow cmd c0 s = raise s cmd .operand :=
  if_pos h

/-- Settles O21: the two answers of the shared operation, from `CRC` and from 0. -/
theorem crcCommandsFoldTheSourceWindow : Obligations.CrcCommandsFoldTheSourceWindow := by
  refine ⟨.of_nFormat rfl (by decide) rfl, .of_nFormat rfl (by decide) rfl, fun s => ?_⟩
  refine ⟨fun hin => ?_, fun hout => ?_⟩
  · exact ⟨crcOverWindow_inMem hin _ _, crcOverWindow_inMem hin _ _⟩
  · rw [← Nat.not_le] at hout
    exact ⟨crcOverWindow_operand hout _ _, crcOverWindow_operand hout _ _⟩

theorem sumOverWindow_inMem {s : State} (h : s.srcInMem) (cmd : Word) (s0 : Half) : sumOverWindow cmd s0 s =
    .next ((s.setSum (sum16 s.window s0)).setRes0 ((sum16 s.window s0).setWidth 32)) :=
  if_neg (not_not.mpr h)

theorem sumOverWindow_operand {s : State} (h : ¬ s.srcInMem) (cmd : Word) (s0 : Half) :
    sumOverWindow cmd s0 s = raise s cmd .operand :=
  if_pos h

/-- Settles O25: the two answers of the shared operation, from `SUM` and from 0. -/
theorem sumCommandsAddTheSourceWindow : Obligations.SumCommandsAddTheSourceWindow := by
  refine ⟨.of_nFormat rfl (by decide) rfl, .of_nFormat rfl (by decide) rfl, fun s => ?_⟩
  refine ⟨fun hin => ?_, fun hout => ?_⟩
  · exact ⟨sumOverWindow_inMem hin _ _, sumOverWindow_inMem hin _ _⟩
  · rw [← Nat.not_le] at hout
    exact ⟨sumOverWindow_operand hout _ _, sumOverWindow_operand hout _ _⟩

/-! ### Adjacent windows (R134, R138) -/

/-- The source windows of `u` and `v` are the two parts of that of `s`, over one memory. -/
structure State.WindowParts (s u v : State) : Prop where
  memory    : u.mem = s.mem ∧ v.mem = s.mem
  params    : u.cfg = s.cfg ∧ v.cfg = s.cfg
  lengths   : s.x.slen.toNat = u.x.slen.toNat + v.x.slen.toNat
  addresses : u.x.src = s.x.src ∧ v.x.src = s.x.src + u.x.slen

namespace State.WindowParts

variable {s u v : State}

theorem fst_inMem (h : s.WindowParts u v) (hin : s.srcInMem) : u.srcInMem := by
  obtain ⟨-, ⟨hcfg, -⟩, hlen, ⟨hsrc, -⟩⟩ := h
  unfold State.srcInMem at hin ⊢
  rw [hcfg, hsrc]
  omega

/-- The address of the second part does not wrap unless that part is empty. -/
theorem snd_addr (h : s.WindowParts u v) (hin : s.srcInMem) :
    v.x.src.toNat = s.x.src.toNat + u.x.slen.toNat ∨ (v.x.slen.toNat = 0 ∧ v.x.src.toNat = 0) := by
  obtain ⟨-, -, hlen, ⟨-, hsrc⟩⟩ := h
  have hlast := s.cfg.memLast.isLt
  unfold State.srcInMem Config.Params.memBytes at hin
  rw [hsrc, BitVec.toNat_add]
  omega

theorem snd_inMem (h : s.WindowParts u v) (hin : s.srcInMem) : v.srcInMem := by
  have haddr := h.snd_addr hin
  have hlen := h.lengths
  unfold State.srcInMem at hin ⊢
  rw [h.params.2]
  omega

theorem window_eq (h : s.WindowParts u v) (hin : s.srcInMem) : s.window = u.window ++ v.window := by
  have hfst : u.window = s.srcBytes 0 u.x.slen.toNat :=
    srcBytes_congr (srcByte_congr h.addresses.1 h.memory.1) 0 _
  have hsnd : v.window = s.srcBytes (0 + u.x.slen.toNat) v.x.slen.toNat := by
    rcases h.snd_addr hin with haddr | ⟨hlen, -⟩
    · refine List.map_congr_left fun j _ => ?_
      simp only [State.srcByte, h.memory.2, haddr, Nat.zero_add, Nat.add_assoc]
    · rw [State.window, hlen]
      rfl
  rw [hfst, hsnd, ← srcBytes_add, ← h.lengths]
  rfl

end State.WindowParts

/-- Settles O27: the second update folds the rest of the window from where the first one stopped. -/
theorem adjacentUpdatesEqualOneUpdate : Obligations.AdjacentUpdatesEqualOneUpdate := by
  intro s t s1 s2 i n1 n2 hi hlen hin ht h1 h2
  have hwindow : i.writesWindow = false := by rcases hi with rfl | rfl <;> rfl
  have hmem := (memoryIsWrittenOnlyInTheDestinationWindow i _ _ h1).1 hwindow
  have hparts : s.WindowParts { s with x := { s.x with slen := n1 } }
      { s1 with x := { s1.x with src := s.x.src + n1, slen := n2 } } :=
    ⟨⟨rfl, hmem⟩, ⟨rfl, (exec_hostKept h1).cfg⟩, hlen, ⟨rfl, rfl⟩⟩
  rcases hi with rfl | rfl
  · cases (crcOverWindow_inMem hin _ _).symm.trans ht
    cases (crcOverWindow_inMem (hparts.fst_inMem hin) _ _).symm.trans h1
    cases (crcOverWindow_inMem (hparts.snd_inMem hin) _ _).symm.trans h2
    simp [hparts.window_eq hin, crc16_append]
  · cases (sumOverWindow_inMem hin _ _).symm.trans ht
    cases (sumOverWindow_inMem (hparts.fst_inMem hin) _ _).symm.trans h1
    cases (sumOverWindow_inMem (hparts.snd_inMem hin) _ _).symm.trans h2
    simp [hparts.window_eq hin, sum16_append]

/-! ### `SUM32.CHK` (R141) -/

theorem execSum32Chk_agree {s : State} (hin : s.srcInMem) (hop : s.sum32Operands)
    (h : s.sum32Computed = s.sum32Stored) :
    execSum32Chk s = .next (s.setRes01 s.sum32Computed s.sum32Stored) := by
  rw [execSum32Chk, if_neg (not_not.mpr hin), if_neg (not_not.mpr hop), if_neg (not_not.mpr h)]

theorem execSum32Chk_differ {s : State} (hin : s.srcInMem) (hop : s.sum32Operands)
    (h : s.sum32Computed ≠ s.sum32Stored) :
    execSum32Chk s = raise s (faultWord .sum32Chk) (.integrity s.sum32Computed s.sum32Stored) := by
  rw [execSum32Chk, if_neg (not_not.mpr hin), if_neg (not_not.mpr hop), if_pos h]

theorem execSum32Chk_operand {s : State} (h : s.srcInMem → ¬ s.sum32Operands) :
    execSum32Chk s = raise s (faultWord .sum32Chk) .operand := by
  unfold execSum32Chk
  split
  · rfl
  · rw [if_pos (h (not_not.mp ‹_›))]

/-- The stored checksum is the big-endian word at its offset (R10). -/
theorem sum32Stored_toNat (s : State) : s.sum32Stored.toNat = be32 s.srcByte s.x.aux.toNat :=
  Nat.mod_eq_of_lt (be32_lt _ _)

/-- Settles O28: the three answers of the command. -/
theorem sum32ChkComparesTheTwoChecksums : Obligations.Sum32ChkComparesTheTwoChecksums := by
  refine ⟨.of_nFormat rfl (by decide) rfl, fun s computed stored hc hst => ?_⟩
  obtain rfl : computed = s.sum32Computed := hc
  obtain rfl : stored = s.sum32Stored := BitVec.eq_of_toNat_eq (hst.trans (sum32Stored_toNat s).symm)
  refine ⟨fun hin hpos hlen haux hlt => ?_, fun h => execSum32Chk_operand fun hin hop => ?_⟩
  · exact ⟨execSum32Chk_agree hin ⟨hpos, hlen, haux, hlt⟩, execSum32Chk_differ hin ⟨hpos, hlen, haux, hlt⟩⟩
  · obtain ⟨hpos, hlen, haux, hlt⟩ := hop
    rcases h with h | h | h | h | h
    · exact absurd hin (Nat.not_le.mpr h)
    · exact hpos h
    · exact h hlen
    · exact h haux
    · exact absurd hlt (Nat.not_lt.mpr h)

/-! ### The words of a block (R140) -/

/-- The sum of the first `k` big-endian words of `W`, as a number. -/
def blockSum (W : Nat → Byte) (k : Nat) : Nat := ((List.range k).map (fun i => be32 W (4 * i))).sum

/-- The same without word number `q`. -/
def otherWordsSum (W : Nat → Byte) (q k : Nat) : Nat :=
  (((List.range k).filter (fun i => i ≠ q)).map (fun i => be32 W (4 * i))).sum

theorem blockSum_eq (W : Nat → Byte) {q k : Nat} (hq : q < k) :
    blockSum W k = be32 W (4 * q) + otherWordsSum W q k := by
  have herase : (List.range k).erase q = (List.range k).filter (fun i => i ≠ q) := by
    rw [List.nodup_range.erase_eq_filter]
    exact List.filter_congr fun i _ => by rw [bne, beq_eq_decide, decide_not]
  rw [blockSum, otherWordsSum, ← herase, List.sum_map_erase (fun i => be32 W (4 * i)) (List.mem_range.mpr hq)]

theorem otherWordsSum_succ (W : Nat → Byte) (q k : Nat) :
    otherWordsSum W q (k + 1) = otherWordsSum W q k + if k = q then 0 else be32 W (4 * k) := by
  by_cases h : k = q <;> simp [otherWordsSum, List.range_succ, List.filter_append, h]

theorem sumWords_toNat (W : Nat → Byte) (q k : Nat) :
    (sumWords W (4 * q) k).toNat = otherWordsSum W q k % 2 ^ 32 := by
  induction k with
  | zero => rfl
  | succ k ih =>
    rw [sumWords, otherWordsSum_succ]
    by_cases h : k = q
    · rw [if_pos (by rw [h]), if_pos h, ih, Nat.add_zero]
    · rw [if_neg (by omega), if_neg h, BitVec.toNat_add, ih, BitVec.toNat_ofNat, ← Nat.add_mod]

theorem sum32Neg_toNat (W : Nat → Byte) (q k : Nat) :
    (sum32Neg W (4 * k) (4 * q)).toNat = (2 ^ 32 - otherWordsSum W q k % 2 ^ 32) % 2 ^ 32 := by
  rw [sum32Neg, BitVec.toNat_neg, Nat.mul_div_cancel_left k (by decide), sumWords_toNat]

theorem sum32Neg_eq_stored_iff (W : Nat → Byte) {q k : Nat} (hq : q < k) :
    (sum32Neg W (4 * k) (4 * q)).toNat = be32 W (4 * q) ↔ blockSum W k % 2 ^ 32 = 0 := by
  have hword := be32_lt W (4 * q)
  rw [sum32Neg_toNat, blockSum_eq W hq]
  omega

/-- Settles O29: the sum of all words is that of the other words and the stored one. -/
theorem validBlockWordsSumToZero : Obligations.ValidBlockWordsSumToZero := fun W k q hq =>
  ⟨sum32Neg_toNat W q k, sum32Neg_eq_stored_iff W hq⟩

/-! ### A block with one byte changed (R140, R141) -/

/-- A word of four bytes determines them. -/
theorem be32_inj {W V : Nat → Byte} {o : Nat} (h : be32 W o = be32 V o) {j : Nat} (hj : j < 4) :
    W (o + j) = V (o + j) := by
  unfold be32 at h
  apply BitVec.eq_of_toNat_eq
  interval_cases j
  · rw [Nat.add_zero]
    omega
  all_goals omega

/-- No other value of one byte leaves a valid block valid: the other words fix the word it stands in modulo 2^32. -/
theorem blockSum_ne_zero_of_changed_byte {W V : Nat → Byte} {k o : Nat} (ho : o < 4 * k) (hne : V o ≠ W o)
    (hsame : ∀ p, p ≠ o → V p = W p) (hvalid : blockSum W k % 2 ^ 32 = 0) : blockSum V k % 2 ^ 32 ≠ 0 := by
  have hothers : otherWordsSum V (o / 4) k = otherWordsSum W (o / 4) k := by
    refine congrArg List.sum (List.map_congr_left fun i hi => ?_)
    have hi : i ≠ o / 4 := by simpa using (List.mem_filter.mp hi).2
    simp only [be32]
    rw [hsame _ (by omega), hsame _ (by omega), hsame _ (by omega), hsame _ (by omega)]
  have hword : be32 V (4 * (o / 4)) ≠ be32 W (4 * (o / 4)) := by
    intro h
    have hbyte := be32_inj h (Nat.mod_lt o (by decide : 0 < 4))
    rw [Nat.div_add_mod] at hbyte
    exact hne hbyte
  have hV := be32_lt V (4 * (o / 4))
  have hW := be32_lt W (4 * (o / 4))
  rw [blockSum_eq _ (by omega : o / 4 < k)] at hvalid ⊢
  omega

theorem xor_bit_ne (b : Byte) {k : Nat} (hk : k < 8) : b ^^^ (1#8 <<< k) ≠ b := by
  have hbit : ∀ k < 8, 1#8 <<< k ≠ 0#8 := by decide
  exact fun h => hbit k hk ((BitVec.xor_right_inj b).mp (h.trans BitVec.xor_zero.symm))

/-- The checksums of a window of whole words agree exactly when the words sum to 0 (R140). -/
theorem sum32Computed_eq_stored_iff {s : State} (hop : s.sum32Operands) :
    s.sum32Computed = s.sum32Stored ↔ blockSum s.srcByte (s.x.slen.toNat / 4) % 2 ^ 32 = 0 := by
  obtain ⟨-, hlen, haux, hlt⟩ := hop
  obtain ⟨k, hk⟩ := Nat.dvd_of_mod_eq_zero hlen
  obtain ⟨q, hq⟩ := Nat.dvd_of_mod_eq_zero haux
  rw [BitVec.toNat_eq, sum32Stored_toNat, State.sum32Computed, hk, hq, sum32Neg_eq_stored_iff _ (by omega),
    Nat.mul_div_cancel_left k (by decide)]

/-- A valid block with another value in one byte of the window has two different checksums. -/
theorem sum32Computed_ne_stored_of_changed_byte {s t : State} {o : Nat} (hop : s.sum32Operands)
    (hvalid : s.sum32Computed = s.sum32Stored) (ho : o < s.x.slen.toNat)
    (hne : t.srcByte o ≠ s.srcByte o) (hsame : ∀ p, p ≠ o → t.srcByte p = s.srcByte p) (hx : t.x = s.x) :
    t.sum32Computed ≠ t.sum32Stored := by
  have htop : t.sum32Operands := by rwa [State.sum32Operands, hx]
  rw [sum32Computed_eq_stored_iff hop] at hvalid
  rw [Ne, sum32Computed_eq_stored_iff htop, hx]
  obtain ⟨-, hlen, -, -⟩ := hop
  exact blockSum_ne_zero_of_changed_byte (by omega) hne hsame hvalid

theorem srcByte_setMem_write (s : State) (o p : Nat) (b : Byte) :
    (s.setMem (s.mem.write (s.x.src.toNat + o) b)).srcByte p = if p = o then b else s.srcByte p := by
  simp [State.srcByte, Memory.read_write]

/-- Settles O30: the flipped bit gives one byte of the window another value. -/
theorem singleBitFlipIsRejected : Obligations.SingleBitFlipIsRejected := by
  intro s a k hin hlen haux hlt hvalid hlo hhi hk
  obtain ⟨o, rfl⟩ := Nat.exists_eq_add_of_le hlo
  have hpos : s.x.slen ≠ 0#32 := fun h => by simp [h] at hlt
  have hop : s.sum32Operands := ⟨hpos, hlen, haux, hlt⟩
  have hagree : s.sum32Computed = s.sum32Stored := BitVec.eq_of_toNat_eq (hvalid.trans (sum32Stored_toNat s).symm)
  have hbyte := fun p => srcByte_setMem_write s o p (s.srcByte o ^^^ (1#8 <<< k))
  have hne := ((hbyte o).trans (if_pos rfl)).trans_ne (xor_bit_ne _ hk)
  have hsame := fun p (hp : p ≠ o) => (hbyte p).trans (if_neg hp)
  have hdiffer := sum32Computed_ne_stored_of_changed_byte hop hagree (by omega) hne hsame rfl
  exact ⟨_, _, hdiffer, execSum32Chk_differ hin hop hdiffer⟩

end Sys2Proof.Machine

/-!
PROOFS. The statements about the RLE decompressor (spec/42_rle.md): the expansion as the joined outputs of whole
tokens (R152, R155), the three answers of `RLE.EXPAND` (R153), the same expansion token by token (log entry 5), and
that no step leaves an expansion running (R150).
-/

namespace Sys2Proof.Machine

/-! ### The loop over a stream of whole tokens (R152) -/

/-- What the loop appends to the output so far comes from whole tokens that make up its input. -/
theorem rleLoop_sound {D fuel : Nat} {I out res : List Byte} (h : rleLoop D fuel I out = some res) :
    ∃ ts : List RleToken, (∀ t ∈ ts, t.wf = true) ∧ I = ts.flatMap RleToken.bytes ∧
      res = out ++ ts.flatMap tokenOutput := by
  fun_induction rleLoop D fuel I out with
  | case1 fuel out hlen =>
    cases h
    exact ⟨[], by simp⟩
  | case2 fuel out hlen => cases h
  | case3 b r out => cases h
  | case4 fuel b r out e hd => cases h
  | case5 fuel b r out t rest hd hemit => cases h
  | case6 fuel b r out t rest hd out' hemit ih =>
    obtain ⟨-, rfl⟩ := rleEmit_eq_some.mp hemit
    obtain ⟨hwf, hbytes⟩ := decodeToken_sound hd
    obtain ⟨ts, hts, rfl, rfl⟩ := ih h
    exact ⟨t :: ts, List.forall_mem_cons.mpr ⟨hwf, hts⟩, hbytes, List.append_assoc _ _ _⟩

/-- The loop takes whole tokens one by one while the declared length has room for all of them. -/
theorem rleLoop_complete {D fuel : Nat} {out : List Byte} {ts : List RleToken} (hwf : ∀ t ∈ ts, t.wf = true)
    (hfuel : (ts.flatMap RleToken.bytes).length ≤ fuel) (hD : (out ++ ts.flatMap tokenOutput).length = D) :
    rleLoop D fuel (ts.flatMap RleToken.bytes) out = some (out ++ ts.flatMap tokenOutput) := by
  induction ts generalizing fuel out with
  | nil =>
    rw [List.flatMap_nil, List.append_nil] at hD
    rw [List.flatMap_nil, List.flatMap_nil, rleLoop_nil, List.append_nil, if_pos hD]
  | cons t ts ih =>
    obtain ⟨ht, hts⟩ := List.forall_mem_cons.mp hwf
    rw [List.flatMap_cons, List.length_append] at hfuel
    rw [List.flatMap_cons, ← List.append_assoc] at hD
    have hpos := List.length_pos_iff.mpr (bytes_ne_nil t)
    obtain ⟨fuel, rfl⟩ := Nat.exists_eq_succ_of_ne_zero (show fuel ≠ 0 by omega)
    have hroom : out.length + tokenCount t ≤ D := by
      simp only [List.length_append, tokenOutput_length] at hD
      omega
    rw [List.flatMap_cons, List.flatMap_cons, ← List.append_assoc, rleLoop_token (decodeToken_bytes_append t _ ht),
      if_pos hroom]
    exact ih hts (by omega) hD

/-- Settles O33: the loop is sound and complete for streams of whole tokens, from an empty output. -/
theorem expansionIsTheJoinedTokenOutputs : Obligations.ExpansionIsTheJoinedTokenOutputs := by
  intro I out D
  constructor
  · intro h
    obtain ⟨ts, hwf, hI, hout⟩ := rleLoop_sound h
    exact ⟨ts, hwf, hI, hout, rleExpand_length h⟩
  · rintro ⟨ts, hwf, rfl, rfl, hD⟩
    exact rleLoop_complete (out := []) hwf le_rfl hD

/-! ### The answers of `RLE.EXPAND` (R153) -/

/-- What `RLE.EXPAND` with legal windows answers to the result of its expansion. -/
def rleOutcome (s : State) : Option (List Byte) → Answer
  | none => raiseInWindow s (faultWord .rleExpand) .structural
  | some out => .next ((s.setMem (s.mem.writeList s.x.dst.toNat out)).setRes0 s.x.dlen)

theorem execRleExpand_windowsOk {s : State} (h : s.windowsOk) :
    execRleExpand s = rleOutcome s (rleExpand s.window s.x.dlen.toNat) := by
  rw [execRleExpand, if_neg (not_not.mpr h)]
  cases rleExpand s.window s.x.dlen.toNat <;> rfl

theorem execRleExpand_operand {s : State} (h : ¬ s.windowsOk) :
    execRleExpand s = raise s (faultWord .rleExpand) .operand := if_pos h

/-- Neither result stops the machine. -/
theorem rleOutcome_next (s : State) (res : Option (List Byte)) : ∃ t, rleOutcome s res = .next t := by
  cases res with
  | none =>
    obtain ⟨m, k, h, -⟩ := raiseInWindow_spec s (faultWord .rleExpand) .structural
    exact ⟨_, h⟩
  | some out => exact ⟨_, rfl⟩

/-- The StructuralError of an expansion: the latch, and bytes of the destination window only (R73, R240). -/
theorem rleOutcome_none (s : State) : ∃ (m : Memory) (k : Nat),
    rleOutcome s none = .next { s with mem := m, freeCount := k, err :=
      { code := 1#4, cmd := 0x00000040#32, got := 0#32, exp := 0#32 } } ∧
    ∀ a : Nat, ¬ (s.x.dst.toNat ≤ a ∧ a < s.x.dst.toNat + s.x.dlen.toNat) → m.read a = s.mem.read a := by
  obtain ⟨m, k, h, hout, -⟩ := raiseInWindow_spec s (faultWord .rleExpand) .structural
  exact ⟨m, k, h, hout⟩

/-- Settles O34: the expansion succeeds, and the law of a read after a list of writes. -/
theorem rleExpandWritesTheExpansion : Obligations.RleExpandWritesTheExpansion := by
  intro s ts hs hd hapart hwf hwindow hlen
  have hexpand : rleExpand s.window s.x.dlen.toNat = some (ts.flatMap tokenOutput) :=
    (expansionIsTheJoinedTokenOutputs _ _ _).mpr ⟨ts, hwf, hwindow, rfl, hlen⟩
  refine ⟨s.mem.writeList s.x.dst.toNat (ts.flatMap tokenOutput), ?_, fun j hj => ?_, ?_⟩
  · have hexec := execRleExpand_windowsOk ⟨hs, hd, hapart⟩
    rw [hexpand] at hexec
    exact hexec
  · rw [Memory.read_writeList, if_pos (by omega), Nat.add_sub_cancel_left]
  · exact writeList_keptOutsideWindow hlen.le

/-- Settles O35: windows that are not legal, and an expansion that no stream of whole tokens explains. -/
theorem rleExpandFaults : Obligations.RleExpandFaults := by
  refine fun s => ⟨fun h => execRleExpand_operand ?_, fun hs hd hapart hno => ?_⟩
  · rintro ⟨hs, hd, hapart⟩
    rcases h with h | h | h
    · exact absurd hs (Nat.not_le.mpr h)
    · exact absurd hd (Nat.not_le.mpr h)
    · exact hapart h
  · have hexec := execRleExpand_windowsOk ⟨hs, hd, hapart⟩
    cases hexpand : rleExpand s.window s.x.dlen.toNat with
    | none =>
      rw [hexpand] at hexec
      obtain ⟨m, k, h, hout⟩ := rleOutcome_none s
      exact ⟨m, k, hexec.trans h, hout⟩
    | some out =>
      obtain ⟨ts, hwf, hI, rfl, hlen⟩ := (expansionIsTheJoinedTokenOutputs _ _ _).mp hexpand
      exact absurd hlen (hno ts hwf hI)

/-! ### A running expansion (R152, log entry 5) -/

theorem rleStep_token {r : RleRun} {s : State} {t : RleToken} {rest : List Byte}
    (h : decodeToken r.input = .ok (t, rest)) :
    rleStep r s = execToken t (s.setRle (some { r with input := rest })) := by
  rw [← exec_token]
  unfold rleStep
  split
  next hnil =>
    rw [hnil] at h
    cases h
  next b l hcons => rw [← hcons, h]

theorem rleStep_cut {r : RleRun} {s : State} {e : DecodeError} (hI : r.input ≠ [])
    (h : decodeToken r.input = .error e) : rleStep r s = rleAbort s := by
  unfold rleStep
  split
  next hnil => exact absurd hnil hI
  next b l hcons => rw [← hcons, h]

/-- Settles O7: the decoder takes the bytes of the token off the input. -/
theorem stepRunsTheNextToken : Obligations.StepRunsTheNextToken := by
  intro s r t rest hr hwf hI
  have hd := decodeToken_bytes_append t rest hwf
  rw [← hI] at hd
  rw [step_running hr, rleStep_token hd, exec_token]
  rfl

/-- A StructuralError ends a running expansion as it ends `RLE.EXPAND`. -/
theorem rleAbort_dstInMem {s : State} (h : s.dstInMem) : rleAbort s = rleOutcome (s.setRle none) none := if_pos h

theorem execToken_past {s : State} {t : RleToken} (h : s.x.dlen.toNat < s.rleCurrent.out.length + tokenCount t) :
    execToken t s = rleAbort s := by
  rw [execToken, rleEmit_eq_none.mpr h]

/-- Settles O32: the token ends the expansion with the StructuralError of `RLE.EXPAND`. -/
theorem tokenPastTheDeclaredLengthIsStructural : Obligations.TokenPastTheDeclaredLengthIsStructural := by
  intro s t hd hpast
  rw [tokenOutput_length] at hpast
  rw [exec_token, execToken_past hpast, rleAbort_dstInMem hd]
  exact rleOutcome_none (s.setRle none)

theorem rleFinish_short {r : RleRun} {s : State} (h : r.out.length ≠ s.x.dlen.toNat) : rleFinish r s = rleAbort s :=
  if_pos h

/-- An output of the declared length is written as `RLE.EXPAND` writes it. -/
theorem rleFinish_whole {r : RleRun} {s : State} (hd : s.dstInMem) (h : r.out.length = s.x.dlen.toNat) :
    rleFinish r s = rleOutcome (s.setRle none) (some r.out) := by
  rw [rleFinish, if_neg (not_not.mpr h), if_neg (not_not.mpr hd)]
  rfl

theorem run_one (M : Host.Core) (s : M.State) : M.run 1 s = M.step s := by
  rw [Host.Core.run]
  cases M.step s <;> rfl

theorem run_one_running {s : State} {r : RleRun} (h : s.rle = some r) : Sys2Proof.core.run 1 s = rleStep r s :=
  (run_one Sys2Proof.core s).trans (step_running h)

/-- Token steps follow the loop: each pass of the loop is one step, and so is its end. -/
theorem run_eq_rleOutcome_rleLoop {D fuel : Nat} {I out : List Byte} {s : State} (hfuel : I.length ≤ fuel)
    (hr : s.rle = some { input := I, out := out }) (hD : s.x.dlen.toNat = D) (hd : s.dstInMem) :
    ∃ k : Nat, Sys2Proof.core.run k s = rleOutcome (s.setRle none) (rleLoop D fuel I out) := by
  fun_induction rleLoop D fuel I out generalizing s with
  | case1 fuel out hlen => exact ⟨1, (run_one_running hr).trans (rleFinish_whole hd (hlen.trans hD.symm))⟩
  | case2 fuel out hlen =>
    rw [← hD] at hlen
    exact ⟨1, (run_one_running hr).trans ((rleFinish_short hlen).trans (rleAbort_dstInMem hd))⟩
  | case3 b r out => cases hfuel
  | case4 fuel b r out e hdec =>
    have hcut := rleStep_cut (r := { input := b :: r, out := out }) (s := s) (List.cons_ne_nil b r) hdec
    exact ⟨1, (run_one_running hr).trans (hcut.trans (rleAbort_dstInMem hd))⟩
  | case5 fuel b r out t rest hdec hemit =>
    have hpast : execToken t (s.setRle (some { input := rest, out := out })) = rleAbort _ :=
      execToken_past (hD.trans_lt (rleEmit_eq_none.mp hemit))
    exact ⟨1, (run_one_running hr).trans ((rleStep_token hdec).trans (hpast.trans (rleAbort_dstInMem hd)))⟩
  | case6 fuel b r out t rest hdec out' hemit ih =>
    obtain ⟨hroom, rfl⟩ := rleEmit_eq_some.mp hemit
    have hfits : execToken t (s.setRle (some { input := rest, out := out })) = _ :=
      execToken_fits t rfl (hroom.trans_eq hD.symm)
    have hstep := (step_running hr).trans ((rleStep_token hdec).trans hfits)
    have hrest : rest.length ≤ fuel := Nat.le_of_lt_succ ((decodeToken_shorter hdec).trans_le hfuel)
    obtain ⟨k, hk⟩ := ih (s := s.setRle (some { input := rest, out := out ++ tokenOutput t })) hrest rfl hD hd
    exact ⟨k + 1, (run_next k hstep).trans hk⟩

/-- Settles O36: the run follows the loop that `RLE.EXPAND` computes in one step. -/
theorem tokenByTokenRunEqualsRleExpand : Obligations.TokenByTokenRunEqualsRleExpand := by
  intro s hq hs hd hapart
  obtain ⟨t, ht⟩ := rleOutcome_next s (rleExpand s.window s.x.dlen.toNat)
  obtain ⟨k, hk⟩ := run_eq_rleOutcome_rleLoop (s := s.setRle (some { input := s.window, out := [] })) le_rfl rfl rfl hd
  have hquiet : (s.setRle (some { input := s.window, out := [] })).setRle none = s := congrArg s.setRle hq.symm
  rw [hquiet] at hk
  exact ⟨k, t, (execRleExpand_windowsOk ⟨hs, hd, hapart⟩).trans ht, hk.trans ht⟩

/-! ### No expansion is left running (R150) -/

theorem raiseInWindow_rle {s t : State} {cmd : Word} {c : Cause} (h : raiseInWindow s cmd c = .next t) :
    t.rle = s.rle := by
  obtain ⟨m, k, he, -⟩ := raiseInWindow_spec s cmd c
  cases he.symm.trans h
  rfl

/-- Only the tokens touch the running expansion. -/
theorem exec_command_rle {i : Instr} {w : Word} {s t : State} (hi : encode i = .command w) (h : exec i s = .next t) :
    t.rle = s.rle := by
  cases i with
  | rleExpand =>
    rcases execRleExpand_cases h with ⟨-, rfl⟩ | ⟨-, -, h⟩ | ⟨-, out, -, rfl⟩
    · rfl
    · exact raiseInWindow_rle h
    · rfl
  | dmsUnpack verify =>
    rcases execDmsUnpack_cases h with rfl | ⟨-, c, -, h⟩ | ⟨-, r, out, -, -, -, rfl⟩
    · rfl
    · exact raiseInWindow_rle h
    · rfl
  | rleLit | rleEsc90 | rleRun8 | rleRun16 => cases hi
  | brBind o => rcases execBrBind_cases h with rfl | ⟨-, -, rfl⟩ <;> rfl
  | brRdu n => rcases brRead_cases h with ⟨c, -, rfl⟩ | ⟨-, -, rfl⟩ <;> rfl
  | brRds n => rcases brRead_cases h with ⟨c, -, rfl⟩ | ⟨-, -, rfl⟩ <;> rfl
  | crcInit => cases h; rfl
  | crcUpd => rcases crcOverWindow_cases h with ⟨-, rfl⟩ | ⟨-, rfl⟩ <;> rfl
  | crcRun => rcases crcOverWindow_cases h with ⟨-, rfl⟩ | ⟨-, rfl⟩ <;> rfl
  | sumInit => cases h; rfl
  | sumUpd => rcases sumOverWindow_cases h with ⟨-, rfl⟩ | ⟨-, rfl⟩ <;> rfl
  | sumRun => rcases sumOverWindow_cases h with ⟨-, rfl⟩ | ⟨-, rfl⟩ <;> rfl
  | sum32Chk => rcases execSum32Chk_cases h with ⟨c, rfl, -⟩ | ⟨-, -, -, rfl⟩ <;> rfl
  | dmsOpen => rcases execDmsOpen_cases h with ⟨c, -, rfl⟩ | ⟨-, -, -, rfl⟩ <;> rfl
  | dmsTrack => rcases execDmsTrack_cases h with ⟨c, -, rfl⟩ | ⟨-, -, rfl⟩ | ⟨-, r, -, rfl⟩ <;> rfl
  | lzhParse => rcases execLzhParse_cases h with ⟨c, -, rfl⟩ | ⟨-, r, -, rfl⟩ <;> rfl
  | lzhExt => rcases execLzhExt_cases h with ⟨c, -, rfl⟩ | ⟨tag, off, len, rfl⟩ <;> rfl
  | lzhCrc => rcases execLzhCrc_cases h with ⟨c, -, rfl⟩ | ⟨-, -, -, rfl⟩ <;> rfl
  | errClr => cases h; rfl

/-- A command word never decodes to a token. -/
theorem issue_rle {w : Word} {s t : State} (h : issue w s = .next t) : t.rle = s.rle := by
  rcases issue_cases h with rfl | rfl | ⟨i, hdec, h⟩
  · rfl
  · rfl
  · obtain ⟨v, hv⟩ := decodeWord_isCommand hdec
    exact exec_command_rle hv h

theorem hostAct_quiet {a : HostAction} {s t : State} (hq : s.rle = none) (h : hostAct a s = .next t) :
    t.rle = none := by
  rcases hostAct_cases h with ⟨r, rfl⟩ | ⟨w, -, h⟩ | ⟨num, v, rfl⟩ | ⟨addr, b, -, rfl⟩ | rfl
  · exact hq
  · exact (issue_rle h).trans hq
  · obtain ⟨-, -, -, -, -, -, hrle, -⟩ := regWrite_keeps s num v
    exact hrle.trans hq
  · exact hq
  · rfl

/-- Settles O37: a step of a quiet state is nothing or one host action. -/
theorem decompressorHoldsNoStateBetweenCommands : Obligations.DecompressorHoldsNoStateBetweenCommands := by
  intro s t hq h
  rw [step_quiet hq] at h
  cases hs : s.script with
  | nil =>
    rw [scriptStep_nil hs] at h
    cases h
    exact hq
  | cons a rest =>
    rw [scriptStep_cons hs] at h
    exact hostAct_quiet (s := s.setScript rest) hq h

end Sys2Proof.Machine

/-!
PROOFS. The statements about the DMS track unpacker (spec/43_dms_track.md): the check of the file header (R166), the
record found and the scan over the records (R168 to R170, R174), and the answers of `DMS.UNPACK` in the order of its
checks (R171, R172, R175).
-/

namespace Sys2Proof.Machine

/-! ### `DMS.OPEN` (R101, R166) -/

theorem srcBytes_four_eq_magic_iff (s : State) : s.srcBytes 0 4 = [0x44#8, 0x4D#8, 0x53#8, 0x21#8] ↔ s.dmsMagic := by
  simp [State.srcBytes, List.range_succ, State.dmsMagic]

theorem execDmsOpen_header {s : State} (hs : s.srcInMem) (hlen : Config.dmsMinLen ≤ s.x.slen.toNat)
    (hmagic : s.dmsMagic) : execDmsOpen s = .next (s.setRes0 (BitVec.ofNat 32 Config.dmsFileHdr)) := by
  rw [execDmsOpen, if_neg (not_not.mpr hs), if_neg (Nat.not_lt.mpr hlen), if_neg (not_not.mpr hmagic)]

theorem execDmsOpen_structural {s : State} (hs : s.srcInMem) (h : s.x.slen.toNat < Config.dmsMinLen ∨ ¬ s.dmsMagic) :
    execDmsOpen s = raise s (faultWord .dmsOpen) .structural := by
  rw [execDmsOpen, if_neg (not_not.mpr hs)]
  split
  · rfl
  · exact if_pos (h.resolve_left ‹_›)

/-- Settles O38: one word of the opcode map, and the three answers of the command. -/
theorem dmsOpenChecksLengthAndMagic : Obligations.DmsOpenChecksLengthAndMagic := by
  refine ⟨.of_nFormat rfl (by decide) rfl, fun s => ⟨fun hs => if_pos (Nat.not_le.mpr hs), fun hs => ?_⟩⟩
  rw [Ne, srcBytes_four_eq_magic_iff]
  exact ⟨execDmsOpen_header hs, execDmsOpen_structural hs⟩

/-! ### The record at `x[4]` (R168, R169) -/

theorem toNat_ofNat_be16 (B : Nat → Byte) (o : Nat) : (BitVec.ofNat 16 (be16 B o)).toNat = be16 B o :=
  Nat.mod_eq_of_lt (be16_lt B o)

theorem sext16_toInt (v : Half) : (sext16 v).toInt = v.toInt := BitVec.toInt_signExtend_of_le (by decide)

theorem trackHere_eq_some {s : State} {t : Track} : s.trackHere = .ok (some t) ↔
    s.srcByte s.x.aux.toNat = 0x54#8 ∧ s.srcByte (s.x.aux.toNat + 1) = 0x52#8 ∧
      s.x.aux.toNat + s.cfg.payloadOff + be16 s.srcByte (s.x.aux.toNat + 6) ≤ s.x.slen.toNat ∧
      t = trackAt s.srcByte s.x.aux.toNat (s.x.aux.toNat + s.cfg.payloadOff)
        (s.x.aux.toNat + s.cfg.payloadOff + be16 s.srcByte (s.x.aux.toNat + 6)) := by
  obtain ⟨hoff, -⟩ := payloadOff_range s.cfg
  exact parseTrack_eq_some (le_trans (by decide) hoff)

/-! ### `DMS.TRACK` on a whole record (R170, R174) -/

theorem execDmsTrack_found {s : State} {t : Track} (hs : s.srcInMem) (h : s.trackHere = .ok (some t)) :
    execDmsTrack s = .next ((s.setTrk t).setRes012 1#32 t.next t.pay) := by
  rw [execDmsTrack, if_neg (not_not.mpr hs), h]

/-- Settles O39: the 16-bit fields lose no bit, and neither do the two offsets of a record inside its window. -/
theorem dmsTrackLatchesTheRecord : Obligations.DmsTrackLatchesTheRecord := by
  intro s hs h0 h1 hlen
  have ht := trackHere_eq_some.mpr ⟨h0, h1, hlen, rfl⟩
  obtain ⟨hpay, hnext, -⟩ := trackHere_some ht
  have hpklen := toNat_ofNat_be16 s.srcByte (s.x.aux.toNat + 6)
  refine ⟨trackAt _ _ _ _, execDmsTrack_found hs ht, rfl, sext16_toInt _, hpklen, toNat_ofNat_be16 _ _,
    toNat_ofNat_be16 _ _, rfl, rfl, toNat_ofNat_be16 _ _, toNat_ofNat_be16 _ _, toNat_ofNat_be16 _ _, hpay, ?_⟩
  exact hnext.trans (congrArg₂ (· + ·) hpay hpklen)

/-- Settles O44: of the three things `DMS.TRACK` can do only the third reports a record, and its payload starts at
least 20 bytes on. -/
theorem trackScanMovesForwardInsideTheFile : Obligations.TrackScanMovesForwardInsideTheFile := by
  intro s t _ hx hcode hres
  rcases execDmsTrack_cases hx with ⟨c, -, rfl⟩ | ⟨-, -, rfl⟩ | ⟨-, r, hr, rfl⟩
  · exact absurd hcode c.code_ne_zero
  · exact absurd hres (by simp)
  · obtain ⟨hpay, hnext, hin, -⟩ := trackHere_some hr
    obtain ⟨hoff, -⟩ := payloadOff_range s.cfg
    simp only [State.setRes012_x]
    omega

/-! ### The unpacking (R171, R175) -/

section
variable {t : Track} {p : List Byte} {verify : Bool}

theorem unpackPlain_stored (hm : t.mode = 0#8) : unpackPlain t p = .ok p := if_pos hm

theorem unpackPlain_expanded {out : List Byte} (hm : t.mode = 1#8) (h : rleExpand p t.ulenB.toNat = some out) :
    unpackPlain t p = .ok out := by
  rw [unpackPlain, hm, if_neg (by decide), if_pos rfl, h]

theorem unpackPlain_badStream (hm : t.mode = 1#8) (h : rleExpand p t.ulenB.toNat = none) :
    unpackPlain t p = .error .structural := by
  rw [unpackPlain, hm, if_neg (by decide), if_pos rfl, h]

theorem unpackPlain_unknownMode (h0 : t.mode ≠ 0#8) (h1 : t.mode ≠ 1#8) : unpackPlain t p = .error .unsupported := by
  rw [unpackPlain, if_neg h0, if_neg h1]

theorem unpack_wrongCrc (hc : crc16 p Config.crcInit ≠ t.dcrc) : unpack t p true =
    .error (.integrity ((crc16 p Config.crcInit).setWidth 32) (t.dcrc.setWidth 32)) := by
  rw [unpack, if_pos rfl, if_pos hc]

variable (hc : verify = true → crc16 p Config.crcInit = t.dcrc)
include hc

theorem unpack_plainError {c : Cause} (h : unpackPlain t p = .error c) : unpack t p verify = .error c := by
  cases verify with
  | false => exact h
  | true => rw [unpack, if_pos rfl, if_neg (not_not.mpr (hc rfl)), h]

theorem unpack_wrongSum {out : List Byte} (hv : verify = true) (h : unpackPlain t p = .ok out)
    (hsum : sum16 out 0#16 ≠ t.usum) : unpack t p verify =
      .error (.integrity ((sum16 out 0#16).setWidth 32) (t.usum.setWidth 32)) := by
  rw [unpack, if_pos hv, if_neg (not_not.mpr (hc hv)), h]
  exact if_pos hsum

theorem unpack_delivers {out : List Byte} (h : unpackPlain t p = .ok out)
    (hsum : verify = true → sum16 out 0#16 = t.usum) : unpack t p verify = .ok out := by
  cases verify with
  | false => exact h
  | true =>
    rw [unpack, if_pos rfl, if_neg (not_not.mpr (hc rfl)), h]
    exact if_neg (not_not.mpr (hsum rfl))

end

/-! ### The answers of `DMS.UNPACK` (R172, R73) -/

theorem faultWord_dmsUnpack (verify : Bool) :
    faultWord (.dmsUnpack verify) = if verify then 0x00000152#32 else 0x00000052#32 := by
  cases verify <;> rfl

theorem not_windowsOk_iff {s : State} : ¬ s.windowsOk ↔ s.cfg.memBytes < s.x.src.toNat + s.x.slen.toNat ∨
    s.cfg.memBytes < s.x.dst.toNat + s.x.dlen.toNat ∨ s.windowsOverlap := by
  rw [not_and_or, not_and_or, not_not, Nat.not_le, Nat.not_le]

section
variable {s : State} {verify : Bool}

theorem execDmsUnpack_operand (h : ¬ s.windowsOk) :
    execDmsUnpack verify s = raise s (faultWord (.dmsUnpack verify)) .operand := if_pos h

variable (hw : s.windowsOk)
include hw

theorem execDmsUnpack_noRecord (h : ∀ t, s.trackHere ≠ .ok (some t)) :
    execDmsUnpack verify s = raiseInWindow s (faultWord (.dmsUnpack verify)) .structural := by
  rw [execDmsUnpack, if_neg (not_not.mpr hw)]
  cases ht : s.trackHere with
  | error c => rw [parseTrack_error ht]
  | ok o =>
    cases o with
    | none => rfl
    | some t => exact absurd ht (h t)

variable {t : Track} (ht : s.trackHere = .ok (some t))
include ht

theorem execDmsUnpack_tooSmall (h : s.x.dlen.toNat < unpackLength t) :
    execDmsUnpack verify s = raise s (faultWord (.dmsUnpack verify)) .operand := by
  rw [execDmsUnpack, if_neg (not_not.mpr hw), ht]
  exact if_pos h

variable (hroom : unpackLength t ≤ s.x.dlen.toNat)
include hroom

theorem execDmsUnpack_error {c : Cause} (h : unpack t (s.payloadOf t) verify = .error c) :
    execDmsUnpack verify s = raiseInWindow s (faultWord (.dmsUnpack verify)) c := by
  simp only [execDmsUnpack, if_neg (not_not.mpr hw), ht, if_neg (Nat.not_lt.mpr hroom), h]

theorem execDmsUnpack_ok {out : List Byte} (h : unpack t (s.payloadOf t) verify = .ok out) :
    execDmsUnpack verify s = .next (((s.setMem (s.mem.writeList s.x.dst.toNat out)).setTrk t).setRes012
      (BitVec.ofNat 32 out.length) t.next t.pay) := by
  simp only [execDmsUnpack, if_neg (not_not.mpr hw), ht, if_neg (Nat.not_lt.mpr hroom), h]

/-- The command goes on whatever the unpacking gives, and latches the error if it gives one. -/
theorem execDmsUnpack_latches : ∃ u : State, execDmsUnpack verify s = .next u ∧
    ∀ c, unpack t (s.payloadOf t) verify = .error c → u.err = c.latch (faultWord (.dmsUnpack verify)) := by
  cases h : unpack t (s.payloadOf t) verify with
  | ok out => exact ⟨_, execDmsUnpack_ok hw ht hroom h, nofun⟩
  | error c =>
    obtain ⟨m, k, hr, -⟩ := raiseInWindow_spec s (faultWord (.dmsUnpack verify)) c
    refine ⟨_, (execDmsUnpack_error hw ht hroom h).trans hr, ?_⟩
    rintro _ ⟨⟩
    rfl

end

/-- Settles O43: the windows, then the record, then the capacity. -/
theorem dmsUnpackEarlyFaults : Obligations.DmsUnpackEarlyFaults := by
  rintro s verify _ rfl
  rw [← faultWord_dmsUnpack]
  refine ⟨fun h => execDmsUnpack_operand (not_windowsOk_iff.mpr h), fun hs hd hapart => ⟨fun h => ?_, fun t ht h => ?_⟩⟩
  · have hnone : ∀ t, s.trackHere ≠ .ok (some t) := by
      intro t ht
      obtain ⟨h0, h1, hlen, -⟩ := trackHere_eq_some.mp ht
      obtain ⟨hoff, -⟩ := payloadOff_range s.cfg
      rcases h with h | h | h | h
      · omega
      · exact h h0
      · exact h h1
      · exact absurd hlen (Nat.not_le.mpr h)
    obtain ⟨m, k, hr, hout, -⟩ := raiseInWindow_spec s (faultWord (.dmsUnpack verify)) .structural
    exact ⟨m, k, (execDmsUnpack_noRecord ⟨hs, hd, hapart⟩ hnone).trans hr, hout⟩
  · exact execDmsUnpack_tooSmall ⟨hs, hd, hapart⟩ ht h

/-- Settles O42: each clause names the error of the unpacking, and the command latches it. -/
theorem dmsUnpackFaultOrder : Obligations.DmsUnpackFaultOrder := by
  rintro s verify t _ rfl hs hd hapart ht hroom
  rw [← faultWord_dmsUnpack]
  obtain ⟨u, hu, hlatch⟩ := execDmsUnpack_latches (verify := verify) ⟨hs, hd, hapart⟩ ht hroom
  refine ⟨u, hu, fun hv hcrc => ?_, fun hcrc => ⟨fun h0 h1 => ?_, fun h1 hbad => ?_, fun out hv hplain hsum => ?_⟩⟩
  · subst hv
    exact hlatch _ (unpack_wrongCrc hcrc)
  · exact hlatch _ (unpack_plainError hcrc (unpackPlain_unknownMode h0 h1))
  · exact hlatch _ (unpack_plainError hcrc (unpackPlain_badStream h1 hbad))
  · exact hlatch _ (unpack_wrongSum hcrc hv hplain hsum)

/-- Settles O41: the output of a stored or a soundly packed record passes the checks, fits, and is written. -/
theorem dmsUnpackDeliversTheTrack : Obligations.DmsUnpackDeliversTheTrack := by
  intro s verify t out hs hd hapart ht hmode hfits hcheck
  have hplain : unpackPlain t (s.payloadOf t) = .ok out := by
    rcases hmode with ⟨hm, rfl⟩ | ⟨hm, hstream⟩
    · exact unpackPlain_stored hm
    · exact unpackPlain_expanded hm ((expansionIsTheJoinedTokenOutputs _ _ _).mpr hstream)
  have hunpack : unpack t (s.payloadOf t) verify = .ok out :=
    unpack_delivers (fun hv => (hcheck hv).1) hplain (fun hv => (hcheck hv).2)
  have hroom : unpackLength t ≤ s.x.dlen.toNat := (unpack_length hunpack).ge.trans hfits
  refine ⟨_, _, ?_, execDmsUnpack_ok ⟨hs, hd, hapart⟩ ht hroom hunpack, fun j hj => ?_, fun a ha => ?_⟩
  · exact Nat.mod_eq_of_lt (hfits.trans_lt s.x.dlen.isLt)
  · rw [State.setTrk_mem, State.setMem_mem, Memory.read_writeList, if_pos (by omega), Nat.add_sub_cancel_left]
  · rw [State.setTrk_mem, State.setMem_mem, Memory.read_writeList, if_neg ha]

end Sys2Proof.Machine

/-!
PROOFS. The statements about the LZH entry pipeline (spec/44_lzh_entry.md): a whole entry at each level and what its
registers hold (R193 to R204), the walk over the chain of a parsed entry (R205), and the CRC of its payload (R206).
-/

namespace Sys2Proof.Machine

/-! ### What the registers of a parsed header hold (R32, R204) -/

/-- `LZH_FLAGS` as a number (R32, R204). -/
theorem lzhFlags_toNat (dir name hcrc : Bool) :
    (lzhFlags dir name hcrc).toNat = 4 * dir.toNat + 2 * name.toNat + hcrc.toNat := by
  revert dir name hcrc
  decide

/-- The recorded name and directory lie in a buffer of `len` bytes; an absent one is the slice (0, 0) (R198, R204). -/
def Chain.SlicesInside (len : Nat) (c : Chain) : Prop :=
  (c.name.getD (0, 0)).1 + (c.name.getD (0, 0)).2 ≤ len ∧ (c.dir.getD (0, 0)).1 + (c.dir.getD (0, 0)).2 ≤ len

/-- The values of R204 for the header `hd` of the entry at `e` with level byte `level`, as exact numbers. -/
def headerValues (e level : Nat) (hd : Header) : EntryValues :=
  { level := level, hdrlen := hd.hdr, packed := hd.packed, pay := e + hd.hdr, last := e + hd.hdr + hd.packed,
    ucrc := hd.ucrc, hcrc := hd.chain.hcrc.getD 0,
    flags := 4 * hd.chain.dir.isSome.toNat + 2 * hd.chain.name.isSome.toNat + hd.chain.hcrc.isSome.toNat,
    nameOff := (hd.chain.name.getD (0, 0)).1, nameLen := (hd.chain.name.getD (0, 0)).2,
    dirOff := (hd.chain.dir.getD (0, 0)).1, dirLen := (hd.chain.dir.getD (0, 0)).2,
    extCnt := hd.chain.cnt, extBytes := hd.chain.ext, ext0 := hd.chain.firstOff, fwd0 := hd.chain.firstFwd }

section
variable {B : Nat → Byte} {len X e : Nat} {hd : Header} (ok : hd.Ok B len X e) (hlen : len < 2 ^ 32)
  (hin : e + hd.hdr + hd.packed ≤ len)
include hlen hin

/-- The offsets and lengths of an entry in a 32-bit window lose no bit. -/
theorem entryOf_extent_toNat (level : Byte) :
    (entryOf e level hd).hdrlen.toNat = hd.hdr ∧ (entryOf e level hd).packed.toNat = hd.packed ∧
      (entryOf e level hd).pay.toNat = e + hd.hdr ∧ (entryOf e level hd).last.toNat = e + hd.hdr + hd.packed := by
  simp only [entryOf, BitVec.toNat_ofNat]
  omega

include ok

/-- Nor does what is latched of the chain, by which `LZH.EXT` finds it again (R205). -/
theorem entryOf_chain_toNat :
    (entryOf e (B (e + 20)) hd).level.toNat = (B (e + 20)).toNat ∧
      (entryOf e (B (e + 20)) hd).extCnt.toNat = hd.chain.cnt ∧
      (entryOf e (B (e + 20)) hd).extBytes.toNat = hd.chain.ext ∧
      (entryOf e (B (e + 20)) hd).ext0.toNat = hd.chain.firstOff ∧
      (entryOf e (B (e + 20)) hd).fwd0.toNat = hd.chain.firstFwd := by
  have hlevel := ok.level
  have hext := ok.chainIn
  have hcnt := ok.blocks
  have hfirst : hd.chain.firstOff ≤ len ∧ hd.chain.firstFwd ≤ len := by
    by_cases h : hd.chain.cnt = 0
    · obtain ⟨-, hoff, hfwd⟩ := ok.noChain h
      omega
    · have := ok.first h
      omega
  simp only [entryOf, BitVec.toNat_ofNat, BitVec.toNat_setWidth]
  omega

/-- The registers of a checked header hold its values. -/
theorem entryOf_values (hslices : hd.chain.SlicesInside len) :
    (entryOf e (B (e + 20)) hd).values = headerValues e (B (e + 20)).toNat hd := by
  obtain ⟨hhdr, hpacked, hpay, hlast⟩ := entryOf_extent_toNat hlen hin (B (e + 20))
  obtain ⟨hlevel, hcnt, hext, hoff, hfwd⟩ := entryOf_chain_toNat ok hlen hin
  obtain ⟨hname, hdir⟩ := hslices
  have hucrc := ok.ucrc
  have hhcrc : hd.chain.hcrc.getD 0 < 65536 := by
    cases h : hd.chain.hcrc with
    | none => decide
    | some x => exact ok.hcrc x h
  simp only [Entry.values, headerValues, hhdr, hpacked, hpay, hlast, hlevel, hcnt, hext, hoff, hfwd]
  simp only [entryOf, lzhFlags_toNat, BitVec.toNat_ofNat, EntryValues.mk.injEq, true_and, and_true]
  omega

end

/-! ### `LZH.PARSE` on a whole entry (R203, R204) -/

theorem execLzhParse_ok {s : State} {r : Entry} (hs : s.srcInMem) (h : s.entryHere = .ok r) :
    execLzhParse s = .next ((s.setLzh r).setRes012 r.last r.pay r.packed) := by
  rw [execLzhParse, if_neg (not_not.mpr hs), h]

theorem entryHere_of_header {s : State} {hd : Header}
    (h : parseHeader s.srcByte s.x.slen.toNat s.cfg.l3Fixed s.x.aux.toNat = .ok hd)
    (hin : s.x.aux.toNat + hd.hdr + hd.packed ≤ s.x.slen.toNat) :
    s.entryHere = .ok (entryOf s.x.aux.toNat (s.srcByte (s.x.aux.toNat + 20)) hd) := by
  rw [State.entryHere, parseEntry, h]
  exact if_neg (Nat.not_lt.mpr hin)

/-- A header that parses, with a payload and slices that lie in the window, is latched at its values. -/
theorem execLzhParse_header {s : State} {hd : Header} {level : Byte} (hs : s.srcInMem)
    (hlevel : s.srcByte (s.x.aux.toNat + 20) = level)
    (h : parseHeader s.srcByte s.x.slen.toNat s.cfg.l3Fixed s.x.aux.toNat = .ok hd)
    (hin : s.x.aux.toNat + hd.hdr + hd.packed ≤ s.x.slen.toNat) (hslices : hd.chain.SlicesInside s.x.slen.toNat) :
    ∃ r : Entry,
      exec .lzhParse s = .next { s with lzh := r, x := { s.x with res0 := r.last, res1 := r.pay, res2 := r.packed } } ∧
      r.valid = true ∧ r.values = headerValues s.x.aux.toNat level.toNat hd := by
  subst hlevel
  have hX := l3Fixed_range s.cfg
  exact ⟨entryOf _ _ hd, execLzhParse_ok hs (entryHere_of_header h hin), rfl,
    entryOf_values (parseHeader_ok (by omega) h) s.x.slen.isLt hin hslices⟩

/-! ### The header at each level (R192 to R195, R197) -/

section
variable {B : Nat → Byte} {len X e : Nat}

/-- The level byte selects the parse (R191, R192). -/
theorem parseHeader_eq (hlen : e + 21 ≤ len) :
    (B (e + 20) = 0#8 → parseHeader B len X e = parseLevel0 B len e) ∧
      (B (e + 20) = 1#8 → parseHeader B len X e = parseLevel1 B len e) ∧
      (B (e + 20) = 2#8 → parseHeader B len X e = parseLevel2 B len e) ∧
      (B (e + 20) = 3#8 → parseHeader B len X e = parseLevel3 B len X e) := by
  have hoff : Config.lzhLevelOff = 20 := rfl
  unfold parseHeader
  rw [hoff, if_neg (by omega)]
  refine ⟨fun h => ?_, fun h => ?_, fun h => ?_, fun h => ?_⟩ <;> rw [h] <;> rfl

theorem parseHeader_level0 (hlevel : B (e + 20) = 0#8) (hname : 24 + nameLength B e ≤ baseLength B e)
    (hin : e + baseLength B e ≤ len) :
    parseHeader B len X e = .ok
      { hdr := baseLength B e, packed := storedSize B e, ucrc := le16 B (e + 22 + nameLength B e),
        chain := { Chain.empty with name := some (e + 22, nameLength B e) } } := by
  obtain ⟨hparse, -⟩ := parseHeader_eq (B := B) (X := X) (show e + 21 ≤ len by omega)
  rw [hparse hlevel, parseLevel0, if_neg (by omega), if_neg (by omega), if_neg (by omega)]

variable {ch : Chain}

theorem parseHeader_level1 (hlevel : B (e + 20) = 1#8) (hname : 26 + nameLength B e ≤ baseLength B e)
    (hin : e + baseLength B e ≤ len)
    (hwalk : walkExt B len (e + baseLength B e) (le16 B (e + baseLength B e - 2)) 2 false = .ok ch)
    (hext : ch.ext ≤ storedSize B e) :
    parseHeader B len X e = .ok
      { hdr := baseLength B e + ch.ext, packed := storedSize B e - ch.ext, ucrc := le16 B (e + 22 + nameLength B e),
        chain := { ch with name := some (e + 22, nameLength B e) } } := by
  obtain ⟨-, hparse, -⟩ := parseHeader_eq (B := B) (X := X) (show e + 21 ≤ len by omega)
  rw [hparse hlevel, parseLevel1, if_neg (by omega), if_neg (by omega), if_neg (by omega), hwalk]
  exact if_neg (Nat.not_lt.mpr hext)

theorem parseHeader_level2 (hlevel : B (e + 20) = 2#8) (hin : e + le16 B e ≤ len)
    (hwalk : walkExt B len (e + 26) (le16 B (e + 24)) 2 true = .ok ch) (hext : 26 + ch.ext ≤ le16 B e) :
    parseHeader B len X e = .ok
      { hdr := le16 B e, packed := storedSize B e, ucrc := le16 B (e + 21), chain := ch } := by
  have hfix : Config.lzhL2Fixed = 26 := rfl
  obtain ⟨-, -, hparse, -⟩ := parseHeader_eq (B := B) (X := X) (show e + 21 ≤ len by omega)
  rw [hparse hlevel, parseLevel2, hfix, if_neg (by omega), if_neg (by omega), if_neg (by omega), hwalk]
  exact if_neg (Nat.not_lt.mpr hext)

theorem parseHeader_level3 (hlevel : B (e + 20) = 3#8) (hX : 21 ≤ X) (hin : e + X ≤ len)
    (hwalk : walkExt B len (e + X) (le32 B (e + X - 4)) 4 true = .ok ch) :
    parseHeader B len X e = .ok
      { hdr := X + ch.ext, packed := storedSize B e, ucrc := le16 B (e + 21), chain := ch } := by
  obtain ⟨-, -, -, hparse⟩ := parseHeader_eq (B := B) (X := X) (show e + 21 ≤ len by omega)
  rw [hparse hlevel, parseLevel3, if_neg (by omega), hwalk]

end

/-- A slice recorded for a tag, or the absent one, lies in the window when the chain does. -/
theorem lastSlice_getD_inside {len W p : Nat} {bs : List ExtBlock} (tag : Byte) (h : p + chainSize W bs ≤ len) :
    ((lastSlice W tag p bs).getD (0, 0)).1 + ((lastSlice W tag p bs).getD (0, 0)).2 ≤ len := by
  cases hs : lastSlice W tag p bs with
  | none => exact Nat.zero_le _
  | some x => exact (lastSlice_inside hs).2.trans h

/-- Settles O45: no chain, and the name lies in the base header. -/
theorem parseLevelZeroEntry : Obligations.ParseLevelZeroEntry := by
  rintro s e base N stored rfl (rfl : base = baseLength s.srcByte s.x.aux.toNat)
    (rfl : N = nameLength s.srcByte s.x.aux.toNat) (rfl : stored = storedSize s.srcByte s.x.aux.toNat)
    hs hlevel hname hin
  obtain ⟨r, hx, hvalid, hvalues⟩ := execLzhParse_header hs hlevel (parseHeader_level0 hlevel hname (by omega)) hin
    ⟨by simp only [Option.getD_some]; omega, Nat.zero_le _⟩
  exact ⟨r, hx, hvalid, hvalues⟩

/-- Settles O46: what the chain takes of the stored size the header gains, and the walk records no name. -/
theorem parseLevelOneEntry : Obligations.ParseLevelOneEntry := by
  rintro s bs e base N stored ext rfl (rfl : base = baseLength s.srcByte s.x.aux.toNat)
    (rfl : N = nameLength s.srcByte s.x.aux.toNat) (rfl : stored = storedSize s.srcByte s.x.aux.toNat) rfl
    hs hlevel hname hchain htag hext hin
  have hwalk := walkExt_chain (len := s.x.slen.toNat) (names := false) hchain htag (by omega)
  obtain ⟨r, hx, hvalid, hvalues⟩ :=
    execLzhParse_header hs hlevel (parseHeader_level1 hlevel hname (by omega) hwalk hext) (by simp only; omega)
      ⟨by simp only [Option.getD_some]; omega, Nat.zero_le _⟩
  refine ⟨r, hx, hvalid, hvalues.trans ?_⟩
  simp [headerValues, Nat.add_assoc, Nat.add_sub_cancel' hext]

/-- Settles O47: the walk stays in the declared header and records the slices. -/
theorem parseLevelTwoEntry : Obligations.ParseLevelTwoEntry := by
  rintro s bs e HL stored ext rfl rfl (rfl : stored = storedSize s.srcByte s.x.aux.toNat) rfl
    hs hlevel hchain htag hext hin
  have hwalk := walkExt_chain (len := s.x.slen.toNat) (names := true) hchain htag (by omega)
  obtain ⟨r, hx, hvalid, hvalues⟩ :=
    execLzhParse_header hs hlevel (parseHeader_level2 hlevel (by omega) hwalk hext) hin
      ⟨lastSlice_getD_inside 1#8 (by omega), lastSlice_getD_inside 2#8 (by omega)⟩
  refine ⟨r, hx, hvalid, hvalues.trans ?_⟩
  simp [headerValues]

/-- Settles O48: the header is the fixed part and the chain, whichever length the fixed part has. -/
theorem parseLevelThreeEntry : Obligations.ParseLevelThreeEntry := by
  rintro s bs e X stored ext rfl rfl (rfl : stored = storedSize s.srcByte s.x.aux.toNat) rfl
    hs hlevel hchain htag hin
  have hX := l3Fixed_range s.cfg
  have hwalk := walkExt_chain (len := s.x.slen.toNat) (names := true) hchain htag (by omega)
  obtain ⟨r, hx, hvalid, hvalues⟩ :=
    execLzhParse_header hs hlevel (parseHeader_level3 hlevel (by omega) (by omega) hwalk) (by simp only; omega)
      ⟨lastSlice_getD_inside 1#8 (by omega), lastSlice_getD_inside 2#8 (by omega)⟩
  refine ⟨r, hx, hvalid, hvalues.trans ?_⟩
  simp [headerValues, Nat.add_assoc]

/-! ### Every parse that succeeds (R200, R205) -/

/-- `LZH.PARSE` that latches no fault has latched a checked header whose payload ends in the window. -/
theorem execLzhParse_succeeds {s t : State} (hx : execLzhParse s = .next t) (hcode : t.err.code = 0#4) :
    s.srcInMem ∧ ∃ (hd : Header) (r : Entry), hd.Ok s.srcByte s.x.slen.toNat s.cfg.l3Fixed s.x.aux.toNat ∧
      s.x.aux.toNat + hd.hdr + hd.packed ≤ s.x.slen.toNat ∧
      r = entryOf s.x.aux.toNat (s.srcByte (s.x.aux.toNat + 20)) hd ∧
      t = (s.setLzh r).setRes012 r.last r.pay r.packed := by
  rcases execLzhParse_cases hx with ⟨c, -, rfl⟩ | ⟨hs, r, hr, rfl⟩
  · exact absurd hcode c.code_ne_zero
  · obtain ⟨hd, ok, hin, hr⟩ := entryHere_ok hr
    exact ⟨hs, hd, r, ok, hin, hr, rfl⟩

/-- Settles O50: the registers hold the exact sums, and every level's header has at least 24 bytes. -/
theorem endOffsetIsOffsetPlusHeaderPlusPacked : Obligations.EndOffsetIsOffsetPlusHeaderPlusPacked := by
  intro s t _ hx hcode
  obtain ⟨-, hd, r, ok, hin, rfl, rfl⟩ := execLzhParse_succeeds hx hcode
  obtain ⟨hhdr, hpacked, hpay, hlast⟩ :=
    entryOf_extent_toNat s.x.slen.isLt hin (s.srcByte (s.x.aux.toNat + 20))
  rw [State.setRes012_lzh, State.setLzh_lzh, hhdr, hpacked, hpay, hlast]
  exact ⟨rfl, rfl, rfl, hin, ok.longest, rfl, rfl, rfl⟩

/-- Settles O52: the walk to block `k` is the one the parse has made, over the same bytes. -/
theorem chainWalksAgainAfterTheParse : Obligations.ChainWalksAgainAfterTheParse := by
  intro s t k hcode0 hx hcode hk
  obtain ⟨hs, hd, r, ok, hin, hr, rfl⟩ := execLzhParse_succeeds hx hcode
  obtain ⟨hlevel, hcnt, -, hoff, hfwd⟩ := entryOf_chain_toNat ok s.x.slen.isLt hin
  rw [← hr] at hlevel hcnt hoff hfwd
  have hk' : k.toNat < r.extCnt.toNat := hk
  obtain ⟨tag, off, n, hfound, hslice⟩ := ok.again k.toNat (hcnt ▸ hk')
  have hlevel3 : (s.srcByte (s.x.aux.toNat + 20)).toNat = 3 ↔ r.level = 3#2 := by
    rw [← hlevel, BitVec.toNat_eq]
    rfl
  simp only [hlevel3, ← hoff, ← hfwd] at hfound
  refine ⟨_, execLzhExt_found (tag := tag) (off := off) (len := n) ?_ ?_ ?_ ?_, hcode0, hslice s.x.slen.isLt, rfl, rfl⟩
  · exact hr ▸ rfl
  · exact hs
  · exact hk'
  · exact hfound

/-! ### `LZH.CRC` (R206) -/

theorem execLzhCrc_operand {s : State} (h : s.lzh.valid = false ∨ ¬ s.srcInMem) :
    execLzhCrc s = raise s (faultWord .lzhCrc) .operand := by
  unfold execLzhCrc
  split
  · rfl
  · exact if_pos (h.resolve_left ‹_›)

section
variable {s : State} (hv : s.lzh.valid = true) (hs : s.srcInMem)
include hv hs

theorem execLzhCrc_cutShort (h : s.x.slen.toNat < s.lzh.pay.toNat + s.lzh.packed.toNat) :
    execLzhCrc s = raise s (faultWord .lzhCrc) .structural := by
  rw [execLzhCrc, if_neg (by simp [hv]), if_neg (not_not.mpr hs), if_pos h]

variable (hin : s.lzh.pay.toNat + s.lzh.packed.toNat ≤ s.x.slen.toNat)
include hin

theorem execLzhCrc_agree (h : crc16 s.lzhPayload Config.crcInit = s.lzh.ucrc) :
    execLzhCrc s = .next (s.setRes0 ((crc16 s.lzhPayload Config.crcInit).setWidth 32)) := by
  rw [execLzhCrc, if_neg (by simp [hv]), if_neg (not_not.mpr hs), if_neg (Nat.not_lt.mpr hin), if_neg (not_not.mpr h)]

theorem execLzhCrc_differ (h : crc16 s.lzhPayload Config.crcInit ≠ s.lzh.ucrc) :
    execLzhCrc s = raise s (faultWord .lzhCrc)
      (.integrity ((crc16 s.lzhPayload Config.crcInit).setWidth 32) (s.lzh.ucrc.setWidth 32)) := by
  rw [execLzhCrc, if_neg (by simp [hv]), if_neg (not_not.mpr hs), if_neg (Nat.not_lt.mpr hin), if_pos h]

end

/-- Settles O53: one word of the opcode map, and the four answers of the command. -/
theorem lzhCrcComparesThePayload : Obligations.LzhCrcComparesThePayload := by
  refine ⟨.of_nFormat rfl (by decide) rfl, fun s c hc => ⟨fun h => ?_, fun hv hs => ⟨?_, fun hin => ?_⟩⟩⟩
  · exact execLzhCrc_operand (h.imp_right Nat.not_le.mpr)
  · exact execLzhCrc_cutShort hv hs
  · obtain rfl : c = crc16 s.lzhPayload Config.crcInit := hc
    exact ⟨execLzhCrc_agree hv hs hin, execLzhCrc_differ hv hs hin⟩

end Sys2Proof.Machine

/-!
PROOFS. The statements about the register port and `ERR.CLR` (spec/45_control.md): what a step does with each host
access to a register (R221 to R223), the block that is halted (R220, R242), the register map (R23), and what a register
write reaches (R222).
-/

namespace Sys2Proof.Machine

/-! ### One step for each access to a register (R221 to R223) -/

section
variable {s : State} {rest : List HostAction} (hq : s.rle = none)
include hq

theorem step_regRead {num : BitVec 6} (hs : s.script = .regRead num :: rest) :
    step s = .next ((s.setScript rest).pushReply (.reg (regRead s num))) := by
  rw [step_quiet hq, scriptStep_cons hs]
  rfl

theorem step_regWrite {num : BitVec 6} {v : Word} (hs : s.script = .regWrite num v :: rest) (hn : num ≠ cmdNum) :
    step s = .next (regWrite (s.setScript rest) num v) := by
  rw [step_quiet hq, scriptStep_cons hs]
  exact if_neg hn

theorem step_command {w : Word} (hs : s.script = .regWrite cmdNum w :: rest) :
    step s = issue w (s.setScript rest) := by
  rw [step_quiet hq, scriptStep_cons hs, hostAct, if_pos rfl]

end

/-- Settles O6: the step issues the word, and an issued word that decodes is executed. -/
theorem stepRunsTheIssuedCommand : Obligations.StepRunsTheIssuedCommand :=
  fun s _ rest _ hq hs he hd => (step_command hq hs).trans (issue_ok (s := s.setScript rest) he hd)

/-! ### The halted block (R220, R242) -/

/-- `ERR.CLR` has one word, by the round trip from words to instructions (R84, R86). -/
theorem decodeWord_eq_errClr_iff {w : Word} : decodeWord w = .ok .errClr ↔ w = 0x00000070#32 := by
  constructor
  · intro h
    obtain ⟨-, hw⟩ := decodedWordIsTheEncodingOfItsCommand w .errClr h
    exact (CodeUnit.command.inj hw).symm
  · rintro rfl
    rfl

theorem issue_halted {s : State} {w : Word} (hh : s.halted) (hw : w ≠ 0x00000070#32) : issue w s = .next s := by
  unfold issue
  split
  next i hd =>
    have hi : i ≠ .errClr := fun h => hw (decodeWord_eq_errClr_iff.mp (h ▸ hd))
    exact if_pos ⟨hh, hi⟩
  next => exact if_pos hh

theorem issue_errClr (s : State) : issue 0x00000070#32 s = .next (clearFault s) := if_neg fun h => h.2 rfl

/-- Settles O8: a halted block runs a word only when it decodes to `ERR.CLR`. -/
theorem haltedBlockTakesOnlyErrClr : Obligations.HaltedBlockTakesOnlyErrClr :=
  ⟨fun s _ rest hq hs hh hw => (step_command hq hs).trans (issue_halted (s := s.setScript rest) hh hw),
    fun s rest hq hs => (step_command hq hs).trans (issue_errClr (s.setScript rest)),
    fun _ => rfl⟩

/-! ### The register map (R23) -/

theorem modeWord_eq_ite (o : BitOrder) : modeWord o = if o = .lsbFirst then 1#32 else 0#32 := by cases o <;> rfl

/-- Settles O9: the step of a read, and the model's map number by number. -/
theorem regReadFollowsTheRegisterMap : Obligations.RegReadFollowsTheRegisterMap := by
  refine ⟨fun s num rest hq hs => step_regRead hq hs, fun s => ?_⟩
  rw [← modeWord_eq_ite]
  rfl

/-! ### What a register write reaches (R222) -/

/-- One of `x[0]` to `x[7]` reads the word written to it. -/
theorem regRead_regWrite_operand (s : State) {num : BitVec 6} (v : Word) (h : num.toNat < 8) :
    regRead (regWrite s num v) num = v := by
  unfold regRead regWrite
  interval_cases num.toNat <;> rfl

/-- `CRC` and `SUM` read the low 16 bits of the word written to them (R29, R30). -/
theorem regRead_regWrite_check (s : State) {num : BitVec 6} (v : Word) (h : num = 17#6 ∨ num = 18#6) :
    regRead (regWrite s num v) num = BitVec.ofNat 32 (v.toNat % 65536) := by
  have hread : regRead (regWrite s num v) num = (v.setWidth 16).setWidth 32 := by rcases h with rfl | rfl <;> rfl
  rw [hread, ← BitVec.toNat_inj]
  simp

/-- A write to a read-only or reserved register is ignored (R33). -/
theorem regWrite_readOnly (s : State) {num : BitVec 6} (v : Word) (h8 : ¬ num.toNat < 8)
    (h : ¬ (num = 17#6 ∨ num = 18#6)) : regWrite s num v = s := by
  have hcheck : num.toNat ≠ 17 ∧ num.toNat ≠ 18 := by simpa [← BitVec.toNat_inj] using h
  fun_cases regWrite s num v
  case case11 => rfl
  all_goals omega

/-- A write leaves what every other number reads: of the numbers of the map, only the written one reads a part of the
state that the write changes. -/
theorem regRead_regWrite_other (s : State) {num k : BitVec 6} (v : Word) (h : k ≠ num) :
    regRead (regWrite s num v) k = regRead s k := by
  have hk : k.toNat ≠ num.toNat := mt BitVec.eq_of_toNat_eq h
  fun_cases regWrite s num v
  case case11 => rfl
  all_goals
    next hnum =>
      unfold regRead
      generalize k.toNat = m at hk
      split
      any_goals rfl
      exact absurd hnum.symm hk

/-- What a register reads after a write of register `num` (R222). -/
theorem regRead_regWrite (s : State) (num k : BitVec 6) (v : Word) : regRead (regWrite s num v) k =
    if k = num ∧ num.toNat < 8 then v
    else if k = num ∧ (num = 17#6 ∨ num = 18#6) then BitVec.ofNat 32 (v.toNat % 65536)
    else regRead s k := by
  by_cases hk : k = num
  · subst k
    simp only [true_and]
    split_ifs with h8 hcheck
    · exact regRead_regWrite_operand s v h8
    · exact regRead_regWrite_check s v hcheck
    · rw [regWrite_readOnly s v h8 hcheck]
  · rw [if_neg (hk ·.1), if_neg (hk ·.1), regRead_regWrite_other s v hk]

/-- Settles O10: the step of a write, the read after it, and what a register write keeps. -/
theorem regWriteReachesOnlyHostWritableRegisters : Obligations.RegWriteReachesOnlyHostWritableRegisters := by
  intro s num v rest hq hs hn
  obtain ⟨hcfg, -, -, -, -, hmem, hrle, hscript, -⟩ := regWrite_keeps (s.setScript rest) num v
  exact ⟨_, step_regWrite hq hs hn, fun k => regRead_regWrite (s.setScript rest) num k v, hmem, hrle.trans hq, hscript,
    hcfg⟩

end Sys2Proof.Machine

/-!
PROOFS. The statement about the fault entry of a command (spec/60_exceptions.md R240): a command that ends in a fault
has entered it once, with its own word, from the state it began in.
-/

namespace Sys2Proof.Machine

/-! ### The fault entry of a command (R73, R240) -/

/-- The fault entry of R240 takes `s` to `t` with the word `cmd`: the latch alone, or the latch and the destination
window of a command that has one (R73). -/
inductive FaultEntry (s : State) (cmd : Word) : State → Prop
  | plain (c : Cause) : FaultEntry s cmd (s.setErr (c.latch cmd))
  | inWindow {c : Cause} {t : State} (h : raiseInWindow s cmd c = .next t) : FaultEntry s cmd t

/-- A cause of code 4 to 6 leaves the destination window as it was (R73). -/
theorem Cause.spoilsWindow_eq_false {c : Cause} (h : 4 ≤ c.code.toNat) : c.spoilsWindow = false :=
  Bool.eq_false_iff.mpr fun hs => absurd (c.spoilsWindow_iff.mp hs) (by omega)

/-- Either entry writes the latch of one cause, and beside it memory only, which codes 4 to 6 leave. -/
theorem FaultEntry.changes {s t : State} {cmd : Word} (h : FaultEntry s cmd t) :
    ∃ (c : Cause) (m : Memory) (k : Nat), t = { s with mem := m, freeCount := k, err := c.latch cmd } ∧
      (4 ≤ c.code.toNat → m = s.mem) := by
  cases h with
  | plain c => exact ⟨c, s.mem, s.freeCount, rfl, fun _ => rfl⟩
  | @inWindow c _ h =>
    obtain ⟨m, k, he, -, hkeep, -⟩ := raiseInWindow_spec s cmd c
    cases he.symm.trans h
    exact ⟨c, m, k, rfl, fun h4 => hkeep (Cause.spoilsWindow_eq_false h4)⟩

/-! ### What latches a fault has entered it

Outside the fault entry the code that a command leaves is the one it found, or the 0 of `ERR.CLR`. -/

section
variable {s t : State} (he : s.err.code = 0#4) (hf : t.err.code ≠ 0#4)
include he hf

theorem brRead_faultEntry {cmd : Word} {n : Nat} {value : Nat → Word} (h : brRead cmd n value s = .next t) :
    FaultEntry s cmd t := by
  rcases brRead_cases h with ⟨c, -, rfl⟩ | ⟨-, -, rfl⟩
  · exact .plain c
  · exact absurd he hf

theorem crcOverWindow_faultEntry {cmd : Word} {c0 : Half} (h : crcOverWindow cmd c0 s = .next t) :
    FaultEntry s cmd t := by
  rcases crcOverWindow_cases h with ⟨-, rfl⟩ | ⟨-, rfl⟩
  · exact .plain _
  · exact absurd he hf

theorem sumOverWindow_faultEntry {cmd : Word} {s0 : Half} (h : sumOverWindow cmd s0 s = .next t) :
    FaultEntry s cmd t := by
  rcases sumOverWindow_cases h with ⟨-, rfl⟩ | ⟨-, rfl⟩
  · exact .plain _
  · exact absurd he hf

theorem exec_command_faultEntry {i : Instr} {w : Word} (hi : encode i = .command w) (h : exec i s = .next t) :
    FaultEntry s (faultWord i) t := by
  cases i with
  | brBind o =>
    rcases execBrBind_cases h with rfl | ⟨-, -, rfl⟩
    · exact .plain _
    · exact absurd he hf
  | brRdu n => exact brRead_faultEntry he hf h
  | brRds n => exact brRead_faultEntry he hf h
  | crcInit => cases h; exact absurd he hf
  | crcUpd => exact crcOverWindow_faultEntry he hf h
  | crcRun => exact crcOverWindow_faultEntry he hf h
  | sumInit => cases h; exact absurd he hf
  | sumUpd => exact sumOverWindow_faultEntry he hf h
  | sumRun => exact sumOverWindow_faultEntry he hf h
  | sum32Chk =>
    rcases execSum32Chk_cases h with ⟨c, rfl, -⟩ | ⟨-, -, -, rfl⟩
    · exact .plain c
    · exact absurd he hf
  | rleExpand =>
    rcases execRleExpand_cases h with ⟨-, rfl⟩ | ⟨-, -, h⟩ | ⟨-, out, -, rfl⟩
    · exact .plain _
    · exact .inWindow h
    · exact absurd he hf
  | dmsOpen =>
    rcases execDmsOpen_cases h with ⟨c, -, rfl⟩ | ⟨-, -, -, rfl⟩
    · exact .plain c
    · exact absurd he hf
  | dmsTrack =>
    rcases execDmsTrack_cases h with ⟨c, -, rfl⟩ | ⟨-, -, rfl⟩ | ⟨-, trk, -, rfl⟩
    · exact .plain c
    · exact absurd he hf
    · exact absurd he hf
  | dmsUnpack verify =>
    rcases execDmsUnpack_cases h with rfl | ⟨-, c, -, h⟩ | ⟨-, trk, out, -, -, -, rfl⟩
    · exact .plain _
    · exact .inWindow h
    · exact absurd he hf
  | lzhParse =>
    rcases execLzhParse_cases h with ⟨c, -, rfl⟩ | ⟨-, e, -, rfl⟩
    · exact .plain c
    · exact absurd he hf
  | lzhExt =>
    rcases execLzhExt_cases h with ⟨c, -, rfl⟩ | ⟨tag, off, len, rfl⟩
    · exact .plain c
    · exact absurd he hf
  | lzhCrc =>
    rcases execLzhCrc_cases h with ⟨c, -, rfl⟩ | ⟨-, -, -, rfl⟩
    · exact .plain c
    · exact absurd he hf
  | errClr => cases h; exact absurd rfl hf
  | rleLit | rleEsc90 | rleRun8 | rleRun16 => cases hi

end

/-- Settles O54: the command has entered the fault, whose cause decides the latch and whether memory stays; what it
leaves outside the destination window is O56. -/
theorem faultingCommandChangesOnlyTheLatch : Obligations.FaultingCommandChangesOnlyTheLatch := by
  intro i s t w hi he h hf
  obtain ⟨-, houtside, -⟩ := memoryIsWrittenOnlyInTheDestinationWindow i s t h
  obtain ⟨c, m, k, rfl, hmem⟩ := (exec_command_faultEntry he hf hi h).changes
  exact ⟨c.code_range.2, faultWord_eq hi, c.got_exp_zero, rfl, rfl, rfl, rfl, rfl, rfl, rfl, houtside, hmem⟩

end Sys2Proof.Machine

/-!
PROOFS. The statement that the block never stops by itself (spec/60_exceptions.md R242; spec/70_reset_and_hazards.md
R262, R266, R267). An answer that is a next state stays one under the fault entry and under a choice between two such
answers; of the commands only a bit read has another answer, which the bound buffer of the invariant excludes (R118).
-/

namespace Sys2Proof.Machine

/-! ### Answers that are a next state -/

/-- The machine goes on: the answer is a next state, no stop and no refusal. -/
def GoesOn (a : Answer) : Prop := ∃ t, a = .next t

namespace GoesOn

theorem next (t : State) : GoesOn (.next t) := ⟨t, rfl⟩

/-- A fault of the block is latched, and the machine goes on (R240). -/
theorem raise (s : State) (cmd : Word) (c : Cause) : GoesOn (raise s cmd c) := ⟨_, raise_eq s cmd c⟩

theorem raiseInWindow (s : State) (cmd : Word) (c : Cause) : GoesOn (raiseInWindow s cmd c) := by
  obtain ⟨m, k, h, -⟩ := raiseInWindow_spec s cmd c
  exact ⟨_, h⟩

theorem ite {p : Prop} [Decidable p] {a b : Answer} (ha : GoesOn a) (hb : GoesOn b) : GoesOn (if p then a else b) := by
  split
  · exact ha
  · exact hb

end GoesOn

/-! ### Commands, words, steps -/

/-- A bit read stops nowhere when the bound buffer lies in memory (R113, R118). -/
theorem brRead_goesOn {cmd : Word} {n : Nat} {value : Nat → Word} {s : State} (hr : s.ReaderInv) :
    GoesOn (brRead cmd n value s) := by
  obtain ⟨hbuffer, -⟩ := hr
  by_cases hn : Config.brNMax < n
  · exact ⟨_, if_pos hn⟩
  · by_cases hf : s.brFits n
    · exact ⟨_, brRead_fits (Nat.not_lt.mp hn) hf hbuffer⟩
    · exact ⟨_, (if_neg hn).trans (if_pos hf)⟩

theorem execRleExpand_goesOn (s : State) : GoesOn (execRleExpand s) := by
  by_cases hw : s.windowsOk
  · rw [execRleExpand_windowsOk hw]
    exact rleOutcome_next s _
  · exact ⟨_, execRleExpand_operand hw⟩

theorem execDmsUnpack_goesOn (verify : Bool) (s : State) : GoesOn (execDmsUnpack verify s) := by
  refine .ite (.raise ..) ?_
  rcases s.trackHere with c | _ | t
  · exact .raiseInWindow ..
  · exact .raiseInWindow ..
  · refine .ite (.raise ..) ?_
    rcases unpack t (s.payloadOf t) verify with c | out
    · exact .raiseInWindow ..
    · exact .next _

/-- Every command goes on; a token has no such law, since its expansion stops at a window outside memory. -/
theorem exec_command_goesOn {i : Instr} {w : Word} {s : State} (hr : s.ReaderInv) (hi : encode i = .command w) :
    GoesOn (exec i s) := by
  cases i with
  | brBind o => exact .ite (.raise ..) (.ite (.raise ..) (.next _))
  | brRdu n => exact brRead_goesOn hr
  | brRds n => exact brRead_goesOn hr
  | crcInit => exact .next _
  | crcUpd => exact .ite (.raise ..) (.next _)
  | crcRun => exact .ite (.raise ..) (.next _)
  | sumInit => exact .next _
  | sumUpd => exact .ite (.raise ..) (.next _)
  | sumRun => exact .ite (.raise ..) (.next _)
  | sum32Chk => exact .ite (.raise ..) (.ite (.raise ..) (.ite (.raise ..) (.next _)))
  | rleExpand => exact execRleExpand_goesOn s
  | dmsOpen => exact .ite (.raise ..) (.ite (.raise ..) (.ite (.raise ..) (.next _)))
  | dmsTrack =>
    refine .ite (.raise ..) ?_
    rcases s.trackHere with c | _ | t
    · exact .raise ..
    · exact .next _
    · exact .next _
  | dmsUnpack verify => exact execDmsUnpack_goesOn verify s
  | lzhParse =>
    refine .ite (.raise ..) ?_
    rcases s.entryHere with c | r
    · exact .raise ..
    · exact .next _
  | lzhExt =>
    refine .ite (.raise ..) (.ite (.raise ..) (.ite (.next _) ?_))
    rcases extElement s.srcByte s.x.slen.toNat s.extWidth s.x.aux.toNat s.lzh.ext0.toNat s.lzh.fwd0.toNat with
      c | ⟨tag, off, len⟩
    · exact .raise ..
    · exact .next _
  | lzhCrc => exact .ite (.raise ..) (.ite (.raise ..) (.ite (.raise ..) (.ite (.raise ..) (.next _))))
  | errClr => exact .next _
  | rleLit | rleEsc90 | rleRun8 | rleRun16 => cases hi

/-- A word is dropped, latched as illegal, or run as a command, for no word decodes to a token. -/
theorem issue_goesOn {s : State} (hr : s.ReaderInv) (w : Word) : GoesOn (issue w s) := by
  unfold issue
  split
  next i hdec =>
    obtain ⟨v, hv⟩ := decodeWord_isCommand hdec
    exact .ite (.next s) (exec_command_goesOn hr hv)
  next => exact .ite (.next s) (.raise ..)

/-- A quiet block without a host action does nothing (R262). -/
theorem step_idle {s : State} (hq : s.rle = none) (hs : s.script = []) : step s = .next s :=
  (step_quiet hq).trans (scriptStep_nil hs)

/-- Settles O59, over the host's next action. -/
theorem blockNeverStopsByItself : Obligations.BlockNeverStopsByItself := by
  refine ⟨fun s hinv hq hread hwrite => ?_, fun s => step_idle⟩
  rcases hs : s.script with _ | ⟨a, rest⟩
  · exact ⟨_, step_idle hq hs⟩
  · cases a with
    | regRead num => exact ⟨_, step_regRead hq hs⟩
    | regWrite num v =>
      by_cases hn : num = cmdNum
      · subst hn
        rw [step_command hq hs]
        exact issue_goesOn (hinv.setScript rest).reader v
      · exact ⟨_, step_regWrite hq hs hn⟩
    | memRead addr => exact ⟨_, step_memRead hq hs (hread addr rest hs)⟩
    | memWrite addr b => exact ⟨_, step_memWrite hq hs (hwrite addr b rest hs)⟩
    | reset => exact ⟨_, step_reset hq hs⟩

end Sys2Proof.Machine
